-- ==== Sys2Proof/Word.lean ====
section
/-! DEFINITION. The words of the A65000: bytes, 32-bit words, and little-endian byte lists
(spec/00_scope.md R7 to R9, spec/20_memory.md R52). -/

namespace Sys2Proof

/-- One byte of the memory bank (R50). -/
abbrev Byte := BitVec 8

/-- A register value or a byte address: 32 bits (R6, `XLEN` and `ALEN`). -/
abbrev Word := BitVec 32

/-- The `n` bytes of the number `v`, least significant first (R52). -/
def leBytes : Nat → Nat → List Byte
  | 0, _ => []
  | n + 1, v => BitVec.ofNat 8 v :: leBytes n (v / 256)

/-- The number a list of bytes stands for, least significant byte first (R52). -/
def leNat : List Byte → Nat
  | [] => 0
  | b :: bs => b.toNat + 256 * leNat bs

end Sys2Proof
end

