-- ==== Sys2Proof/Syntax.lean ====
section
/-! DEFINITION. The instructions of the A65000 as syntax: one constructor of `Instr` for each of the
202 rows of spec/opcode_table.json, that is for each legal pair of opcode and addressing mode
(spec/30_encoding.md R90). Ignored bits (R93) have no place here. The same instruction seen as an
operation with an operand form is its `View`; meanings, encoder and decoder share that view. -/

namespace Sys2Proof

/-- A register number, 0 to 15 (R20). Every 4-bit value names a register (R86). -/
abbrev Reg := Fin 16

/-- The operand width `W` of an instruction, one of three (R83). -/
inductive Width where
  /-- `.b`, 8 bits -/
  | byte
  /-- `.w`, 16 bits -/
  | word
  /-- `.d`, 32 bits -/
  | dword
deriving DecidableEq, Repr

/-- `W` in bits (R8, R83). -/
@[reducible] def Width.bits : Width → Nat
  | .byte => 8
  | .word => 16
  | .dword => 32

/-- `n = W/8`, the width in bytes and the step size of pre-decrement and post-increment (R8, R131). -/
@[reducible] def Width.bytes : Width → Nat
  | .byte => 1
  | .word => 2
  | .dword => 4

/-- The two honoured bits of the register-configuration field, for the register-indirect modes (R84). -/
structure Adjust where
  /-- `RC[1]`, pre-decrement (R131) -/
  pre : Bool
  /-- `RC[0]`, post-increment (R134) -/
  post : Bool
deriving DecidableEq, Repr

/-- The sixteen addressing modes, in the order of their codes (R85). -/
inductive AddrMode where
  | implied
  | regImm
  | constImm
  | reg1
  | reg2
  | absSrc
  | absDst
  | absConst
  | indSrc
  | indDst
  | indConst
  | idxSrc
  | idxDst
  | idxConst
  | relative
  | direct
deriving DecidableEq, Repr

/-- The fifteen two-operand operations (R120). -/
inductive AluOp where
  | mov
  | add
  | sub
  | adc
  | sbc
  | and
  | or
  | xor
  | mul
  | div
  | shl
  | shr
  | rol
  | ror
  | cmp
deriving DecidableEq, Repr

/-- The operations of the one-register handler (R139). -/
inductive Reg1Op where
  | clr
  | inc
  | dec
  | sxb
  | sxw
  | push
  | pop
deriving DecidableEq, Repr

/-- The operations of the no-operand handler (R141). -/
inductive ImpliedOp where
  | pusha
  | popa
  | rts
  | brk
  | rti
  | slp
  | nop
  | sec
  | clc
  | sei
  | cli
  | sev
  | clv
deriving DecidableEq, Repr

/-- The thirteen branch conditions, named by their mnemonics (R253). -/
inductive Cond where
  | bra
  | beq
  | bne
  | bcc
  | bcs
  | bpl
  | bmi
  | bvc
  | bvs
  | blt
  | bgt
  | ble
  | bge
deriving DecidableEq, Repr

/-- The two direct transfers with an address operand alone (R143). -/
inductive DirectOp where
  | jmp
  | jsr
deriving DecidableEq, Repr

/-- The operands of a two-operand instruction, one constructor per addressing mode; the left operand
is the destination (R85, R121). -/
inductive TwoForm where
  /-- `OP Ra, const` -/
  | regImm (ra : Reg) (c : Word)
  /-- `OP Ra, Rb` -/
  | reg2 (ra rb : Reg)
  /-- `OP Ra, [addr]` -/
  | absSrc (ra : Reg) (addr : Word)
  /-- `OP [addr], Rb` -/
  | absDst (addr : Word) (rb : Reg)
  /-- `OP [addr], const` -/
  | absConst (addr : Word) (c : Word)
  /-- `OP Ra, [Rb]` -/
  | indSrc (adj : Adjust) (ra rb : Reg)
  /-- `OP [Ra], Rb` -/
  | indDst (adj : Adjust) (ra rb : Reg)
  /-- `OP [Ra], const` -/
  | indConst (adj : Adjust) (ra : Reg) (c : Word)
  /-- `OP Ra, [Rb + off]` -/
  | idxSrc (ra rb : Reg) (off : Word)
  /-- `OP [Ra + off], Rb` -/
  | idxDst (ra : Reg) (off : Word) (rb : Reg)
  /-- `OP [Ra + off], const` -/
  | idxConst (ra : Reg) (off : Word) (c : Word)
deriving DecidableEq, Repr

/-- The instructions: one constructor per row of spec/opcode_table.json. `w` is the operand width,
`ra` and `rb` are the registers `Ra` and `Rb` of the row's shape, `c` is a constant, `addr` an
address, `off` an index offset, `disp` a branch displacement as encoded, `id` a syscall number. -/
inductive Instr where
  | movRegImm (w : Width) (ra : Reg) (c : Word)
  | movReg2 (w : Width) (ra rb : Reg)
  | movAbsSrc (w : Width) (ra : Reg) (addr : Word)
  | movAbsDst (w : Width) (addr : Word) (rb : Reg)
  | movAbsConst (w : Width) (addr : Word) (c : Word)
  | movIndSrc (w : Width) (adj : Adjust) (ra rb : Reg)
  | movIndDst (w : Width) (adj : Adjust) (ra rb : Reg)
  | movIndConst (w : Width) (adj : Adjust) (ra : Reg) (c : Word)
  | movIdxSrc (w : Width) (ra rb : Reg) (off : Word)
  | movIdxDst (w : Width) (ra : Reg) (off : Word) (rb : Reg)
  | movIdxConst (w : Width) (ra : Reg) (off : Word) (c : Word)
  | clr (w : Width) (ra : Reg)
  | addRegImm (w : Width) (ra : Reg) (c : Word)
  | addReg2 (w : Width) (ra rb : Reg)
  | addAbsSrc (w : Width) (ra : Reg) (addr : Word)
  | addAbsDst (w : Width) (addr : Word) (rb : Reg)
  | addAbsConst (w : Width) (addr : Word) (c : Word)
  | addIndSrc (w : Width) (adj : Adjust) (ra rb : Reg)
  | addIndDst (w : Width) (adj : Adjust) (ra rb : Reg)
  | addIndConst (w : Width) (adj : Adjust) (ra : Reg) (c : Word)
  | addIdxSrc (w : Width) (ra rb : Reg) (off : Word)
  | addIdxDst (w : Width) (ra : Reg) (off : Word) (rb : Reg)
  | addIdxConst (w : Width) (ra : Reg) (off : Word) (c : Word)
  | subRegImm (w : Width) (ra : Reg) (c : Word)
  | subReg2 (w : Width) (ra rb : Reg)
  | subAbsSrc (w : Width) (ra : Reg) (addr : Word)
  | subAbsDst (w : Width) (addr : Word) (rb : Reg)
  | subAbsConst (w : Width) (addr : Word) (c : Word)
  | subIndSrc (w : Width) (adj : Adjust) (ra rb : Reg)
  | subIndDst (w : Width) (adj : Adjust) (ra rb : Reg)
  | subIndConst (w : Width) (adj : Adjust) (ra : Reg) (c : Word)
  | subIdxSrc (w : Width) (ra rb : Reg) (off : Word)
  | subIdxDst (w : Width) (ra : Reg) (off : Word) (rb : Reg)
  | subIdxConst (w : Width) (ra : Reg) (off : Word) (c : Word)
  | adcRegImm (w : Width) (ra : Reg) (c : Word)
  | adcReg2 (w : Width) (ra rb : Reg)
  | adcAbsSrc (w : Width) (ra : Reg) (addr : Word)
  | adcAbsDst (w : Width) (addr : Word) (rb : Reg)
  | adcAbsConst (w : Width) (addr : Word) (c : Word)
  | adcIndSrc (w : Width) (adj : Adjust) (ra rb : Reg)
  | adcIndDst (w : Width) (adj : Adjust) (ra rb : Reg)
  | adcIndConst (w : Width) (adj : Adjust) (ra : Reg) (c : Word)
  | adcIdxSrc (w : Width) (ra rb : Reg) (off : Word)
  | adcIdxDst (w : Width) (ra : Reg) (off : Word) (rb : Reg)
  | adcIdxConst (w : Width) (ra : Reg) (off : Word) (c : Word)
  | sbcRegImm (w : Width) (ra : Reg) (c : Word)
  | sbcReg2 (w : Width) (ra rb : Reg)
  | sbcAbsSrc (w : Width) (ra : Reg) (addr : Word)
  | sbcAbsDst (w : Width) (addr : Word) (rb : Reg)
  | sbcAbsConst (w : Width) (addr : Word) (c : Word)
  | sbcIndSrc (w : Width) (adj : Adjust) (ra rb : Reg)
  | sbcIndDst (w : Width) (adj : Adjust) (ra rb : Reg)
  | sbcIndConst (w : Width) (adj : Adjust) (ra : Reg) (c : Word)
  | sbcIdxSrc (w : Width) (ra rb : Reg) (off : Word)
  | sbcIdxDst (w : Width) (ra : Reg) (off : Word) (rb : Reg)
  | sbcIdxConst (w : Width) (ra : Reg) (off : Word) (c : Word)
  | andRegImm (w : Width) (ra : Reg) (c : Word)
  | andReg2 (w : Width) (ra rb : Reg)
  | andAbsSrc (w : Width) (ra : Reg) (addr : Word)
  | andAbsDst (w : Width) (addr : Word) (rb : Reg)
  | andAbsConst (w : Width) (addr : Word) (c : Word)
  | andIndSrc (w : Width) (adj : Adjust) (ra rb : Reg)
  | andIndDst (w : Width) (adj : Adjust) (ra rb : Reg)
  | andIndConst (w : Width) (adj : Adjust) (ra : Reg) (c : Word)
  | andIdxSrc (w : Width) (ra rb : Reg) (off : Word)
  | andIdxDst (w : Width) (ra : Reg) (off : Word) (rb : Reg)
  | andIdxConst (w : Width) (ra : Reg) (off : Word) (c : Word)
  | orRegImm (w : Width) (ra : Reg) (c : Word)
  | orReg2 (w : Width) (ra rb : Reg)
  | orAbsSrc (w : Width) (ra : Reg) (addr : Word)
  | orAbsDst (w : Width) (addr : Word) (rb : Reg)
  | orAbsConst (w : Width) (addr : Word) (c : Word)
  | orIndSrc (w : Width) (adj : Adjust) (ra rb : Reg)
  | orIndDst (w : Width) (adj : Adjust) (ra rb : Reg)
  | orIndConst (w : Width) (adj : Adjust) (ra : Reg) (c : Word)
  | orIdxSrc (w : Width) (ra rb : Reg) (off : Word)
  | orIdxDst (w : Width) (ra : Reg) (off : Word) (rb : Reg)
  | orIdxConst (w : Width) (ra : Reg) (off : Word) (c : Word)
  | xorRegImm (w : Width) (ra : Reg) (c : Word)
  | xorReg2 (w : Width) (ra rb : Reg)
  | xorAbsSrc (w : Width) (ra : Reg) (addr : Word)
  | xorAbsDst (w : Width) (addr : Word) (rb : Reg)
  | xorAbsConst (w : Width) (addr : Word) (c : Word)
  | xorIndSrc (w : Width) (adj : Adjust) (ra rb : Reg)
  | xorIndDst (w : Width) (adj : Adjust) (ra rb : Reg)
  | xorIndConst (w : Width) (adj : Adjust) (ra : Reg) (c : Word)
  | xorIdxSrc (w : Width) (ra rb : Reg) (off : Word)
  | xorIdxDst (w : Width) (ra : Reg) (off : Word) (rb : Reg)
  | xorIdxConst (w : Width) (ra : Reg) (off : Word) (c : Word)
  | mulRegImm (w : Width) (ra : Reg) (c : Word)
  | mulReg2 (w : Width) (ra rb : Reg)
  | mulAbsSrc (w : Width) (ra : Reg) (addr : Word)
  | mulAbsDst (w : Width) (addr : Word) (rb : Reg)
  | mulAbsConst (w : Width) (addr : Word) (c : Word)
  | mulIndSrc (w : Width) (adj : Adjust) (ra rb : Reg)
  | mulIndDst (w : Width) (adj : Adjust) (ra rb : Reg)
  | mulIndConst (w : Width) (adj : Adjust) (ra : Reg) (c : Word)
  | mulIdxSrc (w : Width) (ra rb : Reg) (off : Word)
  | mulIdxDst (w : Width) (ra : Reg) (off : Word) (rb : Reg)
  | mulIdxConst (w : Width) (ra : Reg) (off : Word) (c : Word)
  | divRegImm (w : Width) (ra : Reg) (c : Word)
  | divReg2 (w : Width) (ra rb : Reg)
  | divAbsSrc (w : Width) (ra : Reg) (addr : Word)
  | divAbsDst (w : Width) (addr : Word) (rb : Reg)
  | divAbsConst (w : Width) (addr : Word) (c : Word)
  | divIndSrc (w : Width) (adj : Adjust) (ra rb : Reg)
  | divIndDst (w : Width) (adj : Adjust) (ra rb : Reg)
  | divIndConst (w : Width) (adj : Adjust) (ra : Reg) (c : Word)
  | divIdxSrc (w : Width) (ra rb : Reg) (off : Word)
  | divIdxDst (w : Width) (ra : Reg) (off : Word) (rb : Reg)
  | divIdxConst (w : Width) (ra : Reg) (off : Word) (c : Word)
  | shlRegImm (w : Width) (ra : Reg) (c : Word)
  | shlReg2 (w : Width) (ra rb : Reg)
  | shlAbsSrc (w : Width) (ra : Reg) (addr : Word)
  | shlAbsDst (w : Width) (addr : Word) (rb : Reg)
  | shlAbsConst (w : Width) (addr : Word) (c : Word)
  | shlIndSrc (w : Width) (adj : Adjust) (ra rb : Reg)
  | shlIndDst (w : Width) (adj : Adjust) (ra rb : Reg)
  | shlIndConst (w : Width) (adj : Adjust) (ra : Reg) (c : Word)
  | shlIdxSrc (w : Width) (ra rb : Reg) (off : Word)
  | shlIdxDst (w : Width) (ra : Reg) (off : Word) (rb : Reg)
  | shlIdxConst (w : Width) (ra : Reg) (off : Word) (c : Word)
  | shrRegImm (w : Width) (ra : Reg) (c : Word)
  | shrReg2 (w : Width) (ra rb : Reg)
  | shrAbsSrc (w : Width) (ra : Reg) (addr : Word)
  | shrAbsDst (w : Width) (addr : Word) (rb : Reg)
  | shrAbsConst (w : Width) (addr : Word) (c : Word)
  | shrIndSrc (w : Width) (adj : Adjust) (ra rb : Reg)
  | shrIndDst (w : Width) (adj : Adjust) (ra rb : Reg)
  | shrIndConst (w : Width) (adj : Adjust) (ra : Reg) (c : Word)
  | shrIdxSrc (w : Width) (ra rb : Reg) (off : Word)
  | shrIdxDst (w : Width) (ra : Reg) (off : Word) (rb : Reg)
  | shrIdxConst (w : Width) (ra : Reg) (off : Word) (c : Word)
  | rolRegImm (w : Width) (ra : Reg) (c : Word)
  | rolReg2 (w : Width) (ra rb : Reg)
  | rolAbsSrc (w : Width) (ra : Reg) (addr : Word)
  | rolAbsDst (w : Width) (addr : Word) (rb : Reg)
  | rolAbsConst (w : Width) (addr : Word) (c : Word)
  | rolIndSrc (w : Width) (adj : Adjust) (ra rb : Reg)
  | rolIndDst (w : Width) (adj : Adjust) (ra rb : Reg)
  | rolIndConst (w : Width) (adj : Adjust) (ra : Reg) (c : Word)
  | rolIdxSrc (w : Width) (ra rb : Reg) (off : Word)
  | rolIdxDst (w : Width) (ra : Reg) (off : Word) (rb : Reg)
  | rolIdxConst (w : Width) (ra : Reg) (off : Word) (c : Word)
  | rorRegImm (w : Width) (ra : Reg) (c : Word)
  | rorReg2 (w : Width) (ra rb : Reg)
  | rorAbsSrc (w : Width) (ra : Reg) (addr : Word)
  | rorAbsDst (w : Width) (addr : Word) (rb : Reg)
  | rorAbsConst (w : Width) (addr : Word) (c : Word)
  | rorIndSrc (w : Width) (adj : Adjust) (ra rb : Reg)
  | rorIndDst (w : Width) (adj : Adjust) (ra rb : Reg)
  | rorIndConst (w : Width) (adj : Adjust) (ra : Reg) (c : Word)
  | rorIdxSrc (w : Width) (ra rb : Reg) (off : Word)
  | rorIdxDst (w : Width) (ra : Reg) (off : Word) (rb : Reg)
  | rorIdxConst (w : Width) (ra : Reg) (off : Word) (c : Word)
  | cmpRegImm (w : Width) (ra : Reg) (c : Word)
  | cmpReg2 (w : Width) (ra rb : Reg)
  | cmpAbsSrc (w : Width) (ra : Reg) (addr : Word)
  | cmpAbsDst (w : Width) (addr : Word) (rb : Reg)
  | cmpAbsConst (w : Width) (addr : Word) (c : Word)
  | cmpIndSrc (w : Width) (adj : Adjust) (ra rb : Reg)
  | cmpIndDst (w : Width) (adj : Adjust) (ra rb : Reg)
  | cmpIndConst (w : Width) (adj : Adjust) (ra : Reg) (c : Word)
  | cmpIdxSrc (w : Width) (ra rb : Reg) (off : Word)
  | cmpIdxDst (w : Width) (ra : Reg) (off : Word) (rb : Reg)
  | cmpIdxConst (w : Width) (ra : Reg) (off : Word) (c : Word)
  | inc (w : Width) (ra : Reg)
  | dec (w : Width) (ra : Reg)
  | sxb (ra : Reg)
  | sxw (ra : Reg)
  | pushConst (w : Width) (c : Word)
  | pushReg (w : Width) (ra : Reg)
  | pop (w : Width) (ra : Reg)
  | pusha (w : Width)
  | popa (w : Width)
  | jsr (addr : Word)
  | rts
  | brk
  | rti
  | sys (id : BitVec 16) (addr : Word)
  | slp
  | jmp (addr : Word)
  | nop
  | bra (w : Width) (disp : Word)
  | beq (w : Width) (disp : Word)
  | bne (w : Width) (disp : Word)
  | bcc (w : Width) (disp : Word)
  | bcs (w : Width) (disp : Word)
  | bpl (w : Width) (disp : Word)
  | bmi (w : Width) (disp : Word)
  | bvc (w : Width) (disp : Word)
  | bvs (w : Width) (disp : Word)
  | blt (w : Width) (disp : Word)
  | bgt (w : Width) (disp : Word)
  | ble (w : Width) (disp : Word)
  | bge (w : Width) (disp : Word)
  | sec
  | clc
  | sei
  | cli
  | sev
  | clv
deriving DecidableEq, Repr

/-- An instruction as an operation with its width and operand form. An operation that makes no use
of the width carries `.dword`, the canonical `SZ = 0` (R93). -/
inductive View where
  | two (op : AluOp) (w : Width) (f : TwoForm)
  | reg1 (op : Reg1Op) (w : Width) (ra : Reg)
  | pushConst (w : Width) (c : Word)
  | implied (op : ImpliedOp) (w : Width)
  | branch (cond : Cond) (w : Width) (disp : Word)
  | direct (op : DirectOp) (addr : Word)
  | sys (id : BitVec 16) (addr : Word)
deriving DecidableEq, Repr

/-- The view of each instruction: its row's opcode and addressing mode with its operands (R90). -/
def Instr.view : Instr → View
  | .movRegImm w ra c => .two .mov w (.regImm ra c)
  | .movReg2 w ra rb => .two .mov w (.reg2 ra rb)
  | .movAbsSrc w ra addr => .two .mov w (.absSrc ra addr)
  | .movAbsDst w addr rb => .two .mov w (.absDst addr rb)
  | .movAbsConst w addr c => .two .mov w (.absConst addr c)
  | .movIndSrc w adj ra rb => .two .mov w (.indSrc adj ra rb)
  | .movIndDst w adj ra rb => .two .mov w (.indDst adj ra rb)
  | .movIndConst w adj ra c => .two .mov w (.indConst adj ra c)
  | .movIdxSrc w ra rb off => .two .mov w (.idxSrc ra rb off)
  | .movIdxDst w ra off rb => .two .mov w (.idxDst ra off rb)
  | .movIdxConst w ra off c => .two .mov w (.idxConst ra off c)
  | .clr w ra => .reg1 .clr w ra
  | .addRegImm w ra c => .two .add w (.regImm ra c)
  | .addReg2 w ra rb => .two .add w (.reg2 ra rb)
  | .addAbsSrc w ra addr => .two .add w (.absSrc ra addr)
  | .addAbsDst w addr rb => .two .add w (.absDst addr rb)
  | .addAbsConst w addr c => .two .add w (.absConst addr c)
  | .addIndSrc w adj ra rb => .two .add w (.indSrc adj ra rb)
  | .addIndDst w adj ra rb => .two .add w (.indDst adj ra rb)
  | .addIndConst w adj ra c => .two .add w (.indConst adj ra c)
  | .addIdxSrc w ra rb off => .two .add w (.idxSrc ra rb off)
  | .addIdxDst w ra off rb => .two .add w (.idxDst ra off rb)
  | .addIdxConst w ra off c => .two .add w (.idxConst ra off c)
  | .subRegImm w ra c => .two .sub w (.regImm ra c)
  | .subReg2 w ra rb => .two .sub w (.reg2 ra rb)
  | .subAbsSrc w ra addr => .two .sub w (.absSrc ra addr)
  | .subAbsDst w addr rb => .two .sub w (.absDst addr rb)
  | .subAbsConst w addr c => .two .sub w (.absConst addr c)
  | .subIndSrc w adj ra rb => .two .sub w (.indSrc adj ra rb)
  | .subIndDst w adj ra rb => .two .sub w (.indDst adj ra rb)
  | .subIndConst w adj ra c => .two .sub w (.indConst adj ra c)
  | .subIdxSrc w ra rb off => .two .sub w (.idxSrc ra rb off)
  | .subIdxDst w ra off rb => .two .sub w (.idxDst ra off rb)
  | .subIdxConst w ra off c => .two .sub w (.idxConst ra off c)
  | .adcRegImm w ra c => .two .adc w (.regImm ra c)
  | .adcReg2 w ra rb => .two .adc w (.reg2 ra rb)
  | .adcAbsSrc w ra addr => .two .adc w (.absSrc ra addr)
  | .adcAbsDst w addr rb => .two .adc w (.absDst addr rb)
  | .adcAbsConst w addr c => .two .adc w (.absConst addr c)
  | .adcIndSrc w adj ra rb => .two .adc w (.indSrc adj ra rb)
  | .adcIndDst w adj ra rb => .two .adc w (.indDst adj ra rb)
  | .adcIndConst w adj ra c => .two .adc w (.indConst adj ra c)
  | .adcIdxSrc w ra rb off => .two .adc w (.idxSrc ra rb off)
  | .adcIdxDst w ra off rb => .two .adc w (.idxDst ra off rb)
  | .adcIdxConst w ra off c => .two .adc w (.idxConst ra off c)
  | .sbcRegImm w ra c => .two .sbc w (.regImm ra c)
  | .sbcReg2 w ra rb => .two .sbc w (.reg2 ra rb)
  | .sbcAbsSrc w ra addr => .two .sbc w (.absSrc ra addr)
  | .sbcAbsDst w addr rb => .two .sbc w (.absDst addr rb)
  | .sbcAbsConst w addr c => .two .sbc w (.absConst addr c)
  | .sbcIndSrc w adj ra rb => .two .sbc w (.indSrc adj ra rb)
  | .sbcIndDst w adj ra rb => .two .sbc w (.indDst adj ra rb)
  | .sbcIndConst w adj ra c => .two .sbc w (.indConst adj ra c)
  | .sbcIdxSrc w ra rb off => .two .sbc w (.idxSrc ra rb off)
  | .sbcIdxDst w ra off rb => .two .sbc w (.idxDst ra off rb)
  | .sbcIdxConst w ra off c => .two .sbc w (.idxConst ra off c)
  | .andRegImm w ra c => .two .and w (.regImm ra c)
  | .andReg2 w ra rb => .two .and w (.reg2 ra rb)
  | .andAbsSrc w ra addr => .two .and w (.absSrc ra addr)
  | .andAbsDst w addr rb => .two .and w (.absDst addr rb)
  | .andAbsConst w addr c => .two .and w (.absConst addr c)
  | .andIndSrc w adj ra rb => .two .and w (.indSrc adj ra rb)
  | .andIndDst w adj ra rb => .two .and w (.indDst adj ra rb)
  | .andIndConst w adj ra c => .two .and w (.indConst adj ra c)
  | .andIdxSrc w ra rb off => .two .and w (.idxSrc ra rb off)
  | .andIdxDst w ra off rb => .two .and w (.idxDst ra off rb)
  | .andIdxConst w ra off c => .two .and w (.idxConst ra off c)
  | .orRegImm w ra c => .two .or w (.regImm ra c)
  | .orReg2 w ra rb => .two .or w (.reg2 ra rb)
  | .orAbsSrc w ra addr => .two .or w (.absSrc ra addr)
  | .orAbsDst w addr rb => .two .or w (.absDst addr rb)
  | .orAbsConst w addr c => .two .or w (.absConst addr c)
  | .orIndSrc w adj ra rb => .two .or w (.indSrc adj ra rb)
  | .orIndDst w adj ra rb => .two .or w (.indDst adj ra rb)
  | .orIndConst w adj ra c => .two .or w (.indConst adj ra c)
  | .orIdxSrc w ra rb off => .two .or w (.idxSrc ra rb off)
  | .orIdxDst w ra off rb => .two .or w (.idxDst ra off rb)
  | .orIdxConst w ra off c => .two .or w (.idxConst ra off c)
  | .xorRegImm w ra c => .two .xor w (.regImm ra c)
  | .xorReg2 w ra rb => .two .xor w (.reg2 ra rb)
  | .xorAbsSrc w ra addr => .two .xor w (.absSrc ra addr)
  | .xorAbsDst w addr rb => .two .xor w (.absDst addr rb)
  | .xorAbsConst w addr c => .two .xor w (.absConst addr c)
  | .xorIndSrc w adj ra rb => .two .xor w (.indSrc adj ra rb)
  | .xorIndDst w adj ra rb => .two .xor w (.indDst adj ra rb)
  | .xorIndConst w adj ra c => .two .xor w (.indConst adj ra c)
  | .xorIdxSrc w ra rb off => .two .xor w (.idxSrc ra rb off)
  | .xorIdxDst w ra off rb => .two .xor w (.idxDst ra off rb)
  | .xorIdxConst w ra off c => .two .xor w (.idxConst ra off c)
  | .mulRegImm w ra c => .two .mul w (.regImm ra c)
  | .mulReg2 w ra rb => .two .mul w (.reg2 ra rb)
  | .mulAbsSrc w ra addr => .two .mul w (.absSrc ra addr)
  | .mulAbsDst w addr rb => .two .mul w (.absDst addr rb)
  | .mulAbsConst w addr c => .two .mul w (.absConst addr c)
  | .mulIndSrc w adj ra rb => .two .mul w (.indSrc adj ra rb)
  | .mulIndDst w adj ra rb => .two .mul w (.indDst adj ra rb)
  | .mulIndConst w adj ra c => .two .mul w (.indConst adj ra c)
  | .mulIdxSrc w ra rb off => .two .mul w (.idxSrc ra rb off)
  | .mulIdxDst w ra off rb => .two .mul w (.idxDst ra off rb)
  | .mulIdxConst w ra off c => .two .mul w (.idxConst ra off c)
  | .divRegImm w ra c => .two .div w (.regImm ra c)
  | .divReg2 w ra rb => .two .div w (.reg2 ra rb)
  | .divAbsSrc w ra addr => .two .div w (.absSrc ra addr)
  | .divAbsDst w addr rb => .two .div w (.absDst addr rb)
  | .divAbsConst w addr c => .two .div w (.absConst addr c)
  | .divIndSrc w adj ra rb => .two .div w (.indSrc adj ra rb)
  | .divIndDst w adj ra rb => .two .div w (.indDst adj ra rb)
  | .divIndConst w adj ra c => .two .div w (.indConst adj ra c)
  | .divIdxSrc w ra rb off => .two .div w (.idxSrc ra rb off)
  | .divIdxDst w ra off rb => .two .div w (.idxDst ra off rb)
  | .divIdxConst w ra off c => .two .div w (.idxConst ra off c)
  | .shlRegImm w ra c => .two .shl w (.regImm ra c)
  | .shlReg2 w ra rb => .two .shl w (.reg2 ra rb)
  | .shlAbsSrc w ra addr => .two .shl w (.absSrc ra addr)
  | .shlAbsDst w addr rb => .two .shl w (.absDst addr rb)
  | .shlAbsConst w addr c => .two .shl w (.absConst addr c)
  | .shlIndSrc w adj ra rb => .two .shl w (.indSrc adj ra rb)
  | .shlIndDst w adj ra rb => .two .shl w (.indDst adj ra rb)
  | .shlIndConst w adj ra c => .two .shl w (.indConst adj ra c)
  | .shlIdxSrc w ra rb off => .two .shl w (.idxSrc ra rb off)
  | .shlIdxDst w ra off rb => .two .shl w (.idxDst ra off rb)
  | .shlIdxConst w ra off c => .two .shl w (.idxConst ra off c)
  | .shrRegImm w ra c => .two .shr w (.regImm ra c)
  | .shrReg2 w ra rb => .two .shr w (.reg2 ra rb)
  | .shrAbsSrc w ra addr => .two .shr w (.absSrc ra addr)
  | .shrAbsDst w addr rb => .two .shr w (.absDst addr rb)
  | .shrAbsConst w addr c => .two .shr w (.absConst addr c)
  | .shrIndSrc w adj ra rb => .two .shr w (.indSrc adj ra rb)
  | .shrIndDst w adj ra rb => .two .shr w (.indDst adj ra rb)
  | .shrIndConst w adj ra c => .two .shr w (.indConst adj ra c)
  | .shrIdxSrc w ra rb off => .two .shr w (.idxSrc ra rb off)
  | .shrIdxDst w ra off rb => .two .shr w (.idxDst ra off rb)
  | .shrIdxConst w ra off c => .two .shr w (.idxConst ra off c)
  | .rolRegImm w ra c => .two .rol w (.regImm ra c)
  | .rolReg2 w ra rb => .two .rol w (.reg2 ra rb)
  | .rolAbsSrc w ra addr => .two .rol w (.absSrc ra addr)
  | .rolAbsDst w addr rb => .two .rol w (.absDst addr rb)
  | .rolAbsConst w addr c => .two .rol w (.absConst addr c)
  | .rolIndSrc w adj ra rb => .two .rol w (.indSrc adj ra rb)
  | .rolIndDst w adj ra rb => .two .rol w (.indDst adj ra rb)
  | .rolIndConst w adj ra c => .two .rol w (.indConst adj ra c)
  | .rolIdxSrc w ra rb off => .two .rol w (.idxSrc ra rb off)
  | .rolIdxDst w ra off rb => .two .rol w (.idxDst ra off rb)
  | .rolIdxConst w ra off c => .two .rol w (.idxConst ra off c)
  | .rorRegImm w ra c => .two .ror w (.regImm ra c)
  | .rorReg2 w ra rb => .two .ror w (.reg2 ra rb)
  | .rorAbsSrc w ra addr => .two .ror w (.absSrc ra addr)
  | .rorAbsDst w addr rb => .two .ror w (.absDst addr rb)
  | .rorAbsConst w addr c => .two .ror w (.absConst addr c)
  | .rorIndSrc w adj ra rb => .two .ror w (.indSrc adj ra rb)
  | .rorIndDst w adj ra rb => .two .ror w (.indDst adj ra rb)
  | .rorIndConst w adj ra c => .two .ror w (.indConst adj ra c)
  | .rorIdxSrc w ra rb off => .two .ror w (.idxSrc ra rb off)
  | .rorIdxDst w ra off rb => .two .ror w (.idxDst ra off rb)
  | .rorIdxConst w ra off c => .two .ror w (.idxConst ra off c)
  | .cmpRegImm w ra c => .two .cmp w (.regImm ra c)
  | .cmpReg2 w ra rb => .two .cmp w (.reg2 ra rb)
  | .cmpAbsSrc w ra addr => .two .cmp w (.absSrc ra addr)
  | .cmpAbsDst w addr rb => .two .cmp w (.absDst addr rb)
  | .cmpAbsConst w addr c => .two .cmp w (.absConst addr c)
  | .cmpIndSrc w adj ra rb => .two .cmp w (.indSrc adj ra rb)
  | .cmpIndDst w adj ra rb => .two .cmp w (.indDst adj ra rb)
  | .cmpIndConst w adj ra c => .two .cmp w (.indConst adj ra c)
  | .cmpIdxSrc w ra rb off => .two .cmp w (.idxSrc ra rb off)
  | .cmpIdxDst w ra off rb => .two .cmp w (.idxDst ra off rb)
  | .cmpIdxConst w ra off c => .two .cmp w (.idxConst ra off c)
  | .inc w ra => .reg1 .inc w ra
  | .dec w ra => .reg1 .dec w ra
  | .sxb ra => .reg1 .sxb .dword ra
  | .sxw ra => .reg1 .sxw .dword ra
  | .pushConst w c => .pushConst w c
  | .pushReg w ra => .reg1 .push w ra
  | .pop w ra => .reg1 .pop w ra
  | .pusha w => .implied .pusha w
  | .popa w => .implied .popa w
  | .jsr addr => .direct .jsr addr
  | .rts => .implied .rts .dword
  | .brk => .implied .brk .dword
  | .rti => .implied .rti .dword
  | .sys id addr => .sys id addr
  | .slp => .implied .slp .dword
  | .jmp addr => .direct .jmp addr
  | .nop => .implied .nop .dword
  | .bra w disp => .branch .bra w disp
  | .beq w disp => .branch .beq w disp
  | .bne w disp => .branch .bne w disp
  | .bcc w disp => .branch .bcc w disp
  | .bcs w disp => .branch .bcs w disp
  | .bpl w disp => .branch .bpl w disp
  | .bmi w disp => .branch .bmi w disp
  | .bvc w disp => .branch .bvc w disp
  | .bvs w disp => .branch .bvs w disp
  | .blt w disp => .branch .blt w disp
  | .bgt w disp => .branch .bgt w disp
  | .ble w disp => .branch .ble w disp
  | .bge w disp => .branch .bge w disp
  | .sec => .implied .sec .dword
  | .clc => .implied .clc .dword
  | .sei => .implied .sei .dword
  | .cli => .implied .cli .dword
  | .sev => .implied .sev .dword
  | .clv => .implied .clv .dword

end Sys2Proof
end

