-- ==== Sys2Proof/Config.lean ====
section
/-! DEFINITION. What the spec leaves to the implementation (spec/00_scope.md R6): the reference bank
capacity, the default cycle table, and the free value that stands for the host's syscall callback. -/

namespace Sys2Proof.Config

/-- `CAP` of the reference configuration, 512 KiB (R6, R50). The capacity itself is a field of the
memory, so that every statement holds for every capacity (assumption log 1). -/
def referenceCapacity : Nat := 0x80000

/-- The bounds the spec puts on `CAP` (R6). -/
def minCapacity : Nat := 32

/-- See `minCapacity`. -/
def maxCapacity : Nat := 2 ^ 32

/-- The default cycle cost of each addressing mode (R370). A cost is always taken from a table given
as an argument; nothing depends on these values (R371, assumption log 5). -/
def defaultCycles : AddrMode → Nat
  | .implied => 2
  | .regImm => 3
  | .constImm => 3
  | .reg1 => 2
  | .reg2 => 3
  | .absSrc => 5
  | .absDst => 5
  | .absConst => 6
  | .indSrc => 4
  | .indDst => 4
  | .indConst => 5
  | .idxSrc => 6
  | .idxDst => 6
  | .idxConst => 7
  | .relative => 3
  | .direct => 4

/-- FREE VALUE. What a registered syscall callback writes to the bank, as a list of (address, byte)
port writes: `SyscallEffect` of R283. Its arguments are the token of the registered callback, the
number of callback invocations before this one (so that the callback need not be deterministic), the
syscall id, the argument address and the bank's contents before the call. No value of it can be
proved (assumption log 2). -/
opaque syscallWrites :
  Nat → Nat → BitVec 16 → Word → List (Nat × Byte) → List (Nat × Byte)

end Sys2Proof.Config
end

