-- ==== Sys2Proof/Machine/State.lean ====
section
/-! DEFINITION. The state of the A65000 CORE as plain data (spec/10_state.md), the ways a step can stop, and
the state after reset. -/

namespace Sys2Proof.Machine

/-- The six status flags (R28). Bits 6 and 7 of the flags register are no state: they read as 0. -/
structure Flags where
  /-- Zero -/
  z : Bool
  /-- Negative -/
  n : Bool
  /-- Carry, and borrow after a subtraction -/
  c : Bool
  /-- Overflow -/
  v : Bool
  /-- Break -/
  b : Bool
  /-- InterruptDisable -/
  i : Bool
deriving DecidableEq, Repr

/-- The memory bank (R50): `cap` bytes, addresses 0 to `cap - 1`. `cells` lists the bytes that differ
from `Memory.unlisted`, addresses strictly rising. -/
structure Memory where
  /-- `CAP`, fixed at construction (R6); no event changes it -/
  cap : Nat
  /-- the listed bytes -/
  cells : List Host.Cell
deriving DecidableEq, Repr

/-- What a byte that is not listed reads as: the bank is zero-initialized (R37, R50). -/
def Memory.unlisted : Byte := 0

/-- The cells rise strictly from `lo`, lie below `cap`, and none equals an unlisted byte. -/
def cellsWf (cap : Nat) : Nat → List Host.Cell → Bool
  | _, [] => true
  | lo, (a, b) :: rest =>
    decide (lo ≤ a) && decide (a < cap) && decide (b ≠ Memory.unlisted) && cellsWf cap (a + 1) rest

/-- The bank's canonical form, and the bounds the spec puts on its capacity (R6). -/
def Memory.wf (m : Memory) : Bool :=
  decide (Config.minCapacity ≤ m.cap) && decide (m.cap ≤ Config.maxCapacity) && cellsWf m.cap 0 m.cells

/-- The state of the block (R20 to R37): everything that persists from one event to the next. -/
structure State where
  /-- `x[0]` to `x[15]`; register 14 is `sp`, register 15 is `pc` (R20 to R22) -/
  regs : Vector Word 16
  /-- the flags register (R28) -/
  flags : Flags
  /-- the sleep latch (R33) -/
  asleep : Bool
  /-- the memory bank (R50) -/
  mem : Memory
  /-- the host's syscall callback registration, by a token of the host's choice (R283, R351) -/
  callback : Option Nat
  /-- the MODEL's own field: how many callback invocations there have been; it only selects the free
  value of the next one (assumption log 2) -/
  syscalls : Nat
deriving DecidableEq, Repr

/-- The exceptions of the CPU (R310). They are values raised and consumed within a step, never stored. -/
inductive Exn where
  /-- an unrecognized opcode and addressing-mode pairing (R311) -/
  | invalidInstruction
  /-- a memory access outside the bank, with the address of its first byte (R312) -/
  | invalidAddress (a : Word)
  /-- DIV with a zero divisor (R314) -/
  | divisionByZero
deriving DecidableEq, Repr

/-- How the work of an instruction ends: completed, or an exception raised in the state its earlier
effects left (R9, R315: there is no rollback). -/
inductive Micro where
  | done (s : State)
  | raised (e : Exn) (s : State)
deriving DecidableEq, Repr

/-- Reasons the machine itself stops. -/
inductive Fault where
  /-- Raised by `takeException` and `resetEvent` when the bank is too small to hold the vector slot they
  read. SAFE: it can happen only with `CAP < 32`, which the spec puts outside the hardware (R6, R318,
  spec/93_implementation_defined.md U23). No instruction of a machine with `Memory.wf` ends here. -/
  | vectorOutsideBank
deriving DecidableEq, Repr

/-- Reasons an instruction has no meaning in the model. -/
inductive Refusal where
  /-- Raised by an arm of `exec` whose instruction has no meaning yet. SAFE. No arm raises it. -/
  | notModelled (mnemonic : String)
deriving DecidableEq, Repr

/-- The outcome of a step. -/
abbrev Result := Host.Outcome State Fault Refusal

/-- The bank at power-on in the reference configuration: every byte 0 (R37, R50). -/
def Memory.powerOn : Memory := { cap := Config.referenceCapacity, cells := [] }

/-- The state right after power-on and the reset event, with nothing loaded: the reset event zeroes
registers 0 to 13 and loads `pc` and `sp` from the vector slots, which read 0 in the zero-initialized
bank; the flags keep their power-on zeros (R37, R350). -/
def State.reset : State :=
  { regs := Vector.replicate 16 0
    flags := { z := false, n := false, c := false, v := false, b := false, i := false }
    asleep := false
    mem := Memory.powerOn
    callback := none
    syscalls := 0 }

end Sys2Proof.Machine
end

