-- ==== Sys2Proof/Machine/Ops.lean ====
section
/-! DEFINITION. The named operations every meaning is written with: the register file, the memory port, the
stack, taking an exception, and entering and leaving an interrupt (spec/00_scope.md R9, spec/20_memory.md,
spec/44_stack.md section 1, spec/60_exceptions.md). -/

namespace Sys2Proof.Machine

/-! ## Registers (spec/10_state.md) -/

/-- Register 13, the side register of MUL and DIV (R23). -/
def sideReg : Reg := 13

/-- Register 14, the stack pointer (R21). -/
def spReg : Reg := 14

/-- Register 15, the program counter (R22). -/
def pcReg : Reg := 15

/-- `x[i]` (R9). -/
def State.reg (s : State) (i : Reg) : Word := s.regs[i]

/-- `x[i] <- v`, all 32 bits (R9). -/
def State.setReg (s : State) (i : Reg) (v : Word) : State := { s with regs := s.regs.set i v }

/-- `sp` is `x[14]` (R21). -/
def State.sp (s : State) : Word := s.reg spReg

/-- `pc` is `x[15]` (R22). -/
def State.pc (s : State) : Word := s.reg pcReg

/-- `sp <- v`. -/
def State.setSp (s : State) (v : Word) : State := s.setReg spReg v

/-- `pc <- v` (R250). -/
def State.setPc (s : State) (v : Word) : State := s.setReg pcReg v

/-- `x[31:W] ++ v`: the low `W` bits replaced, the rest kept (R24). -/
def replaceLow (old : Word) {W : Nat} (v : BitVec W) : Word :=
  ((old >>> W) <<< W) ||| v.setWidth 32

/-- `RegRead(i, W)`: the low `W` bits of register `i` (R9, R24). -/
def State.regRead (s : State) (i : Reg) (w : Width) : BitVec w.bits := (s.reg i).setWidth w.bits

/-- `RegWrite(i, W, v)` (R9, R24). -/
def State.regWrite (s : State) (i : Reg) (w : Width) (v : BitVec w.bits) : State :=
  s.setReg i (replaceLow (s.reg i) v)

/-- The state with other flags. -/
def State.withFlags (s : State) (f : Flags) : State := { s with flags := f }

/-- The state with another bank. -/
def State.withMem (s : State) (m : Memory) : State := { s with mem := m }

/-- The state with the sleep latch at `b` (R33). -/
def State.withAsleep (s : State) (b : Bool) : State := { s with asleep := b }

/-! ## The flags byte (R28) -/

/-- `FlagsByte()` (R28). -/
def Flags.toByte (f : Flags) : Byte :=
  BitVec.ofNat 8
    (f.z.toNat + 2 * f.n.toNat + 4 * f.c.toNat + 8 * f.v.toNat + 16 * f.b.toNat + 32 * f.i.toNat)

/-- `SetFlagsByte(b)`; bits 6 and 7 are discarded (R28). -/
def Flags.ofByte (b : Byte) : Flags :=
  { z := b.getLsbD 0, n := b.getLsbD 1, c := b.getLsbD 2, v := b.getLsbD 3, b := b.getLsbD 4, i := b.getLsbD 5 }

/-! ## The memory bank and its port (spec/20_memory.md) -/

/-- The byte a cell list holds at an address. -/
def cellsGet : List Host.Cell → Nat → Byte
  | [], _ => Memory.unlisted
  | (k, v) :: rest, a => if a = k then v else cellsGet rest a

/-- A cell list with one byte written; a byte that reads as unlisted is not kept. -/
def cellsSet : List Host.Cell → Nat → Byte → List Host.Cell
  | [], a, b => if b = Memory.unlisted then [] else [(a, b)]
  | (k, v) :: rest, a, b =>
    if a < k then (if b = Memory.unlisted then (k, v) :: rest else (a, b) :: (k, v) :: rest)
    else if a = k then (if b = Memory.unlisted then rest else (a, b) :: rest)
    else (k, v) :: cellsSet rest a b

/-- `Mem[a]`, one byte. -/
def Memory.byte (m : Memory) (a : Nat) : Byte := cellsGet m.cells a

/-- `Mem[a] <- b`, one byte. -/
def Memory.setByte (m : Memory) (a : Nat) (b : Byte) : Memory := { m with cells := cellsSet m.cells a b }

/-- The `n` bytes from `a` as a number, least significant byte at `a` (R52). -/
def Memory.readLe (m : Memory) : Nat → Nat → Nat
  | 0, _ => 0
  | n + 1, a => (m.byte a).toNat + 256 * m.readLe n (a + 1)

/-- The low `8n` bits of `v` stored in the `n` bytes from `a`, least significant byte at `a` (R52). -/
def Memory.writeLe (m : Memory) : Nat → Nat → Nat → Memory
  | 0, _, _ => m
  | n + 1, a, v => (m.setByte a (BitVec.ofNat 8 v)).writeLe n (a + 1) (v / 256)

/-- The capacity check of R55, the sum taken without wrap-around. -/
def Memory.inBank (m : Memory) (a : Word) (n : Nat) : Bool := decide (a.toNat + n ≤ m.cap)

/-- `MemRead(a, n)` (R53). -/
def Memory.read (m : Memory) (n : Nat) (a : Word) : Except Exn Nat :=
  if m.inBank a n then .ok (m.readLe n a.toNat) else .error (.invalidAddress a)

/-- `MemWrite(a, n, v)`; a failed check writes no byte (R54). -/
def Memory.write (m : Memory) (n : Nat) (a : Word) (v : Nat) : Except Exn Memory :=
  if m.inBank a n then .ok (m.writeLe n a.toNat v) else .error (.invalidAddress a)

/-- `MemRead` in the machine. A read changes nothing (R53). -/
def State.load (s : State) (n : Nat) (a : Word) : Except Exn Nat := s.mem.read n a

/-- `MemWrite` in the machine. -/
def State.store (s : State) (n : Nat) (a : Word) (v : Nat) : Except Exn State :=
  match s.mem.write n a v with
  | .ok m => .ok (s.withMem m)
  | .error e => .error e

/-! ## Sequencing, push and pop -/

/-- The next part of an instruction, if the first part raised nothing (R10). -/
def Micro.andThen (m : Micro) (k : State → Micro) : Micro :=
  match m with
  | .done s => k s
  | .raised e s => .raised e s

/-- `Push(n, v)`: the decrement comes first and stays when the write faults (R230). -/
def push (n : Nat) (v : Nat) (s : State) : Micro :=
  let s1 := s.setSp (s.sp - BitVec.ofNat 32 n)
  match s1.store n s1.sp v with
  | .ok s2 => .done s2
  | .error e => .raised e s1

/-- `Pop(n)`: the value and the state with `sp` advanced; on a fault `sp` is unchanged (R231). -/
def pop (n : Nat) (s : State) : Except Exn (Nat × State) :=
  match s.load n s.sp with
  | .ok v => .ok (v, s.setSp (s.sp + BitVec.ofNat 32 n))
  | .error e => .error e

/-! ## The vector table, exceptions and interrupts (R60, spec/60_exceptions.md) -/

/-- `VEC_RESET` (R60). -/
def vecReset : Word := 0x00

/-- `VEC_SPINIT` (R60). -/
def vecSpInit : Word := 0x04

/-- `VEC_HWIRQ` (R60). -/
def vecHwIrq : Word := 0x08

/-- `VEC_SWIRQ` (R60). -/
def vecSwIrq : Word := 0x0C

/-- `VEC_NMI` (R60). -/
def vecNmi : Word := 0x10

/-- The vector slot of an exception: `VEC_ILLINSTR`, `VEC_ILLADDR`, `VEC_DIVZERO` (R60, R310). -/
def Exn.vector : Exn → Word
  | .invalidInstruction => 0x14
  | .invalidAddress _ => 0x18
  | .divisionByZero => 0x1C

/-- TAKING AN EXCEPTION, the fault redirect of R313: `pc` is loaded from the kind's vector slot and nothing
else changes: no push, no flag, nothing saved. With `CAP < 32` the slot may not exist (R318). -/
def takeException (e : Exn) (s : State) : Result :=
  match s.load 4 e.vector with
  | .ok v => .next (s.setPc (BitVec.ofNat 32 v))
  | .error _ => .fault .vectorOutsideBank

/-- The end of an instruction or event: its state, or the exception it raised taken (R313, R360). -/
def complete (m : Micro) : Result :=
  match m with
  | .done s => .next s
  | .raised e s => takeException e s

/-- The 5-byte frame of interrupt entry and BRK: the flags byte, then `pc` (R284). -/
def pushFrame (s : State) : Micro :=
  (push 1 s.flags.toByte.toNat s).andThen fun s1 => push 4 s1.pc.toNat s1

/-- `pc <- MemRead(vector, 4)` (R280, R323). -/
def loadVector (vector : Word) (s : State) : Micro :=
  match s.load 4 vector with
  | .ok v => .done (s.setPc (BitVec.ofNat 32 v))
  | .error e => .raised e s

/-- RETURNING from an interrupt or BRK handler: both pops, then `pc` and the six flags (R281). Faults save
nothing and have no return (R316). -/
def leaveInterrupt (s : State) : Micro :=
  match pop 4 s with
  | .error e => .raised e s
  | .ok (t, s1) =>
    match pop 1 s1 with
    | .error e => .raised e s1
    | .ok (b, s2) =>
      .done ((s2.setPc (BitVec.ofNat 32 t)).withFlags (Flags.ofByte (BitVec.ofNat 8 b)))

end Sys2Proof.Machine
end

