-- ==== Sys2Proof/Machine/Flags.lean ====
section
/-! DEFINITION. The flag computations (spec/10_state.md R30, spec/42_arithmetic.md R181, spec/45_control_transfer.md
R253). -/

namespace Sys2Proof.Machine

/-- `SetNZ(W, r)`: Zero when the `W`-bit result is 0, Negative its bit `W-1`; the other flags kept (R30). -/
def Flags.setNZ (f : Flags) {W : Nat} (r : BitVec W) : Flags :=
  { f with z := decide (r = 0), n := r.msb }

/-- Carry after an addition whose exact result is `t`: `t > MASK_W` (R181). -/
def carryOut (W : Nat) (t : Nat) : Bool := decide (2 ^ W - 1 < t)

/-- Carry after a subtraction whose exact result is `t`: the borrow, `t < 0` (R181). -/
def borrowOut (t : Int) : Bool := decide (t < 0)

/-- Overflow when the exact signed result `st` lies outside `SMIN_W` to `SMAX_W` (R8, R181). -/
def signedOverflow (W : Nat) (st : Int) : Bool :=
  decide (st < -((2 ^ (W - 1) : Nat) : Int)) || decide (((2 ^ (W - 1) : Nat) : Int) - 1 < st)

/-- `cond(OP, F)` (R253). -/
def condHolds (c : Cond) (f : Flags) : Bool :=
  match c with
  | .bra => true
  | .beq => f.z
  | .bne => !f.z
  | .bcc => !f.c
  | .bcs => f.c
  | .bpl => !f.n
  | .bmi => f.n
  | .bvc => !f.v
  | .bvs => f.v
  | .blt => f.n != f.v
  | .bgt => !f.z && f.n == f.v
  | .ble => f.z || f.n != f.v
  | .bge => f.n == f.v

end Sys2Proof.Machine
end

