-- ==== Sys2Proof/Machine/Alu.lean ====
section
/-! DEFINITION. The ALU of the two-operand instructions (spec/40_operand_dispatch.md R144): a function of
the opcode, two `W`-bit operands and the flags, computed exactly and narrowed at the end. -/

namespace Sys2Proof.Machine

/-- What the ALU returns: the result, the complete new flags, and the side value of MUL and DIV (R144). -/
structure AluOut (W : Nat) where
  r : BitVec W
  flags : Flags
  side : Option (BitVec W)
deriving DecidableEq, Repr

/-- A result with the Z/N update and nothing else (R161, R210). -/
def logicOut {W : Nat} (r : BitVec W) (f : Flags) : AluOut W :=
  { r := r, flags := f.setNZ r, side := none }

/-- `t = a + b + cin` with all four flags (R181 to R183). -/
def aluAdd {W : Nat} (a b : BitVec W) (cin : Bool) (f : Flags) : AluOut W :=
  let t := a.toNat + b.toNat + cin.toNat
  let st := a.toInt + b.toInt + (cin.toNat : Int)
  let r := BitVec.ofNat W t
  { r := r
    flags := { f.setNZ r with c := carryOut W t, v := signedOverflow W st }
    side := none }

/-- `t = a - b - bin` with all four flags (R181, R184 to R186). -/
def aluSub {W : Nat} (a b : BitVec W) (bin : Bool) (f : Flags) : AluOut W :=
  let t := (a.toNat : Int) - (b.toNat : Int) - (bin.toNat : Int)
  let st := a.toInt - b.toInt - (bin.toNat : Int)
  let r := BitVec.ofInt W t
  { r := r
    flags := { f.setNZ r with c := borrowOut t, v := signedOverflow W st }
    side := none }

/-- The exact product: low half the result, high half the side value; Z and N from the low half (R188). -/
def aluMul {W : Nat} (a b : BitVec W) (f : Flags) : AluOut W :=
  let p := a.toNat * b.toNat
  let r := BitVec.ofNat W p
  { r := r, flags := f.setNZ r, side := some (BitVec.ofNat W (p / 2 ^ W)) }

/-- Unsigned quotient and remainder; a zero divisor raises the exception (R189). -/
def aluDiv {W : Nat} (a b : BitVec W) (f : Flags) : Except Exn (AluOut W) :=
  if b.toNat = 0 then .error .divisionByZero
  else
    let r := BitVec.ofNat W (a.toNat / b.toNat)
    .ok { r := r, flags := f.setNZ r, side := some (BitVec.ofNat W (a.toNat % b.toNat)) }

/-- The shift amount `k = b mod W` (R214). -/
def shiftAmount {W : Nat} (b : BitVec W) : Nat := b.toNat % W

/-- The operand doubled up, the double-width intermediate of the rotates (R217, R218). -/
def doubled {W : Nat} (a : BitVec W) : Nat := a.toNat * 2 ^ W + a.toNat

/-- `SHL` (R215). -/
def shlValue {W : Nat} (a b : BitVec W) : BitVec W := BitVec.ofNat W (a.toNat * 2 ^ shiftAmount b)

/-- `SHR`, logical (R216). -/
def shrValue {W : Nat} (a b : BitVec W) : BitVec W := BitVec.ofNat W (a.toNat / 2 ^ shiftAmount b)

/-- `ROL` (R217). -/
def rolValue {W : Nat} (a b : BitVec W) : BitVec W :=
  BitVec.ofNat W (doubled a * 2 ^ shiftAmount b / 2 ^ W)

/-- `ROR` (R218). -/
def rorValue {W : Nat} (a b : BitVec W) : BitVec W := BitVec.ofNat W (doubled a / 2 ^ shiftAmount b)

/-- `ALU(OP, W, a, b, F)` (R144). MOV does not use `a` (R161); the handler drops the result of CMP (R186). -/
def alu (op : AluOp) {W : Nat} (a b : BitVec W) (f : Flags) : Except Exn (AluOut W) :=
  match op with
  | .mov => .ok (logicOut b f)
  | .add => .ok (aluAdd a b false f)
  | .sub => .ok (aluSub a b false f)
  | .adc => .ok (aluAdd a b f.c f)
  | .sbc => .ok (aluSub a b f.c f)
  | .and => .ok (logicOut (a &&& b) f)
  | .or => .ok (logicOut (a ||| b) f)
  | .xor => .ok (logicOut (a ^^^ b) f)
  | .mul => .ok (aluMul a b f)
  | .div => aluDiv a b f
  | .shl => .ok (logicOut (shlValue a b) f)
  | .shr => .ok (logicOut (shrValue a b) f)
  | .rol => .ok (logicOut (rolValue a b) f)
  | .ror => .ok (logicOut (rorValue a b) f)
  | .cmp => .ok (aluSub a b false f)

end Sys2Proof.Machine
end

