-- ==== Sys2Proof/Machine/Operands.lean ====
section
/-! DEFINITION. The operand dispatcher: every addressing mode of the two-operand instructions and the
two-operand handler (spec/40_operand_dispatch.md R121 to R146), then the operands of the branches. -/

namespace Sys2Proof.Machine

/-! ## Operand roles (R121 to R138) -/

/-- The destination register of a form; none when the destination is in memory (R121). -/
def destReg : TwoForm → Option Reg
  | .regImm ra _ => some ra
  | .reg2 ra _ => some ra
  | .absSrc ra _ => some ra
  | .absDst _ _ => none
  | .absConst _ _ => none
  | .indSrc _ ra _ => some ra
  | .indDst _ _ _ => none
  | .indConst _ _ _ => none
  | .idxSrc ra _ _ => some ra
  | .idxDst _ _ _ => none
  | .idxConst _ _ _ => none

/-- The base register of a register-indirect form with its adjustments (R128 to R130). -/
def adjustedBase : TwoForm → Option (Adjust × Reg)
  | .regImm _ _ => none
  | .reg2 _ _ => none
  | .absSrc _ _ => none
  | .absDst _ _ => none
  | .absConst _ _ => none
  | .indSrc adj _ rb => some (adj, rb)
  | .indDst adj ra _ => some (adj, ra)
  | .indConst adj ra _ => some (adj, ra)
  | .idxSrc _ _ _ => none
  | .idxDst _ _ _ => none
  | .idxConst _ _ _ => none

/-- The effective address `EA` of a form's memory operand; none for the two forms without one (R122 step
3, R133). -/
def memAddr (f : TwoForm) (s : State) : Option Word :=
  match f with
  | .regImm _ _ => none
  | .reg2 _ _ => none
  | .absSrc _ addr => some addr
  | .absDst addr _ => some addr
  | .absConst addr _ => some addr
  | .indSrc _ _ rb => some (s.reg rb)
  | .indDst _ ra _ => some (s.reg ra)
  | .indConst _ ra _ => some (s.reg ra)
  | .idxSrc _ rb off => some (s.reg rb + off)
  | .idxDst ra off _ => some (s.reg ra + off)
  | .idxConst ra off _ => some (s.reg ra + off)

/-- A constant at the operand width (R88). -/
def constAt (w : Width) (c : Word) : BitVec w.bits := c.setWidth w.bits

/-- A memory operand at the operand width (R57). -/
def loadAt (w : Width) (a : Word) (s : State) : Except Exn (BitVec w.bits) :=
  match s.load w.bytes a with
  | .ok v => .ok (BitVec.ofNat w.bits v)
  | .error e => .error e

/-- Step 4 of R122: the source value `b`. -/
def sourceValue (w : Width) (f : TwoForm) (s : State) : Except Exn (BitVec w.bits) :=
  match f with
  | .regImm _ c => .ok (constAt w c)
  | .reg2 _ rb => .ok (s.regRead rb w)
  | .absSrc _ addr => loadAt w addr s
  | .absDst _ rb => .ok (s.regRead rb w)
  | .absConst _ c => .ok (constAt w c)
  | .indSrc _ _ rb => loadAt w (s.reg rb) s
  | .indDst _ _ rb => .ok (s.regRead rb w)
  | .indConst _ _ c => .ok (constAt w c)
  | .idxSrc _ rb off => loadAt w (s.reg rb + off) s
  | .idxDst _ _ rb => .ok (s.regRead rb w)
  | .idxConst _ _ c => .ok (constAt w c)

/-- Step 5 of R122: the destination's old value `a`. -/
def destValue (w : Width) (f : TwoForm) (s : State) : Except Exn (BitVec w.bits) :=
  match f with
  | .regImm ra _ => .ok (s.regRead ra w)
  | .reg2 ra _ => .ok (s.regRead ra w)
  | .absSrc ra _ => .ok (s.regRead ra w)
  | .absDst addr _ => loadAt w addr s
  | .absConst addr _ => loadAt w addr s
  | .indSrc _ ra _ => .ok (s.regRead ra w)
  | .indDst _ ra _ => loadAt w (s.reg ra) s
  | .indConst _ ra _ => loadAt w (s.reg ra) s
  | .idxSrc ra _ _ => .ok (s.regRead ra w)
  | .idxDst ra off _ => loadAt w (s.reg ra + off) s
  | .idxConst ra off _ => loadAt w (s.reg ra + off) s

/-- Step 5 for every opcode: MOV does not read the destination (R122, R161). -/
def oldValue (op : AluOp) (w : Width) (f : TwoForm) (s : State) : Except Exn (BitVec w.bits) :=
  if op = .mov then .ok 0 else destValue w f s

/-! ## The steps that change the state -/

/-- Step 2 of R122: the pre-decrement, a full 32-bit write (R131). -/
def preDecrement (w : Width) (f : TwoForm) (s : State) : State :=
  match adjustedBase f with
  | some (adj, r) => if adj.pre then s.setReg r (s.reg r - BitVec.ofNat 32 w.bytes) else s
  | none => s

/-- Step 9 of R122: the post-increment, the last action (R134). -/
def postIncrement (w : Width) (f : TwoForm) (s : State) : State :=
  match adjustedBase f with
  | some (adj, r) => if adj.post then s.setReg r (s.reg r + BitVec.ofNat 32 w.bytes) else s
  | none => s

/-- Step 7 of R122: the result stored when the destination is in memory and the opcode is not CMP. -/
def storeResult (op : AluOp) (w : Width) (f : TwoForm) (r : BitVec w.bits) (s : State) : Except Exn State :=
  if op = .cmp then .ok s
  else
    match destReg f, memAddr f s with
    | none, some ea => s.store w.bytes ea r.toNat
    | _, _ => .ok s

/-- The side value written to register 13, zero-extended (R122 step 8, R188). -/
def writeSide {W : Nat} (side : Option (BitVec W)) (s : State) : State :=
  match side with
  | some v => s.setReg sideReg (v.setWidth 32)
  | none => s

/-- The result written when the destination is a register and the opcode is not CMP (R122 step 8). -/
def writeDest (op : AluOp) (w : Width) (f : TwoForm) (r : BitVec w.bits) (s : State) : State :=
  if op = .cmp then s
  else
    match destReg f with
    | some ra => s.regWrite ra w r
    | none => s

/-- Step 8 of R122: the side value, then the register destination, then the flags. -/
def commit (op : AluOp) (w : Width) (f : TwoForm) (out : AluOut w.bits) (s : State) : State :=
  (writeDest op w f out.r (writeSide out.side s)).withFlags out.flags

/-! ## The two-operand handler (R122) -/

/-- Steps 2 to 9 of R122; step 1 is the fetch, which has advanced `pc` (R135). -/
def twoOperand (op : AluOp) (w : Width) (f : TwoForm) (s : State) : Micro :=
  let s1 := preDecrement w f s
  match sourceValue w f s1 with
  | .error e => .raised e s1
  | .ok b =>
    match oldValue op w f s1 with
    | .error e => .raised e s1
    | .ok a =>
      match alu op a b s1.flags with
      | .error e => .raised e s1
      | .ok out =>
        match storeResult op w f out.r s1 with
        | .error e => .raised e s1
        | .ok s2 => .done (postIncrement w f (commit op w f out s2))

/-! ## Branch operands -/

/-- The displacement as encoded, sign-extended from the operand width (R88, R252). -/
def displacement (w : Width) (disp : Word) : Word := (disp.setWidth w.bits).signExtend 32

end Sys2Proof.Machine
end

