-- ==== Sys2Proof/Machine/Arithmetic.lean ====
section
/-! DEFINITION. Integer arithmetic: ADD, ADC, SUB, SBC, CMP, MUL, DIV, INC, DEC (spec/42_arithmetic.md). -/

namespace Sys2Proof.Machine

/-- INC: exactly `ADD Ra, 1` on the register (R190). -/
def incReg (w : Width) (ra : Reg) (s : State) : Micro :=
  let out := aluAdd (s.regRead ra w) (BitVec.ofNat w.bits 1) false s.flags
  .done ((s.regWrite ra w out.r).withFlags out.flags)

/-- DEC: exactly `SUB Ra, 1` on the register (R191). -/
def decReg (w : Width) (ra : Reg) (s : State) : Micro :=
  let out := aluSub (s.regRead ra w) (BitVec.ofNat w.bits 1) false s.flags
  .done ((s.regWrite ra w out.r).withFlags out.flags)

/-! ### ADD (R182) -/

/-- `ADD Ra, const` (R182). -/
def execAddRegImm (w : Width) (ra : Reg) (c : Word) (s : State) : Result :=
  complete (twoOperand .add w (.regImm ra c) s)

/-- `ADD Ra, Rb` (R182). -/
def execAddReg2 (w : Width) (ra rb : Reg) (s : State) : Result :=
  complete (twoOperand .add w (.reg2 ra rb) s)

/-- `ADD Ra, [addr]` (R182). -/
def execAddAbsSrc (w : Width) (ra : Reg) (addr : Word) (s : State) : Result :=
  complete (twoOperand .add w (.absSrc ra addr) s)

/-- `ADD [addr], Rb` (R182). -/
def execAddAbsDst (w : Width) (addr : Word) (rb : Reg) (s : State) : Result :=
  complete (twoOperand .add w (.absDst addr rb) s)

/-- `ADD [addr], const` (R182). -/
def execAddAbsConst (w : Width) (addr : Word) (c : Word) (s : State) : Result :=
  complete (twoOperand .add w (.absConst addr c) s)

/-- `ADD Ra, [Rb]` (R182). -/
def execAddIndSrc (w : Width) (adj : Adjust) (ra rb : Reg) (s : State) : Result :=
  complete (twoOperand .add w (.indSrc adj ra rb) s)

/-- `ADD [Ra], Rb` (R182). -/
def execAddIndDst (w : Width) (adj : Adjust) (ra rb : Reg) (s : State) : Result :=
  complete (twoOperand .add w (.indDst adj ra rb) s)

/-- `ADD [Ra], const` (R182). -/
def execAddIndConst (w : Width) (adj : Adjust) (ra : Reg) (c : Word) (s : State) : Result :=
  complete (twoOperand .add w (.indConst adj ra c) s)

/-- `ADD Ra, [Rb + off]` (R182). -/
def execAddIdxSrc (w : Width) (ra rb : Reg) (off : Word) (s : State) : Result :=
  complete (twoOperand .add w (.idxSrc ra rb off) s)

/-- `ADD [Ra + off], Rb` (R182). -/
def execAddIdxDst (w : Width) (ra : Reg) (off : Word) (rb : Reg) (s : State) : Result :=
  complete (twoOperand .add w (.idxDst ra off rb) s)

/-- `ADD [Ra + off], const` (R182). -/
def execAddIdxConst (w : Width) (ra : Reg) (off : Word) (c : Word) (s : State) : Result :=
  complete (twoOperand .add w (.idxConst ra off c) s)

/-! ### ADC (R183) -/

/-- `ADC Ra, const` (R183). -/
def execAdcRegImm (w : Width) (ra : Reg) (c : Word) (s : State) : Result :=
  complete (twoOperand .adc w (.regImm ra c) s)

/-- `ADC Ra, Rb` (R183). -/
def execAdcReg2 (w : Width) (ra rb : Reg) (s : State) : Result :=
  complete (twoOperand .adc w (.reg2 ra rb) s)

/-- `ADC Ra, [addr]` (R183). -/
def execAdcAbsSrc (w : Width) (ra : Reg) (addr : Word) (s : State) : Result :=
  complete (twoOperand .adc w (.absSrc ra addr) s)

/-- `ADC [addr], Rb` (R183). -/
def execAdcAbsDst (w : Width) (addr : Word) (rb : Reg) (s : State) : Result :=
  complete (twoOperand .adc w (.absDst addr rb) s)

/-- `ADC [addr], const` (R183). -/
def execAdcAbsConst (w : Width) (addr : Word) (c : Word) (s : State) : Result :=
  complete (twoOperand .adc w (.absConst addr c) s)

/-- `ADC Ra, [Rb]` (R183). -/
def execAdcIndSrc (w : Width) (adj : Adjust) (ra rb : Reg) (s : State) : Result :=
  complete (twoOperand .adc w (.indSrc adj ra rb) s)

/-- `ADC [Ra], Rb` (R183). -/
def execAdcIndDst (w : Width) (adj : Adjust) (ra rb : Reg) (s : State) : Result :=
  complete (twoOperand .adc w (.indDst adj ra rb) s)

/-- `ADC [Ra], const` (R183). -/
def execAdcIndConst (w : Width) (adj : Adjust) (ra : Reg) (c : Word) (s : State) : Result :=
  complete (twoOperand .adc w (.indConst adj ra c) s)

/-- `ADC Ra, [Rb + off]` (R183). -/
def execAdcIdxSrc (w : Width) (ra rb : Reg) (off : Word) (s : State) : Result :=
  complete (twoOperand .adc w (.idxSrc ra rb off) s)

/-- `ADC [Ra + off], Rb` (R183). -/
def execAdcIdxDst (w : Width) (ra : Reg) (off : Word) (rb : Reg) (s : State) : Result :=
  complete (twoOperand .adc w (.idxDst ra off rb) s)

/-- `ADC [Ra + off], const` (R183). -/
def execAdcIdxConst (w : Width) (ra : Reg) (off : Word) (c : Word) (s : State) : Result :=
  complete (twoOperand .adc w (.idxConst ra off c) s)

/-! ### SUB (R184) -/

/-- `SUB Ra, const` (R184). -/
def execSubRegImm (w : Width) (ra : Reg) (c : Word) (s : State) : Result :=
  complete (twoOperand .sub w (.regImm ra c) s)

/-- `SUB Ra, Rb` (R184). -/
def execSubReg2 (w : Width) (ra rb : Reg) (s : State) : Result :=
  complete (twoOperand .sub w (.reg2 ra rb) s)

/-- `SUB Ra, [addr]` (R184). -/
def execSubAbsSrc (w : Width) (ra : Reg) (addr : Word) (s : State) : Result :=
  complete (twoOperand .sub w (.absSrc ra addr) s)

/-- `SUB [addr], Rb` (R184). -/
def execSubAbsDst (w : Width) (addr : Word) (rb : Reg) (s : State) : Result :=
  complete (twoOperand .sub w (.absDst addr rb) s)

/-- `SUB [addr], const` (R184). -/
def execSubAbsConst (w : Width) (addr : Word) (c : Word) (s : State) : Result :=
  complete (twoOperand .sub w (.absConst addr c) s)

/-- `SUB Ra, [Rb]` (R184). -/
def execSubIndSrc (w : Width) (adj : Adjust) (ra rb : Reg) (s : State) : Result :=
  complete (twoOperand .sub w (.indSrc adj ra rb) s)

/-- `SUB [Ra], Rb` (R184). -/
def execSubIndDst (w : Width) (adj : Adjust) (ra rb : Reg) (s : State) : Result :=
  complete (twoOperand .sub w (.indDst adj ra rb) s)

/-- `SUB [Ra], const` (R184). -/
def execSubIndConst (w : Width) (adj : Adjust) (ra : Reg) (c : Word) (s : State) : Result :=
  complete (twoOperand .sub w (.indConst adj ra c) s)

/-- `SUB Ra, [Rb + off]` (R184). -/
def execSubIdxSrc (w : Width) (ra rb : Reg) (off : Word) (s : State) : Result :=
  complete (twoOperand .sub w (.idxSrc ra rb off) s)

/-- `SUB [Ra + off], Rb` (R184). -/
def execSubIdxDst (w : Width) (ra : Reg) (off : Word) (rb : Reg) (s : State) : Result :=
  complete (twoOperand .sub w (.idxDst ra off rb) s)

/-- `SUB [Ra + off], const` (R184). -/
def execSubIdxConst (w : Width) (ra : Reg) (off : Word) (c : Word) (s : State) : Result :=
  complete (twoOperand .sub w (.idxConst ra off c) s)

/-! ### SBC (R185) -/

/-- `SBC Ra, const` (R185). -/
def execSbcRegImm (w : Width) (ra : Reg) (c : Word) (s : State) : Result :=
  complete (twoOperand .sbc w (.regImm ra c) s)

/-- `SBC Ra, Rb` (R185). -/
def execSbcReg2 (w : Width) (ra rb : Reg) (s : State) : Result :=
  complete (twoOperand .sbc w (.reg2 ra rb) s)

/-- `SBC Ra, [addr]` (R185). -/
def execSbcAbsSrc (w : Width) (ra : Reg) (addr : Word) (s : State) : Result :=
  complete (twoOperand .sbc w (.absSrc ra addr) s)

/-- `SBC [addr], Rb` (R185). -/
def execSbcAbsDst (w : Width) (addr : Word) (rb : Reg) (s : State) : Result :=
  complete (twoOperand .sbc w (.absDst addr rb) s)

/-- `SBC [addr], const` (R185). -/
def execSbcAbsConst (w : Width) (addr : Word) (c : Word) (s : State) : Result :=
  complete (twoOperand .sbc w (.absConst addr c) s)

/-- `SBC Ra, [Rb]` (R185). -/
def execSbcIndSrc (w : Width) (adj : Adjust) (ra rb : Reg) (s : State) : Result :=
  complete (twoOperand .sbc w (.indSrc adj ra rb) s)

/-- `SBC [Ra], Rb` (R185). -/
def execSbcIndDst (w : Width) (adj : Adjust) (ra rb : Reg) (s : State) : Result :=
  complete (twoOperand .sbc w (.indDst adj ra rb) s)

/-- `SBC [Ra], const` (R185). -/
def execSbcIndConst (w : Width) (adj : Adjust) (ra : Reg) (c : Word) (s : State) : Result :=
  complete (twoOperand .sbc w (.indConst adj ra c) s)

/-- `SBC Ra, [Rb + off]` (R185). -/
def execSbcIdxSrc (w : Width) (ra rb : Reg) (off : Word) (s : State) : Result :=
  complete (twoOperand .sbc w (.idxSrc ra rb off) s)

/-- `SBC [Ra + off], Rb` (R185). -/
def execSbcIdxDst (w : Width) (ra : Reg) (off : Word) (rb : Reg) (s : State) : Result :=
  complete (twoOperand .sbc w (.idxDst ra off rb) s)

/-- `SBC [Ra + off], const` (R185). -/
def execSbcIdxConst (w : Width) (ra : Reg) (off : Word) (c : Word) (s : State) : Result :=
  complete (twoOperand .sbc w (.idxConst ra off c) s)

/-! ### CMP (R186) -/

/-- `CMP Ra, const` (R186). -/
def execCmpRegImm (w : Width) (ra : Reg) (c : Word) (s : State) : Result :=
  complete (twoOperand .cmp w (.regImm ra c) s)

/-- `CMP Ra, Rb` (R186). -/
def execCmpReg2 (w : Width) (ra rb : Reg) (s : State) : Result :=
  complete (twoOperand .cmp w (.reg2 ra rb) s)

/-- `CMP Ra, [addr]` (R186). -/
def execCmpAbsSrc (w : Width) (ra : Reg) (addr : Word) (s : State) : Result :=
  complete (twoOperand .cmp w (.absSrc ra addr) s)

/-- `CMP [addr], Rb` (R186). -/
def execCmpAbsDst (w : Width) (addr : Word) (rb : Reg) (s : State) : Result :=
  complete (twoOperand .cmp w (.absDst addr rb) s)

/-- `CMP [addr], const` (R186). -/
def execCmpAbsConst (w : Width) (addr : Word) (c : Word) (s : State) : Result :=
  complete (twoOperand .cmp w (.absConst addr c) s)

/-- `CMP Ra, [Rb]` (R186). -/
def execCmpIndSrc (w : Width) (adj : Adjust) (ra rb : Reg) (s : State) : Result :=
  complete (twoOperand .cmp w (.indSrc adj ra rb) s)

/-- `CMP [Ra], Rb` (R186). -/
def execCmpIndDst (w : Width) (adj : Adjust) (ra rb : Reg) (s : State) : Result :=
  complete (twoOperand .cmp w (.indDst adj ra rb) s)

/-- `CMP [Ra], const` (R186). -/
def execCmpIndConst (w : Width) (adj : Adjust) (ra : Reg) (c : Word) (s : State) : Result :=
  complete (twoOperand .cmp w (.indConst adj ra c) s)

/-- `CMP Ra, [Rb + off]` (R186). -/
def execCmpIdxSrc (w : Width) (ra rb : Reg) (off : Word) (s : State) : Result :=
  complete (twoOperand .cmp w (.idxSrc ra rb off) s)

/-- `CMP [Ra + off], Rb` (R186). -/
def execCmpIdxDst (w : Width) (ra : Reg) (off : Word) (rb : Reg) (s : State) : Result :=
  complete (twoOperand .cmp w (.idxDst ra off rb) s)

/-- `CMP [Ra + off], const` (R186). -/
def execCmpIdxConst (w : Width) (ra : Reg) (off : Word) (c : Word) (s : State) : Result :=
  complete (twoOperand .cmp w (.idxConst ra off c) s)

/-! ### MUL (R188) -/

/-- `MUL Ra, const` (R188). -/
def execMulRegImm (w : Width) (ra : Reg) (c : Word) (s : State) : Result :=
  complete (twoOperand .mul w (.regImm ra c) s)

/-- `MUL Ra, Rb` (R188). -/
def execMulReg2 (w : Width) (ra rb : Reg) (s : State) : Result :=
  complete (twoOperand .mul w (.reg2 ra rb) s)

/-- `MUL Ra, [addr]` (R188). -/
def execMulAbsSrc (w : Width) (ra : Reg) (addr : Word) (s : State) : Result :=
  complete (twoOperand .mul w (.absSrc ra addr) s)

/-- `MUL [addr], Rb` (R188). -/
def execMulAbsDst (w : Width) (addr : Word) (rb : Reg) (s : State) : Result :=
  complete (twoOperand .mul w (.absDst addr rb) s)

/-- `MUL [addr], const` (R188). -/
def execMulAbsConst (w : Width) (addr : Word) (c : Word) (s : State) : Result :=
  complete (twoOperand .mul w (.absConst addr c) s)

/-- `MUL Ra, [Rb]` (R188). -/
def execMulIndSrc (w : Width) (adj : Adjust) (ra rb : Reg) (s : State) : Result :=
  complete (twoOperand .mul w (.indSrc adj ra rb) s)

/-- `MUL [Ra], Rb` (R188). -/
def execMulIndDst (w : Width) (adj : Adjust) (ra rb : Reg) (s : State) : Result :=
  complete (twoOperand .mul w (.indDst adj ra rb) s)

/-- `MUL [Ra], const` (R188). -/
def execMulIndConst (w : Width) (adj : Adjust) (ra : Reg) (c : Word) (s : State) : Result :=
  complete (twoOperand .mul w (.indConst adj ra c) s)

/-- `MUL Ra, [Rb + off]` (R188). -/
def execMulIdxSrc (w : Width) (ra rb : Reg) (off : Word) (s : State) : Result :=
  complete (twoOperand .mul w (.idxSrc ra rb off) s)

/-- `MUL [Ra + off], Rb` (R188). -/
def execMulIdxDst (w : Width) (ra : Reg) (off : Word) (rb : Reg) (s : State) : Result :=
  complete (twoOperand .mul w (.idxDst ra off rb) s)

/-- `MUL [Ra + off], const` (R188). -/
def execMulIdxConst (w : Width) (ra : Reg) (off : Word) (c : Word) (s : State) : Result :=
  complete (twoOperand .mul w (.idxConst ra off c) s)

/-! ### DIV (R189) -/

/-- `DIV Ra, const` (R189). -/
def execDivRegImm (w : Width) (ra : Reg) (c : Word) (s : State) : Result :=
  complete (twoOperand .div w (.regImm ra c) s)

/-- `DIV Ra, Rb` (R189). -/
def execDivReg2 (w : Width) (ra rb : Reg) (s : State) : Result :=
  complete (twoOperand .div w (.reg2 ra rb) s)

/-- `DIV Ra, [addr]` (R189). -/
def execDivAbsSrc (w : Width) (ra : Reg) (addr : Word) (s : State) : Result :=
  complete (twoOperand .div w (.absSrc ra addr) s)

/-- `DIV [addr], Rb` (R189). -/
def execDivAbsDst (w : Width) (addr : Word) (rb : Reg) (s : State) : Result :=
  complete (twoOperand .div w (.absDst addr rb) s)

/-- `DIV [addr], const` (R189). -/
def execDivAbsConst (w : Width) (addr : Word) (c : Word) (s : State) : Result :=
  complete (twoOperand .div w (.absConst addr c) s)

/-- `DIV Ra, [Rb]` (R189). -/
def execDivIndSrc (w : Width) (adj : Adjust) (ra rb : Reg) (s : State) : Result :=
  complete (twoOperand .div w (.indSrc adj ra rb) s)

/-- `DIV [Ra], Rb` (R189). -/
def execDivIndDst (w : Width) (adj : Adjust) (ra rb : Reg) (s : State) : Result :=
  complete (twoOperand .div w (.indDst adj ra rb) s)

/-- `DIV [Ra], const` (R189). -/
def execDivIndConst (w : Width) (adj : Adjust) (ra : Reg) (c : Word) (s : State) : Result :=
  complete (twoOperand .div w (.indConst adj ra c) s)

/-- `DIV Ra, [Rb + off]` (R189). -/
def execDivIdxSrc (w : Width) (ra rb : Reg) (off : Word) (s : State) : Result :=
  complete (twoOperand .div w (.idxSrc ra rb off) s)

/-- `DIV [Ra + off], Rb` (R189). -/
def execDivIdxDst (w : Width) (ra : Reg) (off : Word) (rb : Reg) (s : State) : Result :=
  complete (twoOperand .div w (.idxDst ra off rb) s)

/-- `DIV [Ra + off], const` (R189). -/
def execDivIdxConst (w : Width) (ra : Reg) (off : Word) (c : Word) (s : State) : Result :=
  complete (twoOperand .div w (.idxConst ra off c) s)

/-! ### INC, DEC -/

/-- `INC Ra` (R190). -/
def execInc (w : Width) (ra : Reg) (s : State) : Result :=
  complete (incReg w ra s)

/-- `DEC Ra` (R191). -/
def execDec (w : Width) (ra : Reg) (s : State) : Result :=
  complete (decReg w ra s)

end Sys2Proof.Machine
end

