-- ==== Sys2Proof/Machine/Control.lean ====
section
/-! DEFINITION. Control transfer: JMP, JSR, RTS and the thirteen branches (spec/45_control_transfer.md). -/

namespace Sys2Proof.Machine

/-- JMP: the target goes to `pc` unchecked (R254). -/
def jump (addr : Word) (s : State) : Micro := .done (s.setPc addr)

/-- JSR: the address of the next instruction pushed, then the jump; a faulting push jumps nowhere (R255). -/
def call (addr : Word) (s : State) : Micro :=
  (push 4 s.pc.toNat s).andThen fun s1 => .done (s1.setPc addr)

/-- RTS: the popped word goes to `pc` (R256). -/
def ret (s : State) : Micro :=
  match pop 4 s with
  | .ok (t, s1) => .done (s1.setPc (BitVec.ofNat 32 t))
  | .error e => .raised e s

/-- The thirteen branches: when the condition holds, the sign-extended displacement is added to the address
of the next instruction (R252). -/
def branch (cond : Cond) (w : Width) (disp : Word) (s : State) : Micro :=
  .done (if condHolds cond s.flags then s.setPc (s.pc + displacement w disp) else s)

/-- `JMP addr` (R254). -/
def execJmp (addr : Word) (s : State) : Result :=
  complete (jump addr s)

/-- `JSR addr` (R255). -/
def execJsr (addr : Word) (s : State) : Result :=
  complete (call addr s)

/-- `RTS` (R256). -/
def execRts (s : State) : Result :=
  complete (ret s)

/-- `BRA disp` (R257). -/
def execBra (w : Width) (disp : Word) (s : State) : Result :=
  complete (branch .bra w disp s)

/-- `BEQ disp` (R258). -/
def execBeq (w : Width) (disp : Word) (s : State) : Result :=
  complete (branch .beq w disp s)

/-- `BNE disp` (R259). -/
def execBne (w : Width) (disp : Word) (s : State) : Result :=
  complete (branch .bne w disp s)

/-- `BCC disp` (R260). -/
def execBcc (w : Width) (disp : Word) (s : State) : Result :=
  complete (branch .bcc w disp s)

/-- `BCS disp` (R261). -/
def execBcs (w : Width) (disp : Word) (s : State) : Result :=
  complete (branch .bcs w disp s)

/-- `BPL disp` (R262). -/
def execBpl (w : Width) (disp : Word) (s : State) : Result :=
  complete (branch .bpl w disp s)

/-- `BMI disp` (R263). -/
def execBmi (w : Width) (disp : Word) (s : State) : Result :=
  complete (branch .bmi w disp s)

/-- `BVC disp` (R264). -/
def execBvc (w : Width) (disp : Word) (s : State) : Result :=
  complete (branch .bvc w disp s)

/-- `BVS disp` (R265). -/
def execBvs (w : Width) (disp : Word) (s : State) : Result :=
  complete (branch .bvs w disp s)

/-- `BLT disp` (R266). -/
def execBlt (w : Width) (disp : Word) (s : State) : Result :=
  complete (branch .blt w disp s)

/-- `BGT disp` (R267). -/
def execBgt (w : Width) (disp : Word) (s : State) : Result :=
  complete (branch .bgt w disp s)

/-- `BLE disp` (R268). -/
def execBle (w : Width) (disp : Word) (s : State) : Result :=
  complete (branch .ble w disp s)

/-- `BGE disp` (R269). -/
def execBge (w : Width) (disp : Word) (s : State) : Result :=
  complete (branch .bge w disp s)

end Sys2Proof.Machine
end

