-- ==== Sys2Proof/Machine/DataMovement.lean ====
section
/-! DEFINITION. Data movement: MOV, CLR, SXB, SXW (spec/41_data_movement.md). -/

namespace Sys2Proof.Machine

/-- CLR: the low `W` bits cleared, Z set, N cleared (R162). -/
def clearReg (w : Width) (ra : Reg) (s : State) : Micro :=
  .done ((s.regWrite ra w 0).withFlags { s.flags with z := true, n := false })

/-- SXB and SXW: the low `N` bits sign-extended over the whole register, Z and N from the 32-bit result
(R163, R164). -/
def signExtendReg (N : Nat) (ra : Reg) (s : State) : Micro :=
  let v : Word := ((s.reg ra).setWidth N).signExtend 32
  .done ((s.setReg ra v).withFlags (s.flags.setNZ v))

/-! ### MOV (R161) -/

/-- `MOV Ra, const` (R161). -/
def execMovRegImm (w : Width) (ra : Reg) (c : Word) (s : State) : Result :=
  complete (twoOperand .mov w (.regImm ra c) s)

/-- `MOV Ra, Rb` (R161). -/
def execMovReg2 (w : Width) (ra rb : Reg) (s : State) : Result :=
  complete (twoOperand .mov w (.reg2 ra rb) s)

/-- `MOV Ra, [addr]` (R161). -/
def execMovAbsSrc (w : Width) (ra : Reg) (addr : Word) (s : State) : Result :=
  complete (twoOperand .mov w (.absSrc ra addr) s)

/-- `MOV [addr], Rb` (R161). -/
def execMovAbsDst (w : Width) (addr : Word) (rb : Reg) (s : State) : Result :=
  complete (twoOperand .mov w (.absDst addr rb) s)

/-- `MOV [addr], const` (R161). -/
def execMovAbsConst (w : Width) (addr : Word) (c : Word) (s : State) : Result :=
  complete (twoOperand .mov w (.absConst addr c) s)

/-- `MOV Ra, [Rb]` (R161). -/
def execMovIndSrc (w : Width) (adj : Adjust) (ra rb : Reg) (s : State) : Result :=
  complete (twoOperand .mov w (.indSrc adj ra rb) s)

/-- `MOV [Ra], Rb` (R161). -/
def execMovIndDst (w : Width) (adj : Adjust) (ra rb : Reg) (s : State) : Result :=
  complete (twoOperand .mov w (.indDst adj ra rb) s)

/-- `MOV [Ra], const` (R161). -/
def execMovIndConst (w : Width) (adj : Adjust) (ra : Reg) (c : Word) (s : State) : Result :=
  complete (twoOperand .mov w (.indConst adj ra c) s)

/-- `MOV Ra, [Rb + off]` (R161). -/
def execMovIdxSrc (w : Width) (ra rb : Reg) (off : Word) (s : State) : Result :=
  complete (twoOperand .mov w (.idxSrc ra rb off) s)

/-- `MOV [Ra + off], Rb` (R161). -/
def execMovIdxDst (w : Width) (ra : Reg) (off : Word) (rb : Reg) (s : State) : Result :=
  complete (twoOperand .mov w (.idxDst ra off rb) s)

/-- `MOV [Ra + off], const` (R161). -/
def execMovIdxConst (w : Width) (ra : Reg) (off : Word) (c : Word) (s : State) : Result :=
  complete (twoOperand .mov w (.idxConst ra off c) s)

/-! ### CLR, SXB, SXW -/

/-- `CLR Ra` (R162). -/
def execClr (w : Width) (ra : Reg) (s : State) : Result :=
  complete (clearReg w ra s)

/-- `SXB Ra` (R163). -/
def execSxb (ra : Reg) (s : State) : Result :=
  complete (signExtendReg 8 ra s)

/-- `SXW Ra` (R164). -/
def execSxw (ra : Reg) (s : State) : Result :=
  complete (signExtendReg 16 ra s)

end Sys2Proof.Machine
end

