-- ==== Sys2Proof/Machine/Logic.lean ====
section
/-! DEFINITION. Logic, shifts and rotates: AND, OR, XOR, SHL, SHR, ROL, ROR (spec/43_logic_shift_rotate.md). -/

namespace Sys2Proof.Machine

/-! ### AND (R211) -/

/-- `AND Ra, const` (R211). -/
def execAndRegImm (w : Width) (ra : Reg) (c : Word) (s : State) : Result :=
  complete (twoOperand .and w (.regImm ra c) s)

/-- `AND Ra, Rb` (R211). -/
def execAndReg2 (w : Width) (ra rb : Reg) (s : State) : Result :=
  complete (twoOperand .and w (.reg2 ra rb) s)

/-- `AND Ra, [addr]` (R211). -/
def execAndAbsSrc (w : Width) (ra : Reg) (addr : Word) (s : State) : Result :=
  complete (twoOperand .and w (.absSrc ra addr) s)

/-- `AND [addr], Rb` (R211). -/
def execAndAbsDst (w : Width) (addr : Word) (rb : Reg) (s : State) : Result :=
  complete (twoOperand .and w (.absDst addr rb) s)

/-- `AND [addr], const` (R211). -/
def execAndAbsConst (w : Width) (addr : Word) (c : Word) (s : State) : Result :=
  complete (twoOperand .and w (.absConst addr c) s)

/-- `AND Ra, [Rb]` (R211). -/
def execAndIndSrc (w : Width) (adj : Adjust) (ra rb : Reg) (s : State) : Result :=
  complete (twoOperand .and w (.indSrc adj ra rb) s)

/-- `AND [Ra], Rb` (R211). -/
def execAndIndDst (w : Width) (adj : Adjust) (ra rb : Reg) (s : State) : Result :=
  complete (twoOperand .and w (.indDst adj ra rb) s)

/-- `AND [Ra], const` (R211). -/
def execAndIndConst (w : Width) (adj : Adjust) (ra : Reg) (c : Word) (s : State) : Result :=
  complete (twoOperand .and w (.indConst adj ra c) s)

/-- `AND Ra, [Rb + off]` (R211). -/
def execAndIdxSrc (w : Width) (ra rb : Reg) (off : Word) (s : State) : Result :=
  complete (twoOperand .and w (.idxSrc ra rb off) s)

/-- `AND [Ra + off], Rb` (R211). -/
def execAndIdxDst (w : Width) (ra : Reg) (off : Word) (rb : Reg) (s : State) : Result :=
  complete (twoOperand .and w (.idxDst ra off rb) s)

/-- `AND [Ra + off], const` (R211). -/
def execAndIdxConst (w : Width) (ra : Reg) (off : Word) (c : Word) (s : State) : Result :=
  complete (twoOperand .and w (.idxConst ra off c) s)

/-! ### OR (R212) -/

/-- `OR Ra, const` (R212). -/
def execOrRegImm (w : Width) (ra : Reg) (c : Word) (s : State) : Result :=
  complete (twoOperand .or w (.regImm ra c) s)

/-- `OR Ra, Rb` (R212). -/
def execOrReg2 (w : Width) (ra rb : Reg) (s : State) : Result :=
  complete (twoOperand .or w (.reg2 ra rb) s)

/-- `OR Ra, [addr]` (R212). -/
def execOrAbsSrc (w : Width) (ra : Reg) (addr : Word) (s : State) : Result :=
  complete (twoOperand .or w (.absSrc ra addr) s)

/-- `OR [addr], Rb` (R212). -/
def execOrAbsDst (w : Width) (addr : Word) (rb : Reg) (s : State) : Result :=
  complete (twoOperand .or w (.absDst addr rb) s)

/-- `OR [addr], const` (R212). -/
def execOrAbsConst (w : Width) (addr : Word) (c : Word) (s : State) : Result :=
  complete (twoOperand .or w (.absConst addr c) s)

/-- `OR Ra, [Rb]` (R212). -/
def execOrIndSrc (w : Width) (adj : Adjust) (ra rb : Reg) (s : State) : Result :=
  complete (twoOperand .or w (.indSrc adj ra rb) s)

/-- `OR [Ra], Rb` (R212). -/
def execOrIndDst (w : Width) (adj : Adjust) (ra rb : Reg) (s : State) : Result :=
  complete (twoOperand .or w (.indDst adj ra rb) s)

/-- `OR [Ra], const` (R212). -/
def execOrIndConst (w : Width) (adj : Adjust) (ra : Reg) (c : Word) (s : State) : Result :=
  complete (twoOperand .or w (.indConst adj ra c) s)

/-- `OR Ra, [Rb + off]` (R212). -/
def execOrIdxSrc (w : Width) (ra rb : Reg) (off : Word) (s : State) : Result :=
  complete (twoOperand .or w (.idxSrc ra rb off) s)

/-- `OR [Ra + off], Rb` (R212). -/
def execOrIdxDst (w : Width) (ra : Reg) (off : Word) (rb : Reg) (s : State) : Result :=
  complete (twoOperand .or w (.idxDst ra off rb) s)

/-- `OR [Ra + off], const` (R212). -/
def execOrIdxConst (w : Width) (ra : Reg) (off : Word) (c : Word) (s : State) : Result :=
  complete (twoOperand .or w (.idxConst ra off c) s)

/-! ### XOR (R213) -/

/-- `XOR Ra, const` (R213). -/
def execXorRegImm (w : Width) (ra : Reg) (c : Word) (s : State) : Result :=
  complete (twoOperand .xor w (.regImm ra c) s)

/-- `XOR Ra, Rb` (R213). -/
def execXorReg2 (w : Width) (ra rb : Reg) (s : State) : Result :=
  complete (twoOperand .xor w (.reg2 ra rb) s)

/-- `XOR Ra, [addr]` (R213). -/
def execXorAbsSrc (w : Width) (ra : Reg) (addr : Word) (s : State) : Result :=
  complete (twoOperand .xor w (.absSrc ra addr) s)

/-- `XOR [addr], Rb` (R213). -/
def execXorAbsDst (w : Width) (addr : Word) (rb : Reg) (s : State) : Result :=
  complete (twoOperand .xor w (.absDst addr rb) s)

/-- `XOR [addr], const` (R213). -/
def execXorAbsConst (w : Width) (addr : Word) (c : Word) (s : State) : Result :=
  complete (twoOperand .xor w (.absConst addr c) s)

/-- `XOR Ra, [Rb]` (R213). -/
def execXorIndSrc (w : Width) (adj : Adjust) (ra rb : Reg) (s : State) : Result :=
  complete (twoOperand .xor w (.indSrc adj ra rb) s)

/-- `XOR [Ra], Rb` (R213). -/
def execXorIndDst (w : Width) (adj : Adjust) (ra rb : Reg) (s : State) : Result :=
  complete (twoOperand .xor w (.indDst adj ra rb) s)

/-- `XOR [Ra], const` (R213). -/
def execXorIndConst (w : Width) (adj : Adjust) (ra : Reg) (c : Word) (s : State) : Result :=
  complete (twoOperand .xor w (.indConst adj ra c) s)

/-- `XOR Ra, [Rb + off]` (R213). -/
def execXorIdxSrc (w : Width) (ra rb : Reg) (off : Word) (s : State) : Result :=
  complete (twoOperand .xor w (.idxSrc ra rb off) s)

/-- `XOR [Ra + off], Rb` (R213). -/
def execXorIdxDst (w : Width) (ra : Reg) (off : Word) (rb : Reg) (s : State) : Result :=
  complete (twoOperand .xor w (.idxDst ra off rb) s)

/-- `XOR [Ra + off], const` (R213). -/
def execXorIdxConst (w : Width) (ra : Reg) (off : Word) (c : Word) (s : State) : Result :=
  complete (twoOperand .xor w (.idxConst ra off c) s)

/-! ### SHL (R215) -/

/-- `SHL Ra, const` (R215). -/
def execShlRegImm (w : Width) (ra : Reg) (c : Word) (s : State) : Result :=
  complete (twoOperand .shl w (.regImm ra c) s)

/-- `SHL Ra, Rb` (R215). -/
def execShlReg2 (w : Width) (ra rb : Reg) (s : State) : Result :=
  complete (twoOperand .shl w (.reg2 ra rb) s)

/-- `SHL Ra, [addr]` (R215). -/
def execShlAbsSrc (w : Width) (ra : Reg) (addr : Word) (s : State) : Result :=
  complete (twoOperand .shl w (.absSrc ra addr) s)

/-- `SHL [addr], Rb` (R215). -/
def execShlAbsDst (w : Width) (addr : Word) (rb : Reg) (s : State) : Result :=
  complete (twoOperand .shl w (.absDst addr rb) s)

/-- `SHL [addr], const` (R215). -/
def execShlAbsConst (w : Width) (addr : Word) (c : Word) (s : State) : Result :=
  complete (twoOperand .shl w (.absConst addr c) s)

/-- `SHL Ra, [Rb]` (R215). -/
def execShlIndSrc (w : Width) (adj : Adjust) (ra rb : Reg) (s : State) : Result :=
  complete (twoOperand .shl w (.indSrc adj ra rb) s)

/-- `SHL [Ra], Rb` (R215). -/
def execShlIndDst (w : Width) (adj : Adjust) (ra rb : Reg) (s : State) : Result :=
  complete (twoOperand .shl w (.indDst adj ra rb) s)

/-- `SHL [Ra], const` (R215). -/
def execShlIndConst (w : Width) (adj : Adjust) (ra : Reg) (c : Word) (s : State) : Result :=
  complete (twoOperand .shl w (.indConst adj ra c) s)

/-- `SHL Ra, [Rb + off]` (R215). -/
def execShlIdxSrc (w : Width) (ra rb : Reg) (off : Word) (s : State) : Result :=
  complete (twoOperand .shl w (.idxSrc ra rb off) s)

/-- `SHL [Ra + off], Rb` (R215). -/
def execShlIdxDst (w : Width) (ra : Reg) (off : Word) (rb : Reg) (s : State) : Result :=
  complete (twoOperand .shl w (.idxDst ra off rb) s)

/-- `SHL [Ra + off], const` (R215). -/
def execShlIdxConst (w : Width) (ra : Reg) (off : Word) (c : Word) (s : State) : Result :=
  complete (twoOperand .shl w (.idxConst ra off c) s)

/-! ### SHR (R216) -/

/-- `SHR Ra, const` (R216). -/
def execShrRegImm (w : Width) (ra : Reg) (c : Word) (s : State) : Result :=
  complete (twoOperand .shr w (.regImm ra c) s)

/-- `SHR Ra, Rb` (R216). -/
def execShrReg2 (w : Width) (ra rb : Reg) (s : State) : Result :=
  complete (twoOperand .shr w (.reg2 ra rb) s)

/-- `SHR Ra, [addr]` (R216). -/
def execShrAbsSrc (w : Width) (ra : Reg) (addr : Word) (s : State) : Result :=
  complete (twoOperand .shr w (.absSrc ra addr) s)

/-- `SHR [addr], Rb` (R216). -/
def execShrAbsDst (w : Width) (addr : Word) (rb : Reg) (s : State) : Result :=
  complete (twoOperand .shr w (.absDst addr rb) s)

/-- `SHR [addr], const` (R216). -/
def execShrAbsConst (w : Width) (addr : Word) (c : Word) (s : State) : Result :=
  complete (twoOperand .shr w (.absConst addr c) s)

/-- `SHR Ra, [Rb]` (R216). -/
def execShrIndSrc (w : Width) (adj : Adjust) (ra rb : Reg) (s : State) : Result :=
  complete (twoOperand .shr w (.indSrc adj ra rb) s)

/-- `SHR [Ra], Rb` (R216). -/
def execShrIndDst (w : Width) (adj : Adjust) (ra rb : Reg) (s : State) : Result :=
  complete (twoOperand .shr w (.indDst adj ra rb) s)

/-- `SHR [Ra], const` (R216). -/
def execShrIndConst (w : Width) (adj : Adjust) (ra : Reg) (c : Word) (s : State) : Result :=
  complete (twoOperand .shr w (.indConst adj ra c) s)

/-- `SHR Ra, [Rb + off]` (R216). -/
def execShrIdxSrc (w : Width) (ra rb : Reg) (off : Word) (s : State) : Result :=
  complete (twoOperand .shr w (.idxSrc ra rb off) s)

/-- `SHR [Ra + off], Rb` (R216). -/
def execShrIdxDst (w : Width) (ra : Reg) (off : Word) (rb : Reg) (s : State) : Result :=
  complete (twoOperand .shr w (.idxDst ra off rb) s)

/-- `SHR [Ra + off], const` (R216). -/
def execShrIdxConst (w : Width) (ra : Reg) (off : Word) (c : Word) (s : State) : Result :=
  complete (twoOperand .shr w (.idxConst ra off c) s)

/-! ### ROL (R217) -/

/-- `ROL Ra, const` (R217). -/
def execRolRegImm (w : Width) (ra : Reg) (c : Word) (s : State) : Result :=
  complete (twoOperand .rol w (.regImm ra c) s)

/-- `ROL Ra, Rb` (R217). -/
def execRolReg2 (w : Width) (ra rb : Reg) (s : State) : Result :=
  complete (twoOperand .rol w (.reg2 ra rb) s)

/-- `ROL Ra, [addr]` (R217). -/
def execRolAbsSrc (w : Width) (ra : Reg) (addr : Word) (s : State) : Result :=
  complete (twoOperand .rol w (.absSrc ra addr) s)

/-- `ROL [addr], Rb` (R217). -/
def execRolAbsDst (w : Width) (addr : Word) (rb : Reg) (s : State) : Result :=
  complete (twoOperand .rol w (.absDst addr rb) s)

/-- `ROL [addr], const` (R217). -/
def execRolAbsConst (w : Width) (addr : Word) (c : Word) (s : State) : Result :=
  complete (twoOperand .rol w (.absConst addr c) s)

/-- `ROL Ra, [Rb]` (R217). -/
def execRolIndSrc (w : Width) (adj : Adjust) (ra rb : Reg) (s : State) : Result :=
  complete (twoOperand .rol w (.indSrc adj ra rb) s)

/-- `ROL [Ra], Rb` (R217). -/
def execRolIndDst (w : Width) (adj : Adjust) (ra rb : Reg) (s : State) : Result :=
  complete (twoOperand .rol w (.indDst adj ra rb) s)

/-- `ROL [Ra], const` (R217). -/
def execRolIndConst (w : Width) (adj : Adjust) (ra : Reg) (c : Word) (s : State) : Result :=
  complete (twoOperand .rol w (.indConst adj ra c) s)

/-- `ROL Ra, [Rb + off]` (R217). -/
def execRolIdxSrc (w : Width) (ra rb : Reg) (off : Word) (s : State) : Result :=
  complete (twoOperand .rol w (.idxSrc ra rb off) s)

/-- `ROL [Ra + off], Rb` (R217). -/
def execRolIdxDst (w : Width) (ra : Reg) (off : Word) (rb : Reg) (s : State) : Result :=
  complete (twoOperand .rol w (.idxDst ra off rb) s)

/-- `ROL [Ra + off], const` (R217). -/
def execRolIdxConst (w : Width) (ra : Reg) (off : Word) (c : Word) (s : State) : Result :=
  complete (twoOperand .rol w (.idxConst ra off c) s)

/-! ### ROR (R218) -/

/-- `ROR Ra, const` (R218). -/
def execRorRegImm (w : Width) (ra : Reg) (c : Word) (s : State) : Result :=
  complete (twoOperand .ror w (.regImm ra c) s)

/-- `ROR Ra, Rb` (R218). -/
def execRorReg2 (w : Width) (ra rb : Reg) (s : State) : Result :=
  complete (twoOperand .ror w (.reg2 ra rb) s)

/-- `ROR Ra, [addr]` (R218). -/
def execRorAbsSrc (w : Width) (ra : Reg) (addr : Word) (s : State) : Result :=
  complete (twoOperand .ror w (.absSrc ra addr) s)

/-- `ROR [addr], Rb` (R218). -/
def execRorAbsDst (w : Width) (addr : Word) (rb : Reg) (s : State) : Result :=
  complete (twoOperand .ror w (.absDst addr rb) s)

/-- `ROR [addr], const` (R218). -/
def execRorAbsConst (w : Width) (addr : Word) (c : Word) (s : State) : Result :=
  complete (twoOperand .ror w (.absConst addr c) s)

/-- `ROR Ra, [Rb]` (R218). -/
def execRorIndSrc (w : Width) (adj : Adjust) (ra rb : Reg) (s : State) : Result :=
  complete (twoOperand .ror w (.indSrc adj ra rb) s)

/-- `ROR [Ra], Rb` (R218). -/
def execRorIndDst (w : Width) (adj : Adjust) (ra rb : Reg) (s : State) : Result :=
  complete (twoOperand .ror w (.indDst adj ra rb) s)

/-- `ROR [Ra], const` (R218). -/
def execRorIndConst (w : Width) (adj : Adjust) (ra : Reg) (c : Word) (s : State) : Result :=
  complete (twoOperand .ror w (.indConst adj ra c) s)

/-- `ROR Ra, [Rb + off]` (R218). -/
def execRorIdxSrc (w : Width) (ra rb : Reg) (off : Word) (s : State) : Result :=
  complete (twoOperand .ror w (.idxSrc ra rb off) s)

/-- `ROR [Ra + off], Rb` (R218). -/
def execRorIdxDst (w : Width) (ra : Reg) (off : Word) (rb : Reg) (s : State) : Result :=
  complete (twoOperand .ror w (.idxDst ra off rb) s)

/-- `ROR [Ra + off], const` (R218). -/
def execRorIdxConst (w : Width) (ra : Reg) (off : Word) (c : Word) (s : State) : Result :=
  complete (twoOperand .ror w (.idxConst ra off c) s)

end Sys2Proof.Machine
end

