-- ==== Sys2Proof/Machine/Stack.lean ====
section
/-! DEFINITION. The stack instructions: PUSH, POP, PUSHA, POPA (spec/44_stack.md). -/

namespace Sys2Proof.Machine

/-- PUSH of a register; it is read before `sp` moves (R232). -/
def pushReg (w : Width) (ra : Reg) (s : State) : Micro :=
  push w.bytes (s.regRead ra w).toNat s

/-- PUSH of a constant (R232). -/
def pushConst (w : Width) (c : Word) (s : State) : Micro :=
  push w.bytes (constAt w c).toNat s

/-- POP into a register; it is written after `sp` has moved (R233). -/
def popReg (w : Width) (ra : Reg) (s : State) : Micro :=
  match pop w.bytes s with
  | .ok (v, s1) => .done (s1.regWrite ra w (BitVec.ofNat w.bits v))
  | .error e => .raised e s

/-- Registers 0 to 13, in ascending order (R234). -/
def dataRegs : List Reg := [0, 1, 2, 3, 4, 5, 6, 7, 8, 9, 10, 11, 12, 13]

/-- A list of registers pushed in order; a fault keeps the pushes before it (R234). -/
def pushRegs (w : Width) : List Reg → State → Micro
  | [], s => .done s
  | i :: rest, s => (pushReg w i s).andThen (pushRegs w rest)

/-- A list of registers popped in order; a fault keeps the pops before it (R235). -/
def popRegs (w : Width) : List Reg → State → Micro
  | [], s => .done s
  | i :: rest, s => (popReg w i s).andThen (popRegs w rest)

/-- PUSHA: registers 0 to 13, register 0 first (R234). -/
def pushAll (w : Width) (s : State) : Micro := pushRegs w dataRegs s

/-- POPA: registers 13 to 0, register 13 first (R235). -/
def popAll (w : Width) (s : State) : Micro := popRegs w dataRegs.reverse s

/-- `PUSH const` (R232). -/
def execPushConst (w : Width) (c : Word) (s : State) : Result :=
  complete (pushConst w c s)

/-- `PUSH Ra` (R232). -/
def execPushReg (w : Width) (ra : Reg) (s : State) : Result :=
  complete (pushReg w ra s)

/-- `POP Ra` (R233). -/
def execPop (w : Width) (ra : Reg) (s : State) : Result :=
  complete (popReg w ra s)

/-- `PUSHA` (R234). -/
def execPusha (w : Width) (s : State) : Result :=
  complete (pushAll w s)

/-- `POPA` (R235). -/
def execPopa (w : Width) (s : State) : Result :=
  complete (popAll w s)

end Sys2Proof.Machine
end

