-- ==== Sys2Proof/Machine/System.lean ====
section
/-! DEFINITION. The system instructions: BRK, RTI, SYS, SLP, NOP and the flag instructions (spec/46_system.md). -/

namespace Sys2Proof.Machine

/-- BRK: the frame pushed, Break set, `pc` from the software-IRQ slot (R280). -/
def softwareInterrupt (s : State) : Micro :=
  (pushFrame s).andThen fun s1 =>
    loadVector vecSwIrq (s1.withFlags { s1.flags with b := true })

/-- Single-byte port writes of the host; one outside the bank is reported to the host and changes nothing
(R283, R352). -/
def hostWrites : List (Nat × Byte) → Memory → Memory
  | [], m => m
  | (a, b) :: rest, m => hostWrites rest (if a < m.cap then m.setByte a b else m)

/-- SYS: the registered callback may write any byte of the bank and nothing else; with none registered
nothing happens (R282, R283). What it writes is a free value (assumption log 2). -/
def systemCall (id : BitVec 16) (addr : Word) (s : State) : Micro :=
  match s.callback with
  | none => .done s
  | some k =>
    .done { s with
      mem := hostWrites (Config.syscallWrites k s.syscalls id addr s.mem.cells) s.mem
      syscalls := s.syscalls + 1 }

/-- `BRK` (R280). -/
def execBrk (s : State) : Result :=
  complete (softwareInterrupt s)

/-- `RTI` (R281). -/
def execRti (s : State) : Result :=
  complete (leaveInterrupt s)

/-- `SYS id, addr` (R282). -/
def execSys (id : BitVec 16) (addr : Word) (s : State) : Result :=
  complete (systemCall id addr s)

/-- `SLP`: the sleep latch is set (R285). -/
def execSlp (s : State) : Result :=
  complete (.done (s.withAsleep true))

/-- `NOP`: nothing but the advance of `pc` (R286). -/
def execNop (s : State) : Result :=
  complete (.done s)

/-- `SEC` (R287). -/
def execSec (s : State) : Result :=
  complete (.done (s.withFlags { s.flags with c := true }))

/-- `CLC` (R288). -/
def execClc (s : State) : Result :=
  complete (.done (s.withFlags { s.flags with c := false }))

/-- `SEI` (R289). -/
def execSei (s : State) : Result :=
  complete (.done (s.withFlags { s.flags with i := true }))

/-- `CLI` (R290). -/
def execCli (s : State) : Result :=
  complete (.done (s.withFlags { s.flags with i := false }))

/-- `SEV` (R291). -/
def execSev (s : State) : Result :=
  complete (.done (s.withFlags { s.flags with v := true }))

/-- `CLV` (R292). -/
def execClv (s : State) : Result :=
  complete (.done (s.withFlags { s.flags with v := false }))

end Sys2Proof.Machine
end

