-- ==== Sys2Proof/Machine/Dispatch.lean ====
section
/-! DEFINITION. `exec`: one arm per instruction, each one call of its meaning. -/

namespace Sys2Proof.Machine

/-- What an instruction does once it is decoded and `pc` addresses the next instruction (R120). -/
def exec (i : Instr) (s : State) : Host.Outcome State Fault Refusal :=
  match i with
  | .movRegImm w ra c => Sys2Proof.Machine.execMovRegImm w ra c s
  | .movReg2 w ra rb => Sys2Proof.Machine.execMovReg2 w ra rb s
  | .movAbsSrc w ra addr => Sys2Proof.Machine.execMovAbsSrc w ra addr s
  | .movAbsDst w addr rb => Sys2Proof.Machine.execMovAbsDst w addr rb s
  | .movAbsConst w addr c => Sys2Proof.Machine.execMovAbsConst w addr c s
  | .movIndSrc w adj ra rb => Sys2Proof.Machine.execMovIndSrc w adj ra rb s
  | .movIndDst w adj ra rb => Sys2Proof.Machine.execMovIndDst w adj ra rb s
  | .movIndConst w adj ra c => Sys2Proof.Machine.execMovIndConst w adj ra c s
  | .movIdxSrc w ra rb off => Sys2Proof.Machine.execMovIdxSrc w ra rb off s
  | .movIdxDst w ra off rb => Sys2Proof.Machine.execMovIdxDst w ra off rb s
  | .movIdxConst w ra off c => Sys2Proof.Machine.execMovIdxConst w ra off c s
  | .clr w ra => Sys2Proof.Machine.execClr w ra s
  | .addRegImm w ra c => Sys2Proof.Machine.execAddRegImm w ra c s
  | .addReg2 w ra rb => Sys2Proof.Machine.execAddReg2 w ra rb s
  | .addAbsSrc w ra addr => Sys2Proof.Machine.execAddAbsSrc w ra addr s
  | .addAbsDst w addr rb => Sys2Proof.Machine.execAddAbsDst w addr rb s
  | .addAbsConst w addr c => Sys2Proof.Machine.execAddAbsConst w addr c s
  | .addIndSrc w adj ra rb => Sys2Proof.Machine.execAddIndSrc w adj ra rb s
  | .addIndDst w adj ra rb => Sys2Proof.Machine.execAddIndDst w adj ra rb s
  | .addIndConst w adj ra c => Sys2Proof.Machine.execAddIndConst w adj ra c s
  | .addIdxSrc w ra rb off => Sys2Proof.Machine.execAddIdxSrc w ra rb off s
  | .addIdxDst w ra off rb => Sys2Proof.Machine.execAddIdxDst w ra off rb s
  | .addIdxConst w ra off c => Sys2Proof.Machine.execAddIdxConst w ra off c s
  | .subRegImm w ra c => Sys2Proof.Machine.execSubRegImm w ra c s
  | .subReg2 w ra rb => Sys2Proof.Machine.execSubReg2 w ra rb s
  | .subAbsSrc w ra addr => Sys2Proof.Machine.execSubAbsSrc w ra addr s
  | .subAbsDst w addr rb => Sys2Proof.Machine.execSubAbsDst w addr rb s
  | .subAbsConst w addr c => Sys2Proof.Machine.execSubAbsConst w addr c s
  | .subIndSrc w adj ra rb => Sys2Proof.Machine.execSubIndSrc w adj ra rb s
  | .subIndDst w adj ra rb => Sys2Proof.Machine.execSubIndDst w adj ra rb s
  | .subIndConst w adj ra c => Sys2Proof.Machine.execSubIndConst w adj ra c s
  | .subIdxSrc w ra rb off => Sys2Proof.Machine.execSubIdxSrc w ra rb off s
  | .subIdxDst w ra off rb => Sys2Proof.Machine.execSubIdxDst w ra off rb s
  | .subIdxConst w ra off c => Sys2Proof.Machine.execSubIdxConst w ra off c s
  | .adcRegImm w ra c => Sys2Proof.Machine.execAdcRegImm w ra c s
  | .adcReg2 w ra rb => Sys2Proof.Machine.execAdcReg2 w ra rb s
  | .adcAbsSrc w ra addr => Sys2Proof.Machine.execAdcAbsSrc w ra addr s
  | .adcAbsDst w addr rb => Sys2Proof.Machine.execAdcAbsDst w addr rb s
  | .adcAbsConst w addr c => Sys2Proof.Machine.execAdcAbsConst w addr c s
  | .adcIndSrc w adj ra rb => Sys2Proof.Machine.execAdcIndSrc w adj ra rb s
  | .adcIndDst w adj ra rb => Sys2Proof.Machine.execAdcIndDst w adj ra rb s
  | .adcIndConst w adj ra c => Sys2Proof.Machine.execAdcIndConst w adj ra c s
  | .adcIdxSrc w ra rb off => Sys2Proof.Machine.execAdcIdxSrc w ra rb off s
  | .adcIdxDst w ra off rb => Sys2Proof.Machine.execAdcIdxDst w ra off rb s
  | .adcIdxConst w ra off c => Sys2Proof.Machine.execAdcIdxConst w ra off c s
  | .sbcRegImm w ra c => Sys2Proof.Machine.execSbcRegImm w ra c s
  | .sbcReg2 w ra rb => Sys2Proof.Machine.execSbcReg2 w ra rb s
  | .sbcAbsSrc w ra addr => Sys2Proof.Machine.execSbcAbsSrc w ra addr s
  | .sbcAbsDst w addr rb => Sys2Proof.Machine.execSbcAbsDst w addr rb s
  | .sbcAbsConst w addr c => Sys2Proof.Machine.execSbcAbsConst w addr c s
  | .sbcIndSrc w adj ra rb => Sys2Proof.Machine.execSbcIndSrc w adj ra rb s
  | .sbcIndDst w adj ra rb => Sys2Proof.Machine.execSbcIndDst w adj ra rb s
  | .sbcIndConst w adj ra c => Sys2Proof.Machine.execSbcIndConst w adj ra c s
  | .sbcIdxSrc w ra rb off => Sys2Proof.Machine.execSbcIdxSrc w ra rb off s
  | .sbcIdxDst w ra off rb => Sys2Proof.Machine.execSbcIdxDst w ra off rb s
  | .sbcIdxConst w ra off c => Sys2Proof.Machine.execSbcIdxConst w ra off c s
  | .andRegImm w ra c => Sys2Proof.Machine.execAndRegImm w ra c s
  | .andReg2 w ra rb => Sys2Proof.Machine.execAndReg2 w ra rb s
  | .andAbsSrc w ra addr => Sys2Proof.Machine.execAndAbsSrc w ra addr s
  | .andAbsDst w addr rb => Sys2Proof.Machine.execAndAbsDst w addr rb s
  | .andAbsConst w addr c => Sys2Proof.Machine.execAndAbsConst w addr c s
  | .andIndSrc w adj ra rb => Sys2Proof.Machine.execAndIndSrc w adj ra rb s
  | .andIndDst w adj ra rb => Sys2Proof.Machine.execAndIndDst w adj ra rb s
  | .andIndConst w adj ra c => Sys2Proof.Machine.execAndIndConst w adj ra c s
  | .andIdxSrc w ra rb off => Sys2Proof.Machine.execAndIdxSrc w ra rb off s
  | .andIdxDst w ra off rb => Sys2Proof.Machine.execAndIdxDst w ra off rb s
  | .andIdxConst w ra off c => Sys2Proof.Machine.execAndIdxConst w ra off c s
  | .orRegImm w ra c => Sys2Proof.Machine.execOrRegImm w ra c s
  | .orReg2 w ra rb => Sys2Proof.Machine.execOrReg2 w ra rb s
  | .orAbsSrc w ra addr => Sys2Proof.Machine.execOrAbsSrc w ra addr s
  | .orAbsDst w addr rb => Sys2Proof.Machine.execOrAbsDst w addr rb s
  | .orAbsConst w addr c => Sys2Proof.Machine.execOrAbsConst w addr c s
  | .orIndSrc w adj ra rb => Sys2Proof.Machine.execOrIndSrc w adj ra rb s
  | .orIndDst w adj ra rb => Sys2Proof.Machine.execOrIndDst w adj ra rb s
  | .orIndConst w adj ra c => Sys2Proof.Machine.execOrIndConst w adj ra c s
  | .orIdxSrc w ra rb off => Sys2Proof.Machine.execOrIdxSrc w ra rb off s
  | .orIdxDst w ra off rb => Sys2Proof.Machine.execOrIdxDst w ra off rb s
  | .orIdxConst w ra off c => Sys2Proof.Machine.execOrIdxConst w ra off c s
  | .xorRegImm w ra c => Sys2Proof.Machine.execXorRegImm w ra c s
  | .xorReg2 w ra rb => Sys2Proof.Machine.execXorReg2 w ra rb s
  | .xorAbsSrc w ra addr => Sys2Proof.Machine.execXorAbsSrc w ra addr s
  | .xorAbsDst w addr rb => Sys2Proof.Machine.execXorAbsDst w addr rb s
  | .xorAbsConst w addr c => Sys2Proof.Machine.execXorAbsConst w addr c s
  | .xorIndSrc w adj ra rb => Sys2Proof.Machine.execXorIndSrc w adj ra rb s
  | .xorIndDst w adj ra rb => Sys2Proof.Machine.execXorIndDst w adj ra rb s
  | .xorIndConst w adj ra c => Sys2Proof.Machine.execXorIndConst w adj ra c s
  | .xorIdxSrc w ra rb off => Sys2Proof.Machine.execXorIdxSrc w ra rb off s
  | .xorIdxDst w ra off rb => Sys2Proof.Machine.execXorIdxDst w ra off rb s
  | .xorIdxConst w ra off c => Sys2Proof.Machine.execXorIdxConst w ra off c s
  | .mulRegImm w ra c => Sys2Proof.Machine.execMulRegImm w ra c s
  | .mulReg2 w ra rb => Sys2Proof.Machine.execMulReg2 w ra rb s
  | .mulAbsSrc w ra addr => Sys2Proof.Machine.execMulAbsSrc w ra addr s
  | .mulAbsDst w addr rb => Sys2Proof.Machine.execMulAbsDst w addr rb s
  | .mulAbsConst w addr c => Sys2Proof.Machine.execMulAbsConst w addr c s
  | .mulIndSrc w adj ra rb => Sys2Proof.Machine.execMulIndSrc w adj ra rb s
  | .mulIndDst w adj ra rb => Sys2Proof.Machine.execMulIndDst w adj ra rb s
  | .mulIndConst w adj ra c => Sys2Proof.Machine.execMulIndConst w adj ra c s
  | .mulIdxSrc w ra rb off => Sys2Proof.Machine.execMulIdxSrc w ra rb off s
  | .mulIdxDst w ra off rb => Sys2Proof.Machine.execMulIdxDst w ra off rb s
  | .mulIdxConst w ra off c => Sys2Proof.Machine.execMulIdxConst w ra off c s
  | .divRegImm w ra c => Sys2Proof.Machine.execDivRegImm w ra c s
  | .divReg2 w ra rb => Sys2Proof.Machine.execDivReg2 w ra rb s
  | .divAbsSrc w ra addr => Sys2Proof.Machine.execDivAbsSrc w ra addr s
  | .divAbsDst w addr rb => Sys2Proof.Machine.execDivAbsDst w addr rb s
  | .divAbsConst w addr c => Sys2Proof.Machine.execDivAbsConst w addr c s
  | .divIndSrc w adj ra rb => Sys2Proof.Machine.execDivIndSrc w adj ra rb s
  | .divIndDst w adj ra rb => Sys2Proof.Machine.execDivIndDst w adj ra rb s
  | .divIndConst w adj ra c => Sys2Proof.Machine.execDivIndConst w adj ra c s
  | .divIdxSrc w ra rb off => Sys2Proof.Machine.execDivIdxSrc w ra rb off s
  | .divIdxDst w ra off rb => Sys2Proof.Machine.execDivIdxDst w ra off rb s
  | .divIdxConst w ra off c => Sys2Proof.Machine.execDivIdxConst w ra off c s
  | .shlRegImm w ra c => Sys2Proof.Machine.execShlRegImm w ra c s
  | .shlReg2 w ra rb => Sys2Proof.Machine.execShlReg2 w ra rb s
  | .shlAbsSrc w ra addr => Sys2Proof.Machine.execShlAbsSrc w ra addr s
  | .shlAbsDst w addr rb => Sys2Proof.Machine.execShlAbsDst w addr rb s
  | .shlAbsConst w addr c => Sys2Proof.Machine.execShlAbsConst w addr c s
  | .shlIndSrc w adj ra rb => Sys2Proof.Machine.execShlIndSrc w adj ra rb s
  | .shlIndDst w adj ra rb => Sys2Proof.Machine.execShlIndDst w adj ra rb s
  | .shlIndConst w adj ra c => Sys2Proof.Machine.execShlIndConst w adj ra c s
  | .shlIdxSrc w ra rb off => Sys2Proof.Machine.execShlIdxSrc w ra rb off s
  | .shlIdxDst w ra off rb => Sys2Proof.Machine.execShlIdxDst w ra off rb s
  | .shlIdxConst w ra off c => Sys2Proof.Machine.execShlIdxConst w ra off c s
  | .shrRegImm w ra c => Sys2Proof.Machine.execShrRegImm w ra c s
  | .shrReg2 w ra rb => Sys2Proof.Machine.execShrReg2 w ra rb s
  | .shrAbsSrc w ra addr => Sys2Proof.Machine.execShrAbsSrc w ra addr s
  | .shrAbsDst w addr rb => Sys2Proof.Machine.execShrAbsDst w addr rb s
  | .shrAbsConst w addr c => Sys2Proof.Machine.execShrAbsConst w addr c s
  | .shrIndSrc w adj ra rb => Sys2Proof.Machine.execShrIndSrc w adj ra rb s
  | .shrIndDst w adj ra rb => Sys2Proof.Machine.execShrIndDst w adj ra rb s
  | .shrIndConst w adj ra c => Sys2Proof.Machine.execShrIndConst w adj ra c s
  | .shrIdxSrc w ra rb off => Sys2Proof.Machine.execShrIdxSrc w ra rb off s
  | .shrIdxDst w ra off rb => Sys2Proof.Machine.execShrIdxDst w ra off rb s
  | .shrIdxConst w ra off c => Sys2Proof.Machine.execShrIdxConst w ra off c s
  | .rolRegImm w ra c => Sys2Proof.Machine.execRolRegImm w ra c s
  | .rolReg2 w ra rb => Sys2Proof.Machine.execRolReg2 w ra rb s
  | .rolAbsSrc w ra addr => Sys2Proof.Machine.execRolAbsSrc w ra addr s
  | .rolAbsDst w addr rb => Sys2Proof.Machine.execRolAbsDst w addr rb s
  | .rolAbsConst w addr c => Sys2Proof.Machine.execRolAbsConst w addr c s
  | .rolIndSrc w adj ra rb => Sys2Proof.Machine.execRolIndSrc w adj ra rb s
  | .rolIndDst w adj ra rb => Sys2Proof.Machine.execRolIndDst w adj ra rb s
  | .rolIndConst w adj ra c => Sys2Proof.Machine.execRolIndConst w adj ra c s
  | .rolIdxSrc w ra rb off => Sys2Proof.Machine.execRolIdxSrc w ra rb off s
  | .rolIdxDst w ra off rb => Sys2Proof.Machine.execRolIdxDst w ra off rb s
  | .rolIdxConst w ra off c => Sys2Proof.Machine.execRolIdxConst w ra off c s
  | .rorRegImm w ra c => Sys2Proof.Machine.execRorRegImm w ra c s
  | .rorReg2 w ra rb => Sys2Proof.Machine.execRorReg2 w ra rb s
  | .rorAbsSrc w ra addr => Sys2Proof.Machine.execRorAbsSrc w ra addr s
  | .rorAbsDst w addr rb => Sys2Proof.Machine.execRorAbsDst w addr rb s
  | .rorAbsConst w addr c => Sys2Proof.Machine.execRorAbsConst w addr c s
  | .rorIndSrc w adj ra rb => Sys2Proof.Machine.execRorIndSrc w adj ra rb s
  | .rorIndDst w adj ra rb => Sys2Proof.Machine.execRorIndDst w adj ra rb s
  | .rorIndConst w adj ra c => Sys2Proof.Machine.execRorIndConst w adj ra c s
  | .rorIdxSrc w ra rb off => Sys2Proof.Machine.execRorIdxSrc w ra rb off s
  | .rorIdxDst w ra off rb => Sys2Proof.Machine.execRorIdxDst w ra off rb s
  | .rorIdxConst w ra off c => Sys2Proof.Machine.execRorIdxConst w ra off c s
  | .cmpRegImm w ra c => Sys2Proof.Machine.execCmpRegImm w ra c s
  | .cmpReg2 w ra rb => Sys2Proof.Machine.execCmpReg2 w ra rb s
  | .cmpAbsSrc w ra addr => Sys2Proof.Machine.execCmpAbsSrc w ra addr s
  | .cmpAbsDst w addr rb => Sys2Proof.Machine.execCmpAbsDst w addr rb s
  | .cmpAbsConst w addr c => Sys2Proof.Machine.execCmpAbsConst w addr c s
  | .cmpIndSrc w adj ra rb => Sys2Proof.Machine.execCmpIndSrc w adj ra rb s
  | .cmpIndDst w adj ra rb => Sys2Proof.Machine.execCmpIndDst w adj ra rb s
  | .cmpIndConst w adj ra c => Sys2Proof.Machine.execCmpIndConst w adj ra c s
  | .cmpIdxSrc w ra rb off => Sys2Proof.Machine.execCmpIdxSrc w ra rb off s
  | .cmpIdxDst w ra off rb => Sys2Proof.Machine.execCmpIdxDst w ra off rb s
  | .cmpIdxConst w ra off c => Sys2Proof.Machine.execCmpIdxConst w ra off c s
  | .inc w ra => Sys2Proof.Machine.execInc w ra s
  | .dec w ra => Sys2Proof.Machine.execDec w ra s
  | .sxb ra => Sys2Proof.Machine.execSxb ra s
  | .sxw ra => Sys2Proof.Machine.execSxw ra s
  | .pushConst w c => Sys2Proof.Machine.execPushConst w c s
  | .pushReg w ra => Sys2Proof.Machine.execPushReg w ra s
  | .pop w ra => Sys2Proof.Machine.execPop w ra s
  | .pusha w => Sys2Proof.Machine.execPusha w s
  | .popa w => Sys2Proof.Machine.execPopa w s
  | .jsr addr => Sys2Proof.Machine.execJsr addr s
  | .rts => Sys2Proof.Machine.execRts s
  | .brk => Sys2Proof.Machine.execBrk s
  | .rti => Sys2Proof.Machine.execRti s
  | .sys id addr => Sys2Proof.Machine.execSys id addr s
  | .slp => Sys2Proof.Machine.execSlp s
  | .jmp addr => Sys2Proof.Machine.execJmp addr s
  | .nop => Sys2Proof.Machine.execNop s
  | .bra w disp => Sys2Proof.Machine.execBra w disp s
  | .beq w disp => Sys2Proof.Machine.execBeq w disp s
  | .bne w disp => Sys2Proof.Machine.execBne w disp s
  | .bcc w disp => Sys2Proof.Machine.execBcc w disp s
  | .bcs w disp => Sys2Proof.Machine.execBcs w disp s
  | .bpl w disp => Sys2Proof.Machine.execBpl w disp s
  | .bmi w disp => Sys2Proof.Machine.execBmi w disp s
  | .bvc w disp => Sys2Proof.Machine.execBvc w disp s
  | .bvs w disp => Sys2Proof.Machine.execBvs w disp s
  | .blt w disp => Sys2Proof.Machine.execBlt w disp s
  | .bgt w disp => Sys2Proof.Machine.execBgt w disp s
  | .ble w disp => Sys2Proof.Machine.execBle w disp s
  | .bge w disp => Sys2Proof.Machine.execBge w disp s
  | .sec => Sys2Proof.Machine.execSec s
  | .clc => Sys2Proof.Machine.execClc s
  | .sei => Sys2Proof.Machine.execSei s
  | .cli => Sys2Proof.Machine.execCli s
  | .sev => Sys2Proof.Machine.execSev s
  | .clv => Sys2Proof.Machine.execClv s

end Sys2Proof.Machine
end

