-- ==== Sys2Proof/WellFormed.lean ====
section
/-! DEFINITION. When an instruction term stands for an encodable instruction: a constant is an
unsigned value of the operand width and a displacement is a bit pattern of the operand width
(spec/30_encoding.md R88). Every other operand field has exactly the encoding's width. -/

namespace Sys2Proof

/-- The value fits the operand width (R88). -/
def Width.fits (w : Width) (v : Word) : Bool :=
  decide (v.toNat < 2 ^ w.bits)

/-- The constant of a constant-paired form fits the width; the other forms have no constant. -/
def TwoForm.wf (w : Width) : TwoForm → Bool
  | .regImm _ c => w.fits c
  | .absConst _ c => w.fits c
  | .indConst _ _ c => w.fits c
  | .idxConst _ _ c => w.fits c
  | .reg2 _ _ => true
  | .absSrc _ _ => true
  | .absDst _ _ => true
  | .indSrc _ _ _ => true
  | .indDst _ _ _ => true
  | .idxSrc _ _ _ => true
  | .idxDst _ _ _ => true

/-- Well-formedness of a view. -/
def View.wf : View → Bool
  | .two _ w f => f.wf w
  | .reg1 _ _ _ => true
  | .pushConst w c => w.fits c
  | .implied _ _ => true
  | .branch _ w disp => w.fits disp
  | .direct _ _ => true
  | .sys _ _ => true

/-- Well-formedness of an instruction. -/
def Instr.wf (i : Instr) : Bool :=
  i.view.wf

end Sys2Proof
end

