-- ==== Sys2Proof/Decode.lean ====
section
/-! DEFINITION. The decoder and the encoder (spec/30_encoding.md). The decoder is total on byte
lists and rejects by name; the instruction word alone fixes what follows it (`Layout`), so the
machine's fetch reads the word, then each operand group at its own address (R94). -/

namespace Sys2Proof

/-- Why a byte list is no instruction (R92, R94). -/
inductive DecodeError where
  /-- the bytes end inside the group that starts at this offset -/
  | truncated (offset : Nat)
  /-- `SZ = 3` (R83) -/
  | reservedWidth
  /-- `OP` is one of 0x33 to 0x3F (R90) -/
  | undefinedOpcode
  /-- the opcode is not legal with this addressing mode (R92) -/
  | illegalPair
deriving DecidableEq, Repr

/-- What an opcode names: an operation of one of the handler classes (R120). -/
inductive Operation where
  | alu (op : AluOp)
  | reg1 (op : Reg1Op)
  | implied (op : ImpliedOp)
  | branch (cond : Cond)
  | direct (op : DirectOp)
  | sys
deriving DecidableEq, Repr

/-- The eleven addressing modes of the two-operand handler (R122). -/
inductive TwoMode where
  | regImm
  | reg2
  | absSrc
  | absDst
  | absConst
  | indSrc
  | indDst
  | indConst
  | idxSrc
  | idxDst
  | idxConst
deriving DecidableEq, Repr

/-- What an accepted instruction word fixes: operation, width, addressing mode, adjustments. -/
inductive Layout where
  | two (op : AluOp) (w : Width) (m : TwoMode) (adj : Adjust)
  | reg1 (op : Reg1Op) (w : Width)
  | pushConst (w : Width)
  | implied (op : ImpliedOp) (w : Width)
  | branch (cond : Cond) (w : Width)
  | direct (op : DirectOp)
  | sys
deriving DecidableEq, Repr

/-! ## The code tables -/

/-- The opcodes in the order of their numbers, 0x00 to 0x32 (R90). -/
def operations : List Operation :=
  [.alu .mov, .reg1 .clr, .alu .add, .alu .sub, .alu .adc, .alu .sbc, .alu .and, .alu .or,
   .alu .xor, .alu .mul, .alu .div, .alu .shl, .alu .shr, .alu .rol, .alu .ror, .alu .cmp,
   .reg1 .inc, .reg1 .dec, .reg1 .sxb, .reg1 .sxw, .reg1 .push, .reg1 .pop, .implied .pusha, .implied .popa,
   .direct .jsr, .implied .rts, .implied .brk, .implied .rti, .sys, .implied .slp, .direct .jmp, .implied .nop,
   .branch .bra, .branch .beq, .branch .bne, .branch .bcc, .branch .bcs, .branch .bpl, .branch .bmi, .branch .bvc,
   .branch .bvs, .branch .blt, .branch .bgt, .branch .ble, .branch .bge, .implied .sec, .implied .clc, .implied .sei,
   .implied .cli, .implied .sev, .implied .clv]

/-- The addressing modes in the order of their codes, 0 to 15 (R85). -/
def addrModes : List AddrMode :=
  [.implied, .regImm, .constImm, .reg1, .reg2, .absSrc, .absDst, .absConst,
   .indSrc, .indDst, .indConst, .idxSrc, .idxDst, .idxConst, .relative, .direct]

/-- The operation of an opcode number, none for 0x33 to 0x3F (R90). -/
def Operation.ofCode (op : Nat) : Option Operation := operations[op]?

/-- The opcode number of an operation (R90). -/
def Operation.code (o : Operation) : Nat := operations.idxOf o

/-- The addressing mode of a 4-bit code (R85). -/
def AddrMode.ofCode (am : Nat) : AddrMode := addrModes.getD am .direct

/-- The code of an addressing mode (R85). -/
def AddrMode.code (m : AddrMode) : Nat := addrModes.idxOf m

/-- The width of a selector value, none for 3 (R83). -/
def Width.ofCode : Nat → Option Width
  | 0 => some .dword
  | 1 => some .word
  | 2 => some .byte
  | _ => none

/-- The selector value of a width (R83). -/
def Width.code : Width → Nat
  | .dword => 0
  | .word => 1
  | .byte => 2

/-- The addressing mode of a two-operand mode. -/
def TwoMode.mode : TwoMode → AddrMode
  | .regImm => .regImm
  | .reg2 => .reg2
  | .absSrc => .absSrc
  | .absDst => .absDst
  | .absConst => .absConst
  | .indSrc => .indSrc
  | .indDst => .indDst
  | .indConst => .indConst
  | .idxSrc => .idxSrc
  | .idxDst => .idxDst
  | .idxConst => .idxConst

/-- The two-operand mode of an addressing mode, none for the other five (R120). -/
def TwoMode.ofMode : AddrMode → Option TwoMode
  | .regImm => some .regImm
  | .reg2 => some .reg2
  | .absSrc => some .absSrc
  | .absDst => some .absDst
  | .absConst => some .absConst
  | .indSrc => some .indSrc
  | .indDst => some .indDst
  | .indConst => some .indConst
  | .idxSrc => some .idxSrc
  | .idxDst => some .idxDst
  | .idxConst => some .idxConst
  | .implied => none
  | .constImm => none
  | .reg1 => none
  | .relative => none
  | .direct => none

/-! ## From views to instructions -/

/-- The instruction of a two-operand operation and form: the table's rows of that class (R90). -/
def twoInstr (op : AluOp) (w : Width) (f : TwoForm) : Instr :=
  match op with
  | .mov =>
    match f with
    | .regImm ra c => .movRegImm w ra c
    | .reg2 ra rb => .movReg2 w ra rb
    | .absSrc ra addr => .movAbsSrc w ra addr
    | .absDst addr rb => .movAbsDst w addr rb
    | .absConst addr c => .movAbsConst w addr c
    | .indSrc adj ra rb => .movIndSrc w adj ra rb
    | .indDst adj ra rb => .movIndDst w adj ra rb
    | .indConst adj ra c => .movIndConst w adj ra c
    | .idxSrc ra rb off => .movIdxSrc w ra rb off
    | .idxDst ra off rb => .movIdxDst w ra off rb
    | .idxConst ra off c => .movIdxConst w ra off c
  | .add =>
    match f with
    | .regImm ra c => .addRegImm w ra c
    | .reg2 ra rb => .addReg2 w ra rb
    | .absSrc ra addr => .addAbsSrc w ra addr
    | .absDst addr rb => .addAbsDst w addr rb
    | .absConst addr c => .addAbsConst w addr c
    | .indSrc adj ra rb => .addIndSrc w adj ra rb
    | .indDst adj ra rb => .addIndDst w adj ra rb
    | .indConst adj ra c => .addIndConst w adj ra c
    | .idxSrc ra rb off => .addIdxSrc w ra rb off
    | .idxDst ra off rb => .addIdxDst w ra off rb
    | .idxConst ra off c => .addIdxConst w ra off c
  | .sub =>
    match f with
    | .regImm ra c => .subRegImm w ra c
    | .reg2 ra rb => .subReg2 w ra rb
    | .absSrc ra addr => .subAbsSrc w ra addr
    | .absDst addr rb => .subAbsDst w addr rb
    | .absConst addr c => .subAbsConst w addr c
    | .indSrc adj ra rb => .subIndSrc w adj ra rb
    | .indDst adj ra rb => .subIndDst w adj ra rb
    | .indConst adj ra c => .subIndConst w adj ra c
    | .idxSrc ra rb off => .subIdxSrc w ra rb off
    | .idxDst ra off rb => .subIdxDst w ra off rb
    | .idxConst ra off c => .subIdxConst w ra off c
  | .adc =>
    match f with
    | .regImm ra c => .adcRegImm w ra c
    | .reg2 ra rb => .adcReg2 w ra rb
    | .absSrc ra addr => .adcAbsSrc w ra addr
    | .absDst addr rb => .adcAbsDst w addr rb
    | .absConst addr c => .adcAbsConst w addr c
    | .indSrc adj ra rb => .adcIndSrc w adj ra rb
    | .indDst adj ra rb => .adcIndDst w adj ra rb
    | .indConst adj ra c => .adcIndConst w adj ra c
    | .idxSrc ra rb off => .adcIdxSrc w ra rb off
    | .idxDst ra off rb => .adcIdxDst w ra off rb
    | .idxConst ra off c => .adcIdxConst w ra off c
  | .sbc =>
    match f with
    | .regImm ra c => .sbcRegImm w ra c
    | .reg2 ra rb => .sbcReg2 w ra rb
    | .absSrc ra addr => .sbcAbsSrc w ra addr
    | .absDst addr rb => .sbcAbsDst w addr rb
    | .absConst addr c => .sbcAbsConst w addr c
    | .indSrc adj ra rb => .sbcIndSrc w adj ra rb
    | .indDst adj ra rb => .sbcIndDst w adj ra rb
    | .indConst adj ra c => .sbcIndConst w adj ra c
    | .idxSrc ra rb off => .sbcIdxSrc w ra rb off
    | .idxDst ra off rb => .sbcIdxDst w ra off rb
    | .idxConst ra off c => .sbcIdxConst w ra off c
  | .and =>
    match f with
    | .regImm ra c => .andRegImm w ra c
    | .reg2 ra rb => .andReg2 w ra rb
    | .absSrc ra addr => .andAbsSrc w ra addr
    | .absDst addr rb => .andAbsDst w addr rb
    | .absConst addr c => .andAbsConst w addr c
    | .indSrc adj ra rb => .andIndSrc w adj ra rb
    | .indDst adj ra rb => .andIndDst w adj ra rb
    | .indConst adj ra c => .andIndConst w adj ra c
    | .idxSrc ra rb off => .andIdxSrc w ra rb off
    | .idxDst ra off rb => .andIdxDst w ra off rb
    | .idxConst ra off c => .andIdxConst w ra off c
  | .or =>
    match f with
    | .regImm ra c => .orRegImm w ra c
    | .reg2 ra rb => .orReg2 w ra rb
    | .absSrc ra addr => .orAbsSrc w ra addr
    | .absDst addr rb => .orAbsDst w addr rb
    | .absConst addr c => .orAbsConst w addr c
    | .indSrc adj ra rb => .orIndSrc w adj ra rb
    | .indDst adj ra rb => .orIndDst w adj ra rb
    | .indConst adj ra c => .orIndConst w adj ra c
    | .idxSrc ra rb off => .orIdxSrc w ra rb off
    | .idxDst ra off rb => .orIdxDst w ra off rb
    | .idxConst ra off c => .orIdxConst w ra off c
  | .xor =>
    match f with
    | .regImm ra c => .xorRegImm w ra c
    | .reg2 ra rb => .xorReg2 w ra rb
    | .absSrc ra addr => .xorAbsSrc w ra addr
    | .absDst addr rb => .xorAbsDst w addr rb
    | .absConst addr c => .xorAbsConst w addr c
    | .indSrc adj ra rb => .xorIndSrc w adj ra rb
    | .indDst adj ra rb => .xorIndDst w adj ra rb
    | .indConst adj ra c => .xorIndConst w adj ra c
    | .idxSrc ra rb off => .xorIdxSrc w ra rb off
    | .idxDst ra off rb => .xorIdxDst w ra off rb
    | .idxConst ra off c => .xorIdxConst w ra off c
  | .mul =>
    match f with
    | .regImm ra c => .mulRegImm w ra c
    | .reg2 ra rb => .mulReg2 w ra rb
    | .absSrc ra addr => .mulAbsSrc w ra addr
    | .absDst addr rb => .mulAbsDst w addr rb
    | .absConst addr c => .mulAbsConst w addr c
    | .indSrc adj ra rb => .mulIndSrc w adj ra rb
    | .indDst adj ra rb => .mulIndDst w adj ra rb
    | .indConst adj ra c => .mulIndConst w adj ra c
    | .idxSrc ra rb off => .mulIdxSrc w ra rb off
    | .idxDst ra off rb => .mulIdxDst w ra off rb
    | .idxConst ra off c => .mulIdxConst w ra off c
  | .div =>
    match f with
    | .regImm ra c => .divRegImm w ra c
    | .reg2 ra rb => .divReg2 w ra rb
    | .absSrc ra addr => .divAbsSrc w ra addr
    | .absDst addr rb => .divAbsDst w addr rb
    | .absConst addr c => .divAbsConst w addr c
    | .indSrc adj ra rb => .divIndSrc w adj ra rb
    | .indDst adj ra rb => .divIndDst w adj ra rb
    | .indConst adj ra c => .divIndConst w adj ra c
    | .idxSrc ra rb off => .divIdxSrc w ra rb off
    | .idxDst ra off rb => .divIdxDst w ra off rb
    | .idxConst ra off c => .divIdxConst w ra off c
  | .shl =>
    match f with
    | .regImm ra c => .shlRegImm w ra c
    | .reg2 ra rb => .shlReg2 w ra rb
    | .absSrc ra addr => .shlAbsSrc w ra addr
    | .absDst addr rb => .shlAbsDst w addr rb
    | .absConst addr c => .shlAbsConst w addr c
    | .indSrc adj ra rb => .shlIndSrc w adj ra rb
    | .indDst adj ra rb => .shlIndDst w adj ra rb
    | .indConst adj ra c => .shlIndConst w adj ra c
    | .idxSrc ra rb off => .shlIdxSrc w ra rb off
    | .idxDst ra off rb => .shlIdxDst w ra off rb
    | .idxConst ra off c => .shlIdxConst w ra off c
  | .shr =>
    match f with
    | .regImm ra c => .shrRegImm w ra c
    | .reg2 ra rb => .shrReg2 w ra rb
    | .absSrc ra addr => .shrAbsSrc w ra addr
    | .absDst addr rb => .shrAbsDst w addr rb
    | .absConst addr c => .shrAbsConst w addr c
    | .indSrc adj ra rb => .shrIndSrc w adj ra rb
    | .indDst adj ra rb => .shrIndDst w adj ra rb
    | .indConst adj ra c => .shrIndConst w adj ra c
    | .idxSrc ra rb off => .shrIdxSrc w ra rb off
    | .idxDst ra off rb => .shrIdxDst w ra off rb
    | .idxConst ra off c => .shrIdxConst w ra off c
  | .rol =>
    match f with
    | .regImm ra c => .rolRegImm w ra c
    | .reg2 ra rb => .rolReg2 w ra rb
    | .absSrc ra addr => .rolAbsSrc w ra addr
    | .absDst addr rb => .rolAbsDst w addr rb
    | .absConst addr c => .rolAbsConst w addr c
    | .indSrc adj ra rb => .rolIndSrc w adj ra rb
    | .indDst adj ra rb => .rolIndDst w adj ra rb
    | .indConst adj ra c => .rolIndConst w adj ra c
    | .idxSrc ra rb off => .rolIdxSrc w ra rb off
    | .idxDst ra off rb => .rolIdxDst w ra off rb
    | .idxConst ra off c => .rolIdxConst w ra off c
  | .ror =>
    match f with
    | .regImm ra c => .rorRegImm w ra c
    | .reg2 ra rb => .rorReg2 w ra rb
    | .absSrc ra addr => .rorAbsSrc w ra addr
    | .absDst addr rb => .rorAbsDst w addr rb
    | .absConst addr c => .rorAbsConst w addr c
    | .indSrc adj ra rb => .rorIndSrc w adj ra rb
    | .indDst adj ra rb => .rorIndDst w adj ra rb
    | .indConst adj ra c => .rorIndConst w adj ra c
    | .idxSrc ra rb off => .rorIdxSrc w ra rb off
    | .idxDst ra off rb => .rorIdxDst w ra off rb
    | .idxConst ra off c => .rorIdxConst w ra off c
  | .cmp =>
    match f with
    | .regImm ra c => .cmpRegImm w ra c
    | .reg2 ra rb => .cmpReg2 w ra rb
    | .absSrc ra addr => .cmpAbsSrc w ra addr
    | .absDst addr rb => .cmpAbsDst w addr rb
    | .absConst addr c => .cmpAbsConst w addr c
    | .indSrc adj ra rb => .cmpIndSrc w adj ra rb
    | .indDst adj ra rb => .cmpIndDst w adj ra rb
    | .indConst adj ra c => .cmpIndConst w adj ra c
    | .idxSrc ra rb off => .cmpIdxSrc w ra rb off
    | .idxDst ra off rb => .cmpIdxDst w ra off rb
    | .idxConst ra off c => .cmpIdxConst w ra off c

/-- The instruction of a one-register operation (R139); SXB and SXW drop the width (R93). -/
def reg1Instr (op : Reg1Op) (w : Width) (ra : Reg) : Instr :=
  match op with
  | .clr => .clr w ra
  | .inc => .inc w ra
  | .dec => .dec w ra
  | .sxb => .sxb ra
  | .sxw => .sxw ra
  | .push => .pushReg w ra
  | .pop => .pop w ra

/-- The instruction of a no-operand operation (R141); all but PUSHA and POPA drop the width (R93). -/
def impliedInstr (op : ImpliedOp) (w : Width) : Instr :=
  match op with
  | .pusha => .pusha w
  | .popa => .popa w
  | .rts => .rts
  | .brk => .brk
  | .rti => .rti
  | .slp => .slp
  | .nop => .nop
  | .sec => .sec
  | .clc => .clc
  | .sei => .sei
  | .cli => .cli
  | .sev => .sev
  | .clv => .clv

/-- The branch of a condition (R251). -/
def branchInstr (cond : Cond) (w : Width) (disp : Word) : Instr :=
  match cond with
  | .bra => .bra w disp
  | .beq => .beq w disp
  | .bne => .bne w disp
  | .bcc => .bcc w disp
  | .bcs => .bcs w disp
  | .bpl => .bpl w disp
  | .bmi => .bmi w disp
  | .bvc => .bvc w disp
  | .bvs => .bvs w disp
  | .blt => .blt w disp
  | .bgt => .bgt w disp
  | .ble => .ble w disp
  | .bge => .bge w disp

/-- The instruction a view stands for. -/
def View.instr : View → Instr
  | .two op w f => twoInstr op w f
  | .reg1 op w ra => reg1Instr op w ra
  | .pushConst w c => .pushConst w c
  | .implied op w => impliedInstr op w
  | .branch cond w disp => branchInstr cond w disp
  | .direct .jmp addr => .jmp addr
  | .direct .jsr addr => .jsr addr
  | .sys id addr => .sys id addr

/-! ## Decoding -/

/-- The legality table (R90, R92): the layout of an operation with an addressing mode. -/
def layoutOf (o : Operation) (m : AddrMode) (w : Width) (adj : Adjust) : Option Layout :=
  match o, m with
  | .alu op, m => (TwoMode.ofMode m).map fun tm => .two op w tm adj
  | .reg1 op, .reg1 => some (.reg1 op w)
  | .reg1 .push, .constImm => some (.pushConst w)
  | .implied op, .implied => some (.implied op w)
  | .branch cond, .relative => some (.branch cond w)
  | .direct op, .direct => some (.direct op)
  | .sys, .direct => some .sys
  | _, _ => none

/-- The fields of the instruction word (R82), and the checks in the order of R94. -/
def decodeWord (iw : BitVec 16) : Except DecodeError Layout :=
  let am := (iw.extractLsb' 0 4).toNat
  let op := (iw.extractLsb' 8 6).toNat
  let adj : Adjust := { pre := iw.getLsbD 5, post := iw.getLsbD 4 }
  match Width.ofCode (iw.extractLsb' 14 2).toNat with
  | none => .error .reservedWidth
  | some w =>
    match Operation.ofCode op with
    | none => .error .undefinedOpcode
    | some o =>
      match layoutOf o (AddrMode.ofCode am) w adj with
      | none => .error .illegalPair
      | some l => .ok l

/-- The sizes of the operand groups of a two-operand mode, in order (R87). -/
def TwoMode.groups (m : TwoMode) (n : Nat) : List Nat :=
  match m with
  | .regImm => [1, n]
  | .reg2 => [1]
  | .absSrc => [1, 4]
  | .absDst => [1, 4]
  | .absConst => [4, n]
  | .indSrc => [1]
  | .indDst => [1]
  | .indConst => [1, n]
  | .idxSrc => [1, 4]
  | .idxDst => [1, 4]
  | .idxConst => [1, 4, n]

/-- The sizes in bytes of the operand groups that follow the word, in order (R87). -/
def Layout.groups : Layout → List Nat
  | .two _ w m _ => m.groups w.bytes
  | .reg1 _ _ => [1]
  | .pushConst w => [w.bytes]
  | .implied _ _ => []
  | .branch _ w => [w.bytes]
  | .direct _ => [4]
  | .sys => [2, 4]

/-- `sel[7:4]` of a selector byte (R86). -/
def selHi (sel : Nat) : Reg := Fin.ofNat 16 (sel / 16)

/-- `sel[3:0]` of a selector byte (R86). -/
def selLo (sel : Nat) : Reg := Fin.ofNat 16 sel

/-- The `k`-th operand group as a 32-bit value (R88). -/
def group (vs : List Nat) (k : Nat) : Word := BitVec.ofNat 32 (vs.getD k 0)

/-- The operands of a two-operand mode from the values of its groups (R86, R88). -/
def TwoMode.form (m : TwoMode) (adj : Adjust) (vs : List Nat) : TwoForm :=
  let sel := vs.getD 0 0
  match m with
  | .regImm => .regImm (selLo sel) (group vs 1)
  | .reg2 => .reg2 (selHi sel) (selLo sel)
  | .absSrc => .absSrc (selLo sel) (group vs 1)
  | .absDst => .absDst (group vs 1) (selLo sel)
  | .absConst => .absConst (group vs 0) (group vs 1)
  | .indSrc => .indSrc adj (selHi sel) (selLo sel)
  | .indDst => .indDst adj (selHi sel) (selLo sel)
  | .indConst => .indConst adj (selLo sel) (group vs 1)
  | .idxSrc => .idxSrc (selHi sel) (selLo sel) (group vs 1)
  | .idxDst => .idxDst (selHi sel) (group vs 1) (selLo sel)
  | .idxConst => .idxConst (selLo sel) (group vs 1) (group vs 2)

/-- The instruction of a layout and the values of its operand groups. -/
def Layout.instr (l : Layout) (vs : List Nat) : Instr :=
  match l with
  | .two op w m adj => twoInstr op w (m.form adj vs)
  | .reg1 op w => reg1Instr op w (selLo (vs.getD 0 0))
  | .pushConst w => .pushConst w (group vs 0)
  | .implied op w => impliedInstr op w
  | .branch cond w => branchInstr cond w (group vs 0)
  | .direct .jmp => .jmp (group vs 0)
  | .direct .jsr => .jsr (group vs 0)
  | .sys => .sys (BitVec.ofNat 16 (vs.getD 0 0)) (group vs 1)

/-- The values of groups of the given sizes, and the bytes after them; `offset` is where the first
group starts. -/
def takeGroups : List Nat → Nat → List Byte → Except DecodeError (List Nat × List Byte)
  | [], _, bs => .ok ([], bs)
  | n :: ns, offset, bs =>
    if bs.length < n then .error (.truncated offset)
    else
      match takeGroups ns (offset + n) (bs.drop n) with
      | .error e => .error e
      | .ok (vs, rest) => .ok (leNat (bs.take n) :: vs, rest)

/-- The instruction at the head of a byte list and the bytes after it (R94). -/
def decode (bs : List Byte) : Except DecodeError (Instr × List Byte) :=
  match takeGroups [2] 0 bs with
  | .error e => .error e
  | .ok (ws, rest) =>
    match decodeWord (BitVec.ofNat 16 (ws.getD 0 0)) with
    | .error e => .error e
    | .ok l =>
      match takeGroups l.groups 2 rest with
      | .error e => .error e
      | .ok (vs, rest') => .ok (l.instr vs, rest')

/-- The length of the longest instruction in bytes (R89). -/
def maxLength : Nat := 11

/-- The instruction the decoder reads from a word of spec/opcode_table.json: `w` has `nbits` bits,
bit 0 the least significant bit of the first byte, and every later bit of the instruction is 0. -/
def decodeTableWord (nbits w : Nat) : Option Instr :=
  match decode (leBytes maxLength (w % 2 ^ nbits)) with
  | .ok (i, _) => some i
  | .error _ => none

/-! ## Encoding -/

/-- The two-operand mode of a form. -/
def TwoForm.mode : TwoForm → TwoMode
  | .regImm _ _ => .regImm
  | .reg2 _ _ => .reg2
  | .absSrc _ _ => .absSrc
  | .absDst _ _ => .absDst
  | .absConst _ _ => .absConst
  | .indSrc _ _ _ => .indSrc
  | .indDst _ _ _ => .indDst
  | .indConst _ _ _ => .indConst
  | .idxSrc _ _ _ => .idxSrc
  | .idxDst _ _ _ => .idxDst
  | .idxConst _ _ _ => .idxConst

/-- The adjustments a form asks for; none outside the register-indirect modes (R84). -/
def TwoForm.adjust : TwoForm → Adjust
  | .indSrc adj _ _ => adj
  | .indDst adj _ _ => adj
  | .indConst adj _ _ => adj
  | .regImm _ _ => ⟨false, false⟩
  | .reg2 _ _ => ⟨false, false⟩
  | .absSrc _ _ => ⟨false, false⟩
  | .absDst _ _ => ⟨false, false⟩
  | .absConst _ _ => ⟨false, false⟩
  | .idxSrc _ _ _ => ⟨false, false⟩
  | .idxDst _ _ _ => ⟨false, false⟩
  | .idxConst _ _ _ => ⟨false, false⟩

/-- The addressing mode of a view (R85). -/
def View.mode : View → AddrMode
  | .two _ _ f => f.mode.mode
  | .reg1 _ _ _ => .reg1
  | .pushConst _ _ => .constImm
  | .implied _ _ => .implied
  | .branch _ _ _ => .relative
  | .direct _ _ => .direct
  | .sys _ _ => .direct

/-- The operation of a view. -/
def View.operation : View → Operation
  | .two op _ _ => .alu op
  | .reg1 op _ _ => .reg1 op
  | .pushConst _ _ => .reg1 .push
  | .implied op _ => .implied op
  | .branch cond _ _ => .branch cond
  | .direct op _ => .direct op
  | .sys _ _ => .sys

/-- The width a view encodes; `.dword` where the width is ignored (R93). -/
def View.width : View → Width
  | .two _ w _ => w
  | .reg1 _ w _ => w
  | .pushConst w _ => w
  | .implied _ w => w
  | .branch _ w _ => w
  | .direct _ _ => .dword
  | .sys _ _ => .dword

/-- The adjustments a view encodes (R84). -/
def View.adjust : View → Adjust
  | .two _ _ f => f.adjust
  | .reg1 _ _ _ => ⟨false, false⟩
  | .pushConst _ _ => ⟨false, false⟩
  | .implied _ _ => ⟨false, false⟩
  | .branch _ _ _ => ⟨false, false⟩
  | .direct _ _ => ⟨false, false⟩
  | .sys _ _ => ⟨false, false⟩

/-- The addressing mode of an instruction (R85). -/
def Instr.mode (i : Instr) : AddrMode := i.view.mode

/-- The instruction word from its fields: `iw = AM | RC << 4 | OP << 8 | SZ << 14` (R82). -/
def wordOf (m : AddrMode) (adj : Adjust) (o : Operation) (w : Width) : Nat :=
  m.code + 16 * (adj.post.toNat + 2 * adj.pre.toNat) + 256 * o.code + 16384 * w.code

/-- A selector byte with both nibbles used, as an operand group (R86). -/
def selPair (hi lo : Reg) : Nat × Nat := (1, 16 * hi.val + lo.val)

/-- A selector byte with one register, the ignored nibble 0, as an operand group (R86). -/
def selOne (lo : Reg) : Nat × Nat := (1, lo.val)

/-- The operand groups of a form, each with its size in bytes, in order (R86 to R88). -/
def TwoForm.groups (w : Width) : TwoForm → List (Nat × Nat)
  | .regImm ra c => [selOne ra, (w.bytes, c.toNat)]
  | .reg2 ra rb => [selPair ra rb]
  | .absSrc ra addr => [selOne ra, (4, addr.toNat)]
  | .absDst addr rb => [selOne rb, (4, addr.toNat)]
  | .absConst addr c => [(4, addr.toNat), (w.bytes, c.toNat)]
  | .indSrc _ ra rb => [selPair ra rb]
  | .indDst _ ra rb => [selPair ra rb]
  | .indConst _ ra c => [selOne ra, (w.bytes, c.toNat)]
  | .idxSrc ra rb off => [selPair ra rb, (4, off.toNat)]
  | .idxDst ra off rb => [selPair ra rb, (4, off.toNat)]
  | .idxConst ra off c => [selOne ra, (4, off.toNat), (w.bytes, c.toNat)]

/-- The operand groups of a view, each with its size in bytes, in order (R86 to R88). -/
def View.groups : View → List (Nat × Nat)
  | .two _ w f => f.groups w
  | .reg1 _ _ ra => [selOne ra]
  | .pushConst w c => [(w.bytes, c.toNat)]
  | .implied _ _ => []
  | .branch _ w disp => [(w.bytes, disp.toNat)]
  | .direct _ addr => [(4, addr.toNat)]
  | .sys id addr => [(2, id.toNat), (4, addr.toNat)]

/-- The instruction word of an instruction, every ignored bit 0 (R93). -/
def Instr.word (i : Instr) : Nat :=
  wordOf i.view.mode i.view.adjust i.view.operation i.view.width

/-- The bytes of an instruction in its canonical encoding: the word, then its operand groups. -/
def encode (i : Instr) : List Byte :=
  leBytes 2 i.word ++ i.view.groups.flatMap fun g => leBytes g.1 g.2

end Sys2Proof
end

