-- ==== Sys2Proof/Machine/Fetch.lean ====
section
/-! DEFINITION. Instruction fetch (spec/30_encoding.md R81, R87, R94): the word, the legality checks, then each
operand group at its own address, `pc` advancing modulo 2^32. -/

namespace Sys2Proof.Machine

/-- `Fetch(n)` for each group in order: the values and the address after the last group (R81, R87). -/
def fetchGroups (m : Memory) : List Nat → Word → Except Exn (List Nat × Word)
  | [], pc => .ok ([], pc)
  | n :: ns, pc =>
    match m.read n pc with
    | .error e => .error e
    | .ok v =>
      match fetchGroups m ns (pc + BitVec.ofNat 32 n) with
      | .error e => .error e
      | .ok (vs, pc') => .ok (v :: vs, pc')

/-- The exception of a rejected encoding at `pc` (R92, R94). -/
def decodeExn (pc : Word) : DecodeError → Exn
  | .truncated offset => .invalidAddress (pc + BitVec.ofNat 32 offset)
  | .reservedWidth => .invalidInstruction
  | .undefinedOpcode => .invalidInstruction
  | .illegalPair => .invalidInstruction

/-- The instruction at `pc` and the address of the next one, or the exception the fetch raises; legality is
checked before any operand byte is fetched (R94). -/
def fetch (s : State) : Except Exn (Instr × Word) :=
  match fetchGroups s.mem [2] s.pc with
  | .error e => .error e
  | .ok (ws, pc1) =>
    match decodeWord (BitVec.ofNat 16 (ws.getD 0 0)) with
    | .error e => .error (decodeExn s.pc e)
    | .ok l =>
      match fetchGroups s.mem l.groups pc1 with
      | .error e => .error e
      | .ok (vs, pc2) => .ok (l.instr vs, pc2)

/-- Bytes placed in the bank from an address on; addresses are modulo 2^32 and a byte outside the bank is
dropped. -/
def placeBytes : List Byte → Word → Memory → Memory
  | [], _, m => m
  | b :: bs, a, m => placeBytes bs (a + 1) (if a.toNat < m.cap then m.setByte a.toNat b else m)

end Sys2Proof.Machine
end

