-- ==== Sys2Proof/Machine/Step.lean ====
section
/-! DEFINITION. One step of the machine: the `tick` event (spec/70_reset_and_hazards.md R360, R361). -/

namespace Sys2Proof.Machine

/-- `tick()`: nothing while asleep (R361); otherwise one instruction, fetched, decoded and executed with
`pc` at the next one, or the exception the fetch raises (R313, R360). -/
def step (s : State) : Host.Outcome State Fault Refusal :=
  if s.asleep then .next s
  else
    match fetch s with
    | .error e => takeException e s
    | .ok (i, pc) => exec i (s.setPc pc)

/-- The state with an instruction stored where the next step fetches: its bytes at `pc`, every byte after
its word 0 up to the longest instruction, and the machine awake (assumption log 4). -/
def State.withFetchWord (s : State) (nbits w : Nat) : State :=
  { s with
    asleep := false
    mem := placeBytes (leBytes maxLength (w % 2 ^ nbits)) s.pc s.mem }

end Sys2Proof.Machine
end

