-- ==== Sys2Proof/Machine/Events.lean ====
section
/-! DEFINITION. The other events of the block's interface (spec/70_reset_and_hazards.md R350 to R354,
spec/60_exceptions.md section 2): power-on, reset, interrupts, the host's memory port, the callback
registration, and the event system they make with `tick`. -/

namespace Sys2Proof.Machine

/-- The state at power-on with a bank of `cap` bytes, before the first reset event (R37, R351). -/
def State.powerOn (cap : Nat) : State :=
  { regs := Vector.replicate 16 0
    flags := { z := false, n := false, c := false, v := false, b := false, i := false }
    asleep := false
    mem := { cap := cap, cells := [] }
    callback := none
    syscalls := 0 }

/-- `x[i] <- 0` for each register of a list (R350). -/
def zeroRegs : List Reg → State → State
  | [], s => s
  | i :: rest, s => zeroRegs rest (s.setReg i 0)

/-- The `reset` event: registers 0 to 13 zeroed, `pc` and `sp` from their vector slots, awake; flags, memory
and callback kept (R350). -/
def resetEvent (s : State) : Result :=
  let s1 := zeroRegs dataRegs s
  match s1.load 4 vecReset with
  | .error _ => .fault .vectorOutsideBank
  | .ok pc =>
    match s1.load 4 vecSpInit with
    | .error _ => .fault .vectorOutsideBank
    | .ok sp =>
      .next (((s1.setPc (BitVec.ofNat 32 pc)).setSp (BitVec.ofNat 32 sp)).withAsleep false)

/-- The vector slot of an interrupt (R323). -/
def interruptVector (nmi : Bool) : Word := if nmi then vecNmi else vecHwIrq

/-- `interrupt_raised(is_nmi)`: the sleep latch cleared first; a masked IRQ does nothing more; otherwise the
frame is pushed and `pc` loaded from the slot, no flag changed (R321 to R323, R326). -/
def interruptRaised (nmi : Bool) (s : State) : Result :=
  let s1 := s.withAsleep false
  if !nmi && s1.flags.i then .next s1
  else complete ((pushFrame s1).andThen (loadVector (interruptVector nmi)))

/-- The host's `read<T>`: the CPU's own port; a failure is a result to the host (R352). -/
def hostRead (w : Width) (a : Word) (s : State) : Except Exn Nat := s.load w.bytes a

/-- The host's `write<T>` (R352). -/
def hostWrite (w : Width) (a : Word) (v : Nat) (s : State) : Except Exn State := s.store w.bytes a v

/-- Registration of the syscall callback, replacing any earlier one (R283). -/
def registerCallback (token : Nat) (s : State) : State := { s with callback := some token }

/-- The interface events of the block (R353). -/
inductive Event where
  | tick
  | reset
  | interrupt (nmi : Bool)
  | portRead (w : Width) (a : Word)
  | portWrite (w : Width) (a : Word) (v : Nat)
  | register (token : Nat)
deriving DecidableEq, Repr

/-- One event, atomic; the host chooses the order (R354). A failed port access changes nothing (R352). -/
def applyEvent (e : Event) (s : State) : Result :=
  match e with
  | .tick => step s
  | .reset => resetEvent s
  | .interrupt nmi => interruptRaised nmi s
  | .portRead _ _ => .next s
  | .portWrite w a v =>
    match hostWrite w a v s with
    | .ok s1 => .next s1
    | .error _ => .next s
  | .register token => .next (registerCallback token s)

/-- A list of events applied left to right, ending at the first stop. -/
def applyEvents : List Event → State → Result
  | [], s => .next s
  | e :: es, s =>
    match applyEvent e s with
    | .next s1 => applyEvents es s1
    | .fault r => .fault r
    | .refused r => .refused r

end Sys2Proof.Machine
end

