-- ==== Sys2Proof/Machine/Tick.lean ====
section
/-! DEFINITION. What a `tick` returns to the host beside the next state: its cycle cost and the syscall callback
invocation (spec/70_reset_and_hazards.md R353, R360, R370). These are outputs, not state (R36), so they
are functions of the state before the tick. -/

namespace Sys2Proof.Machine

/-- What the no-operand instructions do, before any exception is taken (R141). -/
def impliedMicro (op : ImpliedOp) (w : Width) (s : State) : Micro :=
  match op with
  | .pusha => pushAll w s
  | .popa => popAll w s
  | .rts => ret s
  | .brk => softwareInterrupt s
  | .rti => leaveInterrupt s
  | .slp => .done (s.withAsleep true)
  | .nop => .done s
  | .sec => .done (s.withFlags { s.flags with c := true })
  | .clc => .done (s.withFlags { s.flags with c := false })
  | .sei => .done (s.withFlags { s.flags with i := true })
  | .cli => .done (s.withFlags { s.flags with i := false })
  | .sev => .done (s.withFlags { s.flags with v := true })
  | .clv => .done (s.withFlags { s.flags with v := false })

/-- What the one-register instructions do, before any exception is taken (R139). -/
def reg1Micro (op : Reg1Op) (w : Width) (ra : Reg) (s : State) : Micro :=
  match op with
  | .clr => clearReg w ra s
  | .inc => incReg w ra s
  | .dec => decReg w ra s
  | .sxb => signExtendReg 8 ra s
  | .sxw => signExtendReg 16 ra s
  | .push => pushReg w ra s
  | .pop => popReg w ra s

/-- What an instruction does, before any exception is taken: the handler its addressing mode selects (R120). -/
def viewMicro (v : View) (s : State) : Micro :=
  match v with
  | .two op w f => twoOperand op w f s
  | .reg1 op w ra => reg1Micro op w ra s
  | .pushConst w c => pushConst w c s
  | .implied op w => impliedMicro op w s
  | .branch cond w disp => branch cond w disp s
  | .direct .jmp addr => jump addr s
  | .direct .jsr addr => call addr s
  | .sys id addr => systemCall id addr s

/-- The exception a tick raises, if any (R313). It is never stored (R310). -/
def tickException (s : State) : Option Exn :=
  if s.asleep then none
  else
    match fetch s with
    | .error e => some e
    | .ok (i, pc) =>
      match viewMicro i.view (s.setPc pc) with
      | .raised e _ => some e
      | .done _ => none

/-- The cycle cost a tick returns, for a cost table `cycles` per addressing mode: 1 while asleep, 1 when an
exception is raised, else the table's entry (R361, R370). -/
def tickCost (cycles : AddrMode → Nat) (s : State) : Nat :=
  if s.asleep then 1
  else
    match fetch s with
    | .error _ => 1
    | .ok (i, pc) =>
      match viewMicro i.view (s.setPc pc) with
      | .raised _ _ => 1
      | .done _ => cycles i.mode

/-- The arguments of the callback invocation a tick makes: SYS hands them unchanged to the registered
callback; with none registered there is no invocation (R282, R283). -/
def tickSyscall (s : State) : Option (BitVec 16 × Word) :=
  if s.asleep || s.callback.isNone then none
  else
    match fetch s with
    | .ok (.sys id addr, _) => some (id, addr)
    | _ => none

end Sys2Proof.Machine
end

