-- ==== Sys2Proof/Safety.lean ====
section
/-! DEFINITION. What counts as a good state and a possible run, and the terms the statements use. -/

namespace Sys2Proof.Machine

/-- The invariant of the machine: the bank's capacity is within the spec's bounds and its listing is in
canonical form (R6, R50). -/
abbrev State.Inv (s : State) : Prop := s.mem.wf = true

/-- The states that some sequence of events reaches from power-on with a bank of a legal capacity (R354). -/
inductive Reachable : State → Prop where
  | powerOn (cap : Nat) (lo : Config.minCapacity ≤ cap) (hi : cap ≤ Config.maxCapacity) :
      Reachable (State.powerOn cap)
  | event {s t : State} (e : Event) (h : Reachable s) (run : applyEvent e s = .next t) : Reachable t

/-- A memory access of `n` bytes at `a` lies inside the bank (R55). -/
abbrev State.accessible (s : State) (a : Word) (n : Nat) : Prop := a.toNat + n ≤ s.mem.cap

/-- The memory operand of a form, if it has one, lies inside the bank (R145). `s` is the state after the
pre-decrement. -/
def operandInBank (w : Width) (f : TwoForm) (s : State) : Prop :=
  ∀ ea, memAddr f s = some ea → s.accessible ea w.bytes

/-- The result of a storing form in memory: the `n` bytes at the effective address (R122 step 7). CMP and the
forms with a register destination store nothing. -/
def storedMem (op : AluOp) (w : Width) (f : TwoForm) (r : BitVec w.bits) (s : State) : Memory :=
  match destReg f, memAddr f s with
  | none, some ea => if op = .cmp then s.mem else s.mem.writeLe w.bytes ea.toNat r.toNat
  | _, _ => s.mem

/-- Steps 7 to 9 of R122 for an ALU outcome whose store is inside the bank: store, commit, post-increment.
`s` is the state after the pre-decrement. -/
def afterAlu (op : AluOp) (w : Width) (f : TwoForm) (out : AluOut w.bits) (s : State) : State :=
  postIncrement w f (commit op w f out (s.withMem (storedMem op w f out.r s)))

/-- The base register after a pre-decrement that the instruction may ask for (R131). -/
def decremented (w : Width) (adj : Adjust) (r : Reg) (s : State) : State :=
  if adj.pre then s.setReg r (s.reg r - BitVec.ofNat 32 w.bytes) else s

/-- The base register after a post-increment that the instruction may ask for (R134). -/
def incremented (w : Width) (adj : Adjust) (r : Reg) (s : State) : State :=
  if adj.post then s.setReg r (s.reg r + BitVec.ofNat 32 w.bytes) else s

/-- Z and N from a result, the other flags as they were (R30). -/
def withNZ (f : Flags) {W : Nat} (r : BitVec W) : Flags :=
  { z := decide (r = 0), n := r.getLsbD (W - 1), c := f.c, v := f.v, b := f.b, i := f.i }

/-- The signed readings at width `W` outside `SMIN_W` to `SMAX_W` (R8). -/
def outsideSigned (W : Nat) (st : Int) : Bool :=
  decide (st < -(2 : Int) ^ (W - 1) ∨ (2 : Int) ^ (W - 1) - 1 < st)

/-- A memory-writing state update: the `n` bytes from `a` hold the low `8n` bits of `v` (R54). -/
def State.stored (s : State) (n : Nat) (a : Word) (v : Nat) : State :=
  s.withMem (s.mem.writeLe n a.toNat v)

/-- The 5-byte frame of R284 stands in `t` below the stack pointer of `s`, with the flags `f` and the return
address `ret`; every other byte is as in `s`. -/
def framePushed (s t : State) (f : Flags) (ret : Word) : Prop :=
  t.sp = s.sp - 5 ∧
  t.mem.byte (s.sp - 1).toNat = f.toByte ∧
  t.mem.readLe 4 (s.sp - 5).toNat = ret.toNat ∧
  t.mem.cap = s.mem.cap ∧
  ∀ x, x ≠ (s.sp - 1).toNat → ¬ ((s.sp - 5).toNat ≤ x ∧ x < (s.sp - 5).toNat + 4) →
    t.mem.byte x = s.mem.byte x

/-- Both parts of the frame lie inside the bank. -/
abbrev frameInBank (s : State) : Prop := s.accessible (s.sp - 1) 1 ∧ s.accessible (s.sp - 5) 4

/-- The bytes of the bank from `pc` on, as many as the longest instruction has or the bank still holds. -/
def codeBytes (s : State) : List Byte :=
  (List.range (min maxLength (s.mem.cap - s.pc.toNat))).map fun k => s.mem.byte (s.pc.toNat + k)

/-- The instruction word the next tick fetches (R81). -/
def wordAtPc (s : State) : BitVec 16 := BitVec.ofNat 16 (s.mem.readLe 2 s.pc.toNat)

/-- The legal addressing-mode codes of each opcode number, as the table of R90 lists them. -/
def legalPair (op am : Nat) : Bool :=
  if op = 0x01 ∨ (0x10 ≤ op ∧ op ≤ 0x13) ∨ op = 0x15 then decide (am = 3)
  else if op = 0x14 then decide (am = 2 ∨ am = 3)
  else if op ≤ 0x0F then decide (am = 1 ∨ (4 ≤ am ∧ am ≤ 13))
  else if op = 0x18 ∨ op = 0x1C ∨ op = 0x1E then decide (am = 15)
  else if 0x20 ≤ op ∧ op ≤ 0x2C then decide (am = 14)
  else if op ≤ 0x32 then decide (am = 0)
  else false

/-- A word no instruction has: `SZ = 3`, or an opcode and mode that R90 does not list (R92). -/
abbrev illegalWord (iw : BitVec 16) : Prop :=
  iw.extractLsb' 14 2 = 3 ∨ legalPair (iw.extractLsb' 8 6).toNat (iw.extractLsb' 0 4).toNat = false

/-- The sizes in bytes of the operand groups that follow a legal word, in order, as the table of R87 lists them by
addressing-mode code, `n` from the width selector (R83). -/
def operandGroups (iw : BitVec 16) : List Nat :=
  let n := match (iw.extractLsb' 14 2).toNat with
    | 0 => 4
    | 1 => 2
    | _ => 1
  match (iw.extractLsb' 0 4).toNat with
  | 0 => []
  | 1 | 10 => [1, n]
  | 2 | 14 => [n]
  | 3 | 4 | 8 | 9 => [1]
  | 5 | 6 | 11 | 12 => [1, 4]
  | 7 => [4, n]
  | 13 => [1, 4, n]
  | _ => if (iw.extractLsb' 8 6).toNat = 0x1C then [2, 4] else [4]

/-- The address of operand group `k` of the instruction at `pc`: past the word and the groups before it (R81, R87). -/
def groupAddress (s : State) (k : Nat) : Word :=
  s.pc + 2 + BitVec.ofNat 32 ((operandGroups (wordAtPc s)).take k).sum

/-- Operand group `k` of the instruction at `pc` lies inside the bank (R55). -/
abbrev groupInBank (s : State) (k : Nat) : Prop :=
  s.accessible (groupAddress s k) ((operandGroups (wordAtPc s)).getD k 0)

/-- The instructions that store to memory in some state (R57): a two-operand instruction other than CMP with
a memory destination, PUSH, PUSHA, JSR, BRK, and SYS through its callback. -/
def storesToMemory (i : Instr) : Bool :=
  match i.view with
  | .two op _ f => decide (op ≠ .cmp) && (destReg f).isNone
  | .reg1 op _ _ => decide (op = .push)
  | .pushConst _ _ => true
  | .implied op _ => decide (op = .pusha ∨ op = .brk)
  | .branch _ _ _ => false
  | .direct op _ => decide (op = .jsr)
  | .sys _ _ => true

/-- The writers of Z and N (R31). -/
def writesZN (i : Instr) : Bool :=
  match i.view with
  | .two _ _ _ => true
  | .reg1 op _ _ => decide (op ≠ .push ∧ op ≠ .pop)
  | .pushConst _ _ => false
  | .implied op _ => decide (op = .rti)
  | .branch _ _ _ => false
  | .direct _ _ => false
  | .sys _ _ => false

/-- The additive operations, which write all of Z, N, C, V (R31). -/
def additive : AluOp → Bool
  | .add | .adc | .sub | .sbc | .cmp => true
  | .mov | .and | .or | .xor | .mul | .div | .shl | .shr | .rol | .ror => false

/-- The writers of C (R31). -/
def writesC (i : Instr) : Bool :=
  match i.view with
  | .two op _ _ => additive op
  | .reg1 op _ _ => decide (op = .inc ∨ op = .dec)
  | .pushConst _ _ => false
  | .implied op _ => decide (op = .sec ∨ op = .clc ∨ op = .rti)
  | .branch _ _ _ => false
  | .direct _ _ => false
  | .sys _ _ => false

/-- The writers of V (R31). -/
def writesV (i : Instr) : Bool :=
  match i.view with
  | .two op _ _ => additive op
  | .reg1 op _ _ => decide (op = .inc ∨ op = .dec)
  | .pushConst _ _ => false
  | .implied op _ => decide (op = .sev ∨ op = .clv ∨ op = .rti)
  | .branch _ _ _ => false
  | .direct _ _ => false
  | .sys _ _ => false

end Sys2Proof.Machine
end

