-- ==== Sys2Proof/Certificates/Slice0/Obligations.lean ====
section
/-! DEFINITION. The statements for the provers. A statement about a two-operand instruction speaks of every
instruction whose view is that operation at any width in any of the eleven operand forms, that is of the eleven
constructors of its mnemonic. -/

open Sys2Proof Sys2Proof.Machine

/-! ## Encoding -/

/-- Decoding the canonical encoding of a well-formed instruction gives that instruction, whatever bytes follow, for
all 202 constructors (spec/30_encoding.md R82 to R90). -/
def Obligations.DecodeOfEncodeGivesTheInstruction : Prop :=
  ∀ (i : Instr) (rest : List Byte), i.wf = true → decode (encode i ++ rest) = .ok (i, rest)

/-- The length of every instruction is the one the table of R89 gives for its mode and width. -/
def Obligations.EncodedLengthIsTheTableLength : Prop :=
  ∀ i : Instr,
    (encode i).length =
      match i.view with
      | .sys _ _ => 8
      | v =>
        match v.mode with
        | .implied => 2
        | .regImm => 3 + v.width.bytes
        | .constImm => 2 + v.width.bytes
        | .reg1 | .reg2 | .indSrc | .indDst => 3
        | .absSrc | .absDst | .idxSrc | .idxDst => 7
        | .absConst => 6 + v.width.bytes
        | .indConst => 3 + v.width.bytes
        | .idxConst => 7 + v.width.bytes
        | .relative => 2 + v.width.bytes
        | .direct => 6

/-- A word is accepted exactly when `SZ` is not 3 and its opcode and mode are a legal pair, and a tick whose word can
be fetched raises `InvalidInstruction` exactly on the other words, whatever follows them (R92). -/
def Obligations.ExactlyTheUnlistedWordsAreInvalid : Prop :=
  (∀ iw : BitVec 16, (∃ l, decodeWord iw = .ok l) ↔ ¬ illegalWord iw) ∧
  ∀ s : State, s.asleep = false → s.accessible s.pc 2 →
    (tickException s = some .invalidInstruction ↔ illegalWord (wordAtPc s))

/-- When the bytes at `pc` decode to an instruction, the step is that instruction's meaning with `pc` past its bytes
(R94, R360, R362). -/
def Obligations.StepRunsTheDecodedInstruction : Prop :=
  ∀ (s : State) (i : Instr) (rest : List Byte), s.Inv → s.asleep = false →
    decode (codeBytes s) = .ok (i, rest) →
      step s = exec i (s.setPc (s.pc + BitVec.ofNat 32 ((codeBytes s).length - rest.length)))

/-- The exceptions of the fetch, in the order of R94. A word that leaves the bank takes `InvalidAddress` with `pc`; an
illegal word takes `InvalidInstruction`, wherever its operand bytes would lie; the first operand group that leaves the
bank takes `InvalidAddress` with that group's own address. The exception is taken in the state before the fetch: no
register, flag, latch or byte has changed (R81, R87, R94, R145 row 1, R312 a and b). -/
def Obligations.FetchFaultsAreTakenBeforeAnyEffect : Prop :=
  ∀ s : State, s.asleep = false →
    (¬ s.accessible s.pc 2 → step s = takeException (.invalidAddress s.pc) s) ∧
    (s.accessible s.pc 2 → illegalWord (wordAtPc s) → step s = takeException .invalidInstruction s) ∧
    ∀ k, s.accessible s.pc 2 → ¬ illegalWord (wordAtPc s) → k < (operandGroups (wordAtPc s)).length →
      (∀ j, j < k → groupInBank s j) → ¬ groupInBank s k →
        step s = takeException (.invalidAddress (groupAddress s k)) s

/-- Six byte sequences the spec writes out decode to the instructions it names (R123, R127, R130, R138, R142, R143). -/
def Obligations.WrittenOutBytesDecode : Prop :=
  decode [0x01, 0x00, 0x00, 0x2A, 0x00, 0x00, 0x00] = .ok (.movRegImm .dword 0 0x2A, []) ∧
  decode [0x07, 0x00, 0x00, 0x10, 0x00, 0x00, 0x78, 0x56, 0x34, 0x12] =
    .ok (.movAbsConst .dword 0x1000 0x12345678, []) ∧
  decode [0x1A, 0x40, 0x04, 0xEF, 0xBE] = .ok (.movIndConst .word ⟨false, true⟩ 4 0xBEEF, []) ∧
  decode [0x0D, 0x80, 0x05, 0x10, 0x00, 0x00, 0x00, 0x7F] = .ok (.movIdxConst .byte 5 0x10 0x7F, []) ∧
  decode [0x0E, 0xA0, 0xFD] = .ok (.bra .byte 0xFD, []) ∧
  decode [0x0F, 0x1C, 0x34, 0x12, 0x00, 0x80, 0x00, 0x00] = .ok (.sys 0x1234 0x8000, [])

/-! ## Invariants and whole-machine rules -/

/-- A step keeps the invariant and the capacity of the bank. -/
def Obligations.StepKeepsTheInvariant : Prop :=
  ∀ s t : State, s.Inv → step s = .next t → t.Inv ∧ t.mem.cap = s.mem.cap

/-- No event stops the machine, and every event keeps the invariant (spec/93_implementation_defined.md: every state
has a defined transition for every event). -/
def Obligations.EveryEventHasASuccessorKeepingTheInvariant : Prop :=
  ∀ (e : Event) (s : State), s.Inv → ∃ t, applyEvent e s = .next t ∧ t.Inv ∧ t.mem.cap = s.mem.cap

/-- In every state that events reach from power-on with a legal capacity the invariant holds and a tick has a
successor. The runs include events before the first reset, which the spec leaves outside its domain and the model runs
by the ordinary rules (assumption log 7, DESIGN CHOICE). -/
def Obligations.ReachableStatesAreGoodAndNeverStop : Prop :=
  ∀ s : State, Reachable s → s.Inv ∧ ∃ t, step s = .next t

/-- The state after reset satisfies the invariant, and it is what the reset event makes of the power-on state of the
reference bank (R37). -/
def Obligations.ResetStateIsTheResetPowerOnState : Prop :=
  State.reset.Inv ∧ resetEvent (State.powerOn Config.referenceCapacity) = .next State.reset

/-- Only SLP puts an awake machine to sleep (R333). -/
def Obligations.OnlySlpPutsTheMachineToSleep : Prop :=
  ∀ s t : State, s.asleep = false → step s = .next t → t.asleep = true → ∃ pc, fetch s = .ok (.slp, pc)

/-- An instruction writes only the flags that R31 lists it under, also when it raises an exception. -/
def Obligations.OnlyTheListedInstructionsWriteAFlag : Prop :=
  ∀ (i : Instr) (s t : State), exec i s = .next t →
    (writesZN i = false → t.flags.z = s.flags.z ∧ t.flags.n = s.flags.n) ∧
    (writesC i = false → t.flags.c = s.flags.c) ∧
    (writesV i = false → t.flags.v = s.flags.v) ∧
    (i ≠ .brk → i ≠ .rti → t.flags.b = s.flags.b) ∧
    (i ≠ .sei → i ≠ .cli → i ≠ .rti → t.flags.i = s.flags.i)

/-- Only the storing instructions change memory; no instruction changes the callback registration. -/
def Obligations.OnlyStoringInstructionsChangeMemory : Prop :=
  ∀ (i : Instr) (s t : State), exec i s = .next t →
    (storesToMemory i = false → t.mem = s.mem) ∧ t.callback = s.callback

/-! ## Memory and registers -/

/-- `MemRead`: outside the bank it raises `InvalidAddress` with the first address; inside it answers the bytes
little-endian; a read through the port, failing or not, changes nothing (R53). -/
def Obligations.ReadChecksTheBankAndIsLittleEndian : Prop :=
  ∀ (m : Memory) (a : Word),
    (∀ n, m.cap < a.toNat + n → m.read n a = .error (.invalidAddress a)) ∧
    (a.toNat + 1 ≤ m.cap → m.read 1 a = .ok (m.byte a.toNat).toNat) ∧
    (a.toNat + 2 ≤ m.cap →
      m.read 2 a = .ok ((m.byte a.toNat).toNat + (m.byte (a.toNat + 1)).toNat * 2 ^ 8)) ∧
    (a.toNat + 4 ≤ m.cap →
      m.read 4 a = .ok ((m.byte a.toNat).toNat + (m.byte (a.toNat + 1)).toNat * 2 ^ 8 +
        (m.byte (a.toNat + 2)).toNat * 2 ^ 16 + (m.byte (a.toNat + 3)).toNat * 2 ^ 24)) ∧
    ∀ (w : Width) (s : State), applyEvent (.portRead w a) s = .next s

/-- `MemWrite`: outside the bank it raises and writes nothing; inside, byte `k` of the access holds bits `8k+7` to
`8k` of the value and every other byte is as before (R54). That the bank stays canonical is about the model's own form
of the bank (assumption log 3, DESIGN CHOICE), no rule of the spec. -/
def Obligations.WriteStoresExactlyItsBytes : Prop :=
  ∀ (m : Memory) (n : Nat) (a : Word) (v : Nat),
    (m.cap < a.toNat + n → m.write n a v = .error (.invalidAddress a)) ∧
    (m.wf = true → a.toNat + n ≤ m.cap →
      ∃ m', m.write n a v = .ok m' ∧ m'.wf = true ∧ m'.cap = m.cap ∧
        (∀ k, k < n → m'.byte (a.toNat + k) = BitVec.ofNat 8 (v / 2 ^ (8 * k))) ∧
        (∀ x, x < a.toNat ∨ a.toNat + n ≤ x → m'.byte x = m.byte x) ∧
        m'.read n a = .ok (v % 2 ^ (8 * n)))

/-- A register write of width `W` replaces the low `W` bits and keeps the others, touches no other register, and a read
of that width sees what was written (R24). -/
def Obligations.NarrowWritesKeepTheUpperBits : Prop :=
  ∀ (s : State) (r : Reg) (w : Width) (v : BitVec w.bits),
    (∀ k, k < 32 → ((s.regWrite r w v).reg r).getLsbD k =
      if k < w.bits then v.getLsbD k else (s.reg r).getLsbD k) ∧
    (∀ q, q ≠ r → (s.regWrite r w v).reg q = s.reg q) ∧
    (s.regWrite r w v).regRead r w = v

/-- The flags byte packs the six flags from bit 0 as Z, N, C, V, B, I with bits 6 and 7 zero, and unpacking discards
those two bits (R28). -/
def Obligations.FlagsBytePacksTheSixFlags : Prop :=
  (∀ f : Flags, f.toByte.getLsbD 0 = f.z ∧ f.toByte.getLsbD 1 = f.n ∧ f.toByte.getLsbD 2 = f.c ∧
    f.toByte.getLsbD 3 = f.v ∧ f.toByte.getLsbD 4 = f.b ∧ f.toByte.getLsbD 5 = f.i ∧
    f.toByte.getLsbD 6 = false ∧ f.toByte.getLsbD 7 = false) ∧
  (∀ f : Flags, Flags.ofByte f.toByte = f) ∧
  ∀ b : Byte, (Flags.ofByte b).toByte = b &&& 0x3F

/-! ## The two-operand instructions: operands, completion and results -/

/-- MOV in each of its eleven forms: what is read, what is written where, Z and N from the value moved, the base register
adjusted before and after (R122 to R138, R161). -/
def Obligations.MovMovesTheSourceInEveryForm : Prop :=
  ∀ (w : Width) (s : State) (adj : Adjust) (ra rb : Reg) (c addr off : Word),
    exec (.movRegImm w ra c) s =
      .next ((s.regWrite ra w (c.setWidth w.bits)).withFlags (withNZ s.flags (c.setWidth w.bits))) ∧
    exec (.movReg2 w ra rb) s =
      .next ((s.regWrite ra w (s.regRead rb w)).withFlags (withNZ s.flags (s.regRead rb w))) ∧
    (s.accessible addr w.bytes →
      exec (.movAbsSrc w ra addr) s =
        (let v := BitVec.ofNat w.bits (s.mem.readLe w.bytes addr.toNat)
         .next ((s.regWrite ra w v).withFlags (withNZ s.flags v))) ∧
      exec (.movAbsDst w addr rb) s =
        .next ((s.stored w.bytes addr (s.regRead rb w).toNat).withFlags
          (withNZ s.flags (s.regRead rb w))) ∧
      exec (.movAbsConst w addr c) s =
        .next ((s.stored w.bytes addr c.toNat).withFlags (withNZ s.flags (c.setWidth w.bits)))) ∧
    (s.accessible ((decremented w adj rb s).reg rb) w.bytes →
      exec (.movIndSrc w adj ra rb) s =
        (let s1 := decremented w adj rb s
         let v := BitVec.ofNat w.bits (s.mem.readLe w.bytes (s1.reg rb).toNat)
         .next (incremented w adj rb ((s1.regWrite ra w v).withFlags (withNZ s.flags v))))) ∧
    (s.accessible ((decremented w adj ra s).reg ra) w.bytes →
      exec (.movIndDst w adj ra rb) s =
        (let s1 := decremented w adj ra s
         .next (incremented w adj ra ((s1.stored w.bytes (s1.reg ra) (s1.regRead rb w).toNat).withFlags
           (withNZ s.flags (s1.regRead rb w))))) ∧
      exec (.movIndConst w adj ra c) s =
        (let s1 := decremented w adj ra s
         .next (incremented w adj ra ((s1.stored w.bytes (s1.reg ra) c.toNat).withFlags
           (withNZ s.flags (c.setWidth w.bits)))))) ∧
    (s.accessible (s.reg rb + off) w.bytes →
      exec (.movIdxSrc w ra rb off) s =
        (let v := BitVec.ofNat w.bits (s.mem.readLe w.bytes (s.reg rb + off).toNat)
         .next ((s.regWrite ra w v).withFlags (withNZ s.flags v)))) ∧
    (s.accessible (s.reg ra + off) w.bytes →
      exec (.movIdxDst w ra off rb) s =
        .next ((s.stored w.bytes (s.reg ra + off) (s.regRead rb w).toNat).withFlags
          (withNZ s.flags (s.regRead rb w))) ∧
      exec (.movIdxConst w ra off c) s =
        .next ((s.stored w.bytes (s.reg ra + off) c.toNat).withFlags
          (withNZ s.flags (c.setWidth w.bits))))

/-- The operands of every form: whenever the memory operand, if there is one, lies inside the bank, both are readable; a
register operand is the register's low part, a constant its low part, a memory operand the bytes at the effective
address (R122 steps 3 to 5, R123 to R138). -/
def Obligations.OperandsInsideTheBankAreReadable : Prop :=
  ∀ (w : Width) (f : TwoForm) (s : State), operandInBank w f s →
    let atAddress := fun ea : Word => BitVec.ofNat w.bits (s.mem.readLe w.bytes ea.toNat)
    ∃ a b, destValue w f s = .ok a ∧ sourceValue w f s = .ok b ∧
      match f with
      | .regImm ra c => a = s.regRead ra w ∧ b = c.setWidth w.bits
      | .reg2 ra rb => a = s.regRead ra w ∧ b = s.regRead rb w
      | .absSrc ra addr => a = s.regRead ra w ∧ b = atAddress addr
      | .absDst addr rb => a = atAddress addr ∧ b = s.regRead rb w
      | .absConst addr c => a = atAddress addr ∧ b = c.setWidth w.bits
      | .indSrc _ ra rb => a = s.regRead ra w ∧ b = atAddress (s.reg rb)
      | .indDst _ ra rb => a = atAddress (s.reg ra) ∧ b = s.regRead rb w
      | .indConst _ ra c => a = atAddress (s.reg ra) ∧ b = c.setWidth w.bits
      | .idxSrc ra rb off => a = s.regRead ra w ∧ b = atAddress (s.reg rb + off)
      | .idxDst ra off rb => a = atAddress (s.reg ra + off) ∧ b = s.regRead rb w
      | .idxConst ra off c => a = atAddress (s.reg ra + off) ∧ b = c.setWidth w.bits

/-- Every two-operand instruction, all 165 constructors, completes whenever its memory operand, if it has one, lies inside
the bank and, for DIV, the divisor is not zero: the outcome of the ALU lands (R122, R145, R314). -/
def Obligations.TwoOperandInstructionsCompleteInsideTheBank : Prop :=
  ∀ (i : Instr) (op : AluOp) (w : Width) (f : TwoForm) (s : State), i.view = .two op w f →
    operandInBank w f (preDecrement w f s) →
    (op = .div → sourceValue w f (preDecrement w f s) ≠ .ok 0) →
      ∃ out, exec i s = .next (afterAlu op w f out (preDecrement w f s))

/-- ADD and ADC, all 22 constructors: the sum modulo `2^W` with its four flags (R181 to R183). -/
def Obligations.AddAndAdcAddAtTheOperandWidth : Prop :=
  ∀ (i : Instr) (op : AluOp) (w : Width) (f : TwoForm) (s : State) (a b : BitVec w.bits) (cin : Bool),
    (op = .add ∧ cin = false) ∨ (op = .adc ∧ cin = s.flags.c) → i.view = .two op w f →
    destValue w f (preDecrement w f s) = .ok a → sourceValue w f (preDecrement w f s) = .ok b →
      exec i s =
        (let r := a + b + BitVec.ofNat w.bits cin.toNat
         let st := a.toInt + b.toInt + (cin.toNat : Int)
         .next (afterAlu op w f
          { r := r
            flags := { withNZ s.flags r with
              c := decide (2 ^ w.bits - 1 < a.toNat + b.toNat + cin.toNat)
              v := outsideSigned w.bits st }
            side := none } (preDecrement w f s)))

/-- SUB, SBC and CMP, all 33 constructors: the difference modulo `2^W` with its four flags, Carry the borrow (R181, R184
to R186). That CMP stores nothing is said by the frame statements. -/
def Obligations.SubSbcAndCmpSubtractAtTheOperandWidth : Prop :=
  ∀ (i : Instr) (op : AluOp) (w : Width) (f : TwoForm) (s : State) (a b : BitVec w.bits) (bin : Bool),
    ((op = .sub ∨ op = .cmp) ∧ bin = false) ∨ (op = .sbc ∧ bin = s.flags.c) → i.view = .two op w f →
    destValue w f (preDecrement w f s) = .ok a → sourceValue w f (preDecrement w f s) = .ok b →
      exec i s =
        (let r := a - b - BitVec.ofNat w.bits bin.toNat
         let st := a.toInt - b.toInt - (bin.toNat : Int)
         .next (afterAlu op w f
          { r := r
            flags := { withNZ s.flags r with
              c := decide (a.toNat < b.toNat + bin.toNat)
              v := outsideSigned w.bits st }
            side := none } (preDecrement w f s)))

/-- AND, OR and XOR, all 33 constructors: the bitwise result, Z and N from it (R210 to R213). -/
def Obligations.LogicInstructionsAreBitwise : Prop :=
  ∀ (i : Instr) (op : AluOp) (w : Width) (f : TwoForm) (s : State) (a b r : BitVec w.bits),
    (op = .and ∧ r = a &&& b) ∨ (op = .or ∧ r = a ||| b) ∨ (op = .xor ∧ r = a ^^^ b) →
    i.view = .two op w f →
    destValue w f (preDecrement w f s) = .ok a → sourceValue w f (preDecrement w f s) = .ok b →
      exec i s =
        .next (afterAlu op w f { r := r, flags := withNZ s.flags r, side := none } (preDecrement w f s))

/-- SHL, SHR, ROL and ROR, all 44 constructors: shift or rotate by the amount modulo the width, Z and N from the result
(R210, R214 to R218). -/
def Obligations.ShiftsAndRotatesReduceTheAmount : Prop :=
  ∀ (i : Instr) (op : AluOp) (w : Width) (f : TwoForm) (s : State) (a b r : BitVec w.bits),
    (op = .shl ∧ r = a <<< (b.toNat % w.bits)) ∨ (op = .shr ∧ r = a >>> (b.toNat % w.bits)) ∨
      (op = .rol ∧ r = a.rotateLeft (b.toNat % w.bits)) ∨
      (op = .ror ∧ r = a.rotateRight (b.toNat % w.bits)) →
    i.view = .two op w f →
    destValue w f (preDecrement w f s) = .ok a → sourceValue w f (preDecrement w f s) = .ok b →
      exec i s =
        .next (afterAlu op w f { r := r, flags := withNZ s.flags r, side := none } (preDecrement w f s))

/-- MUL, all eleven constructors: the low half of the exact product is the result, the high half the side value, Z and N
from the low half (R188). -/
def Obligations.MulSplitsTheExactProduct : Prop :=
  ∀ (i : Instr) (w : Width) (f : TwoForm) (s : State) (a b : BitVec w.bits), i.view = .two .mul w f →
    destValue w f (preDecrement w f s) = .ok a → sourceValue w f (preDecrement w f s) = .ok b →
      ∃ r side : BitVec w.bits,
        r.toNat + side.toNat * 2 ^ w.bits = a.toNat * b.toNat ∧
        exec i s =
          .next (afterAlu .mul w f { r := r, flags := withNZ s.flags r, side := some side }
            (preDecrement w f s))

/-- DIV with a nonzero divisor, all eleven constructors: the unsigned quotient is the result, the remainder the side
value, Z and N from the quotient (R189). -/
def Obligations.DivGivesQuotientAndRemainder : Prop :=
  ∀ (i : Instr) (w : Width) (f : TwoForm) (s : State) (a b : BitVec w.bits), i.view = .two .div w f →
    destValue w f (preDecrement w f s) = .ok a → sourceValue w f (preDecrement w f s) = .ok b → b ≠ 0 →
      ∃ q rem : BitVec w.bits,
        a.toNat = q.toNat * b.toNat + rem.toNat ∧ rem.toNat < b.toNat ∧
        exec i s =
          .next (afterAlu .div w f { r := q, flags := withNZ s.flags q, side := some rem }
            (preDecrement w f s))

/-- Where an ALU outcome lands. Every register, in this order: register 13 takes the zero-extended side value, the
destination register's low part takes the result unless the instruction is CMP, the post-incremented base is `n`
higher; then what this says of a destination, of register 13 and of an adjusted base that is nothing else besides. The
flags are the outcome's; the result stands in the bytes at the effective address of a memory destination; CMP and a
register destination store nothing (R122 steps 7 to 9, R134, R135, R186, R188). -/
def Obligations.OutcomeLandsInDestinationSideAndFlags : Prop :=
  ∀ (op : AluOp) (w : Width) (f : TwoForm) (out : AluOut w.bits) (s : State), s.Inv → operandInBank w f s →
    (afterAlu op w f out s).flags = out.flags ∧
    (∀ q, (afterAlu op w f out s).reg q =
      let sided := if q = sideReg then (match out.side with | some v => v.setWidth 32 | none => s.reg q) else s.reg q
      let written := if op ≠ .cmp ∧ destReg f = some q then replaceLow sided out.r else sided
      match adjustedBase f with
      | some (adj, r) => if adj.post = true ∧ r = q then written + BitVec.ofNat 32 w.bytes else written
      | none => written) ∧
    (∀ ra, destReg f = some ra → op ≠ .cmp → ra ≠ sideReg → (∀ adj, adjustedBase f ≠ some (adj, ra)) →
      (afterAlu op w f out s).reg ra = replaceLow (s.reg ra) out.r) ∧
    (∀ v, out.side = some v → destReg f ≠ some sideReg →
      (∀ adj, adjustedBase f = some (adj, sideReg) → adj.post = false) →
      (afterAlu op w f out s).reg sideReg = v.setWidth 32) ∧
    (∀ adj r, adjustedBase f = some (adj, r) → destReg f ≠ some r → r ≠ sideReg →
      (afterAlu op w f out s).reg r = if adj.post = true then s.reg r + BitVec.ofNat 32 w.bytes else s.reg r) ∧
    (∀ ea, op ≠ .cmp → destReg f = none → memAddr f s = some ea →
      (afterAlu op w f out s).mem.readLe w.bytes ea.toNat = out.r.toNat) ∧
    (op = .cmp ∨ destReg f ≠ none → (afterAlu op w f out s).mem = s.mem)

/-- After CMP the flags order the operands, unsigned and signed, so that each of the thirteen branches tests what its
entry in the table of R253 names: BRA nothing, the others the equality, the orders, the sign of the stored-width result
and the signed overflow (R186, R253). -/
def Obligations.BranchesAfterCmpTestTheRelation : Prop :=
  ∀ (i : Instr) (w : Width) (f : TwoForm) (s t : State) (a b : BitVec w.bits), i.view = .two .cmp w f →
    destValue w f (preDecrement w f s) = .ok a → sourceValue w f (preDecrement w f s) = .ok b →
    exec i s = .next t →
    condHolds .bra t.flags = true ∧
    (condHolds .beq t.flags = true ↔ a = b) ∧ (condHolds .bne t.flags = true ↔ a ≠ b) ∧
    (condHolds .bcc t.flags = true ↔ b.toNat ≤ a.toNat) ∧ (condHolds .bcs t.flags = true ↔ a.toNat < b.toNat) ∧
    (condHolds .bpl t.flags = true ↔ 0 ≤ (a - b).toInt) ∧ (condHolds .bmi t.flags = true ↔ (a - b).toInt < 0) ∧
    (condHolds .bvc t.flags = true ↔ outsideSigned w.bits (a.toInt - b.toInt) = false) ∧
    (condHolds .bvs t.flags = true ↔ outsideSigned w.bits (a.toInt - b.toInt) = true) ∧
    (condHolds .blt t.flags = true ↔ a.toInt < b.toInt) ∧ (condHolds .bgt t.flags = true ↔ b.toInt < a.toInt) ∧
    (condHolds .ble t.flags = true ↔ a.toInt ≤ b.toInt) ∧ (condHolds .bge t.flags = true ↔ b.toInt ≤ a.toInt)

/-- ADD on the low words followed by ADC on the high words adds double words, and SUB followed by SBC subtracts them
(R181). -/
def Obligations.CarryAndBorrowChainDoubleWords : Prop :=
  ∀ (W : Nat) (alo ahi blo bhi : BitVec W) (f : Flags),
    (let lo := aluAdd alo blo false f
     let hi := aluAdd ahi bhi lo.flags.c lo.flags
     hi.r ++ lo.r = (ahi ++ alo) + (bhi ++ blo)) ∧
    (let lo := aluSub alo blo false f
     let hi := aluSub ahi bhi lo.flags.c lo.flags
     hi.r ++ lo.r = (ahi ++ alo) - (bhi ++ blo))

/-! ## The two-operand instructions: frames and exceptions -/

/-- A two-operand instruction changes no register but its destination, its adjusted base, register 13 for MUL and DIV, and
`pc`; CMP does not change its destination; sleep latch, callback and the model's callback counter (assumption log 2) stay. -/
def Obligations.TwoOperandRegisterFrame : Prop :=
  ∀ (i : Instr) (op : AluOp) (w : Width) (f : TwoForm) (s t : State), i.view = .two op w f → exec i s = .next t →
    (∀ r, r ≠ pcReg → (destReg f ≠ some r ∨ op = .cmp) → (∀ adj, adjustedBase f ≠ some (adj, r)) →
      ((op ≠ .mul ∧ op ≠ .div) ∨ r ≠ sideReg) → t.reg r = s.reg r) ∧
    t.asleep = s.asleep ∧ t.callback = s.callback ∧ t.syscalls = s.syscalls

/-- A two-operand instruction changes no byte of memory but the `n` bytes at its effective address, taken after the
pre-decrement; with a register destination, and for CMP, no byte at all. -/
def Obligations.TwoOperandMemoryFrame : Prop :=
  ∀ (i : Instr) (op : AluOp) (w : Width) (f : TwoForm) (s t : State), s.Inv → i.view = .two op w f →
    exec i s = .next t →
    t.mem.cap = s.mem.cap ∧
    (op = .cmp ∨ destReg f ≠ none → ∀ x, t.mem.byte x = s.mem.byte x) ∧
    ∀ ea, memAddr f (preDecrement w f s) = some ea →
      ∀ x, x < ea.toNat ∨ ea.toNat + w.bytes ≤ x → t.mem.byte x = s.mem.byte x

/-- A two-operand instruction whose memory operand is outside the bank takes `InvalidAddress` with the effective address;
a pre-decrement has happened and nothing else (R145, R315, R317). -/
def Obligations.OperandOutsideTheBankTakesInvalidAddress : Prop :=
  ∀ (i : Instr) (op : AluOp) (w : Width) (f : TwoForm) (s : State) (ea : Word), i.view = .two op w f →
    memAddr f (preDecrement w f s) = some ea → ¬ s.accessible ea w.bytes →
      exec i s = takeException (.invalidAddress ea) (preDecrement w f s)

/-- DIV by zero takes `DivisionByZero` with nothing written but a pre-decrement (R189, R314). -/
def Obligations.DivByZeroTakesDivisionByZero : Prop :=
  ∀ (i : Instr) (w : Width) (f : TwoForm) (s : State), i.view = .two .div w f →
    operandInBank w f (preDecrement w f s) → sourceValue w f (preDecrement w f s) = .ok 0 →
      exec i s = takeException .divisionByZero (preDecrement w f s)

/-! ## The one-register instructions -/

/-- CLR clears the low part of its register, sets Z, clears N, and changes nothing else (R162). SXB and SXW write the
sign-extended low byte or word over the whole register, Z and N from the 32-bit result (R163, R164). -/
def Obligations.ClrClearsAndSxbAndSxwSignExtend : Prop :=
  ∀ (w : Width) (ra : Reg) (s : State),
    exec (.clr w ra) s = .next ((s.regWrite ra w 0).withFlags { s.flags with z := true, n := false }) ∧
    exec (.sxb ra) s =
      (let v := BitVec.ofInt 32 ((s.reg ra).setWidth 8).toInt
       .next ((s.setReg ra v).withFlags (withNZ s.flags v))) ∧
    exec (.sxw ra) s =
      (let v := BitVec.ofInt 32 ((s.reg ra).setWidth 16).toInt
       .next ((s.setReg ra v).withFlags (withNZ s.flags v)))

/-- INC and DEC add and subtract 1 at the operand width with all four flags and change nothing else (R190, R191). -/
def Obligations.IncAndDecStepByOne : Prop :=
  ∀ (w : Width) (ra : Reg) (s : State),
    exec (.inc w ra) s =
      (let a := s.regRead ra w
       .next ((s.regWrite ra w (a + 1)).withFlags { withNZ s.flags (a + 1) with
         c := decide (a.toNat + 1 = 2 ^ w.bits), v := outsideSigned w.bits (a.toInt + 1) })) ∧
    exec (.dec w ra) s =
      (let a := s.regRead ra w
       .next ((s.regWrite ra w (a - 1)).withFlags { withNZ s.flags (a - 1) with
         c := decide (a.toNat = 0), v := outsideSigned w.bits (a.toInt - 1) }))

/-! ## The stack instructions -/

/-- PUSH moves `sp` down by the operand width and stores the low part of the register, read before, or the constant
there; nothing else changes. Outside the bank it takes `InvalidAddress` with the decremented `sp`, which stays
decremented (R230, R232, R315). -/
def Obligations.PushStoresBelowTheStackPointer : Prop :=
  ∀ (w : Width) (ra : Reg) (c : Word) (s : State),
    let sp' := s.sp - BitVec.ofNat 32 w.bytes
    (s.accessible sp' w.bytes →
      exec (.pushReg w ra) s = .next ((s.setSp sp').stored w.bytes sp' (s.regRead ra w).toNat) ∧
      exec (.pushConst w c) s = .next ((s.setSp sp').stored w.bytes sp' c.toNat)) ∧
    (¬ s.accessible sp' w.bytes →
      exec (.pushReg w ra) s = takeException (.invalidAddress sp') (s.setSp sp') ∧
      exec (.pushConst w c) s = takeException (.invalidAddress sp') (s.setSp sp'))

/-- POP reads at `sp`, moves `sp` up by the operand width, then writes the register's low part; outside the bank it takes
`InvalidAddress` with nothing changed (R231, R233). -/
def Obligations.PopLoadsFromTheStackPointer : Prop :=
  ∀ (w : Width) (ra : Reg) (s : State),
    (s.accessible s.sp w.bytes →
      exec (.pop w ra) s =
        .next ((s.setSp (s.sp + BitVec.ofNat 32 w.bytes)).regWrite ra w
          (BitVec.ofNat w.bits (s.mem.readLe w.bytes s.sp.toNat)))) ∧
    (¬ s.accessible s.sp w.bytes → exec (.pop w ra) s = takeException (.invalidAddress s.sp) s)

/-- `PUSH r; POP r'` at one width leaves `sp` as it was, but for the write to `r'`, and `r'` gets the low part `r` had,
its upper bits kept; nothing else changes but the stored bytes (R236). -/
def Obligations.PushThenPopMovesTheLowPart : Prop :=
  ∀ (w : Width) (r r' : Reg) (s : State), s.Inv → s.accessible (s.sp - BitVec.ofNat 32 w.bytes) w.bytes →
    ∃ t, exec (.pushReg w r) s = .next t ∧
      exec (.pop w r') t = .next ((s.withMem t.mem).regWrite r' w (s.regRead r w))

/-- PUSHA: `sp` moves down by `14 n`, register `k` stands in the `k+1`-th item below the old `sp`, every byte outside the
fourteen items and everything else is as before (R234); the callback counter is the model's own (assumption log 2). -/
def Obligations.PushaStoresRegistersZeroToThirteen : Prop :=
  ∀ (w : Width) (s : State), s.Inv →
    (∀ k, k < 14 → s.accessible (s.sp - BitVec.ofNat 32 (w.bytes * (k + 1))) w.bytes) →
    ∃ t, exec (.pusha w) s = .next t ∧
      t.sp = s.sp - BitVec.ofNat 32 (14 * w.bytes) ∧
      (∀ r, r ≠ spReg → t.reg r = s.reg r) ∧
      (∀ k : Reg, k.val < 14 →
        t.mem.readLe w.bytes (s.sp - BitVec.ofNat 32 (w.bytes * (k.val + 1))).toNat = (s.regRead k w).toNat) ∧
      (∀ x, (∀ k, k < 14 →
          x < (s.sp - BitVec.ofNat 32 (w.bytes * (k + 1))).toNat ∨
          (s.sp - BitVec.ofNat 32 (w.bytes * (k + 1))).toNat + w.bytes ≤ x) → t.mem.byte x = s.mem.byte x) ∧
      t.mem.cap = s.mem.cap ∧ t.flags = s.flags ∧ t.asleep = s.asleep ∧
      t.callback = s.callback ∧ t.syscalls = s.syscalls

/-- POPA: `sp` moves up by `14 n`, register `k` takes in its low part the item that PUSHA left for it, and everything else
is as before (R235); the callback counter is the model's own (assumption log 2). -/
def Obligations.PopaLoadsRegistersThirteenToZero : Prop :=
  ∀ (w : Width) (s : State),
    (∀ k, k < 14 → s.accessible (s.sp + BitVec.ofNat 32 (w.bytes * k)) w.bytes) →
    ∃ t, exec (.popa w) s = .next t ∧
      t.sp = s.sp + BitVec.ofNat 32 (14 * w.bytes) ∧ t.pc = s.pc ∧
      (∀ k : Reg, k.val < 14 → t.reg k = replaceLow (s.reg k)
        (BitVec.ofNat w.bits
          (s.mem.readLe w.bytes (s.sp + BitVec.ofNat 32 (w.bytes * (13 - k.val))).toNat))) ∧
      t.mem = s.mem ∧ t.flags = s.flags ∧ t.asleep = s.asleep ∧
      t.callback = s.callback ∧ t.syscalls = s.syscalls

/-- PUSHA and POPA when an access leaves the bank, `k` being the first of the fourteen that does: `InvalidAddress` is
taken with that access's address, which `sp` holds. PUSHA has stored registers 0 to `k - 1` in their items and no other
byte; POPA has loaded the last `k` of registers 0 to 13 and no other register; nothing is undone (R230, R231, R234, R235,
R315). The callback counter is the model's own (assumption log 2). -/
def Obligations.PushaAndPopaOutsideTheBankKeepWhatTheyDid : Prop :=
  ∀ (w : Width) (s : State) (k : Nat), s.Inv → k < 14 →
    (let item := fun j : Nat => s.sp - BitVec.ofNat 32 (w.bytes * (j + 1))
     (∀ j, j < k → s.accessible (item j) w.bytes) → ¬ s.accessible (item k) w.bytes →
       ∃ u, exec (.pusha w) s = takeException (.invalidAddress (item k)) u ∧
        u.sp = item k ∧ (∀ r, r ≠ spReg → u.reg r = s.reg r) ∧
        (∀ j : Reg, j.val < k → u.mem.readLe w.bytes (item j.val).toNat = (s.regRead j w).toNat) ∧
        (∀ x, (∀ j, j < k → x < (item j).toNat ∨ (item j).toNat + w.bytes ≤ x) → u.mem.byte x = s.mem.byte x) ∧
        u.mem.cap = s.mem.cap ∧ u.flags = s.flags ∧ u.asleep = s.asleep ∧
        u.callback = s.callback ∧ u.syscalls = s.syscalls) ∧
    (let item := fun j : Nat => s.sp + BitVec.ofNat 32 (w.bytes * j)
     (∀ j, j < k → s.accessible (item j) w.bytes) → ¬ s.accessible (item k) w.bytes →
       ∃ u, exec (.popa w) s = takeException (.invalidAddress (item k)) u ∧
        u.sp = item k ∧ u.pc = s.pc ∧
        (∀ r : Reg, r.val < 14 → u.reg r =
          if 13 - r.val < k then
            replaceLow (s.reg r) (BitVec.ofNat w.bits (s.mem.readLe w.bytes (item (13 - r.val)).toNat))
          else s.reg r) ∧
        u.mem = s.mem ∧ u.flags = s.flags ∧ u.asleep = s.asleep ∧
        u.callback = s.callback ∧ u.syscalls = s.syscalls)

/-- `PUSHA` then `POPA` at one width restores every register and `sp`; only memory below the old `sp` differs (R236). -/
def Obligations.PushaThenPopaRestoresEverything : Prop :=
  ∀ (w : Width) (s : State), s.Inv →
    (∀ k, k < 14 → s.accessible (s.sp - BitVec.ofNat 32 (w.bytes * (k + 1))) w.bytes) →
    ∃ t, exec (.pusha w) s = .next t ∧ exec (.popa w) t = .next (s.withMem t.mem)

/-! ## Control transfer -/

/-- JMP loads `pc` with its address, unchecked, and changes nothing else. JSR stores the address of the next instruction in
the four bytes below `sp` and jumps; when they are outside the bank it takes `InvalidAddress`, `sp` decremented and no
jump (R254, R255). -/
def Obligations.JmpJumpsAndJsrPushesTheReturnAddress : Prop :=
  ∀ (addr : Word) (s : State),
    exec (.jmp addr) s = .next (s.setPc addr) ∧
    (s.accessible (s.sp - 4) 4 →
      exec (.jsr addr) s = .next (((s.setSp (s.sp - 4)).stored 4 (s.sp - 4) s.pc.toNat).setPc addr)) ∧
    (¬ s.accessible (s.sp - 4) 4 →
      exec (.jsr addr) s = takeException (.invalidAddress (s.sp - 4)) (s.setSp (s.sp - 4)))

/-- RTS loads `pc` from the four bytes at `sp` and moves `sp` past them; outside the bank it takes `InvalidAddress` with
nothing changed (R256). -/
def Obligations.RtsPopsThePc : Prop :=
  ∀ s : State,
    (s.accessible s.sp 4 →
      exec .rts s = .next ((s.setSp (s.sp + 4)).setPc (BitVec.ofNat 32 (s.mem.readLe 4 s.sp.toNat)))) ∧
    (¬ s.accessible s.sp 4 → exec .rts s = takeException (.invalidAddress s.sp) s)

/-- A routine entered by JSR that returns by RTS at once comes back to the next instruction with every register as
before; only the four bytes below `sp` differ (R255, R256). -/
def Obligations.JsrThenRtsReturns : Prop :=
  ∀ (addr : Word) (s : State), s.Inv → s.accessible (s.sp - 4) 4 →
    ∃ t, exec (.jsr addr) s = .next t ∧ t.pc = addr ∧ exec .rts t = .next (s.withMem t.mem)

/-- Each of the thirteen branches adds its sign-extended displacement to the address of the next instruction exactly when
its condition holds, and changes nothing else (R252, R253). -/
def Obligations.BranchesAddTheDisplacementWhenTaken : Prop :=
  ∀ (w : Width) (disp : Word) (s : State),
    let taken := s.setPc (s.pc + BitVec.ofInt 32 (disp.setWidth w.bits).toInt)
    exec (.bra w disp) s = .next taken ∧
    exec (.beq w disp) s = .next (if s.flags.z = true then taken else s) ∧
    exec (.bne w disp) s = .next (if s.flags.z = false then taken else s) ∧
    exec (.bcc w disp) s = .next (if s.flags.c = false then taken else s) ∧
    exec (.bcs w disp) s = .next (if s.flags.c = true then taken else s) ∧
    exec (.bpl w disp) s = .next (if s.flags.n = false then taken else s) ∧
    exec (.bmi w disp) s = .next (if s.flags.n = true then taken else s) ∧
    exec (.bvc w disp) s = .next (if s.flags.v = false then taken else s) ∧
    exec (.bvs w disp) s = .next (if s.flags.v = true then taken else s) ∧
    exec (.blt w disp) s = .next (if s.flags.n ≠ s.flags.v then taken else s) ∧
    exec (.bgt w disp) s = .next (if s.flags.z = false ∧ s.flags.n = s.flags.v then taken else s) ∧
    exec (.ble w disp) s = .next (if s.flags.z = true ∨ s.flags.n ≠ s.flags.v then taken else s) ∧
    exec (.bge w disp) s = .next (if s.flags.n = s.flags.v then taken else s)

/-! ## The system instructions -/

/-- BRK pushes the frame with the flags as they were and the address of the next instruction, sets Break and no other
flag, and loads `pc` from the software-IRQ slot (R280, R284); the callback counter is the model's own (assumption
log 2). -/
def Obligations.BrkPushesTheFrameAndSetsBreak : Prop :=
  ∀ s : State, s.Inv → frameInBank s →
    ∃ t, exec .brk s = .next t ∧ framePushed s t s.flags s.pc ∧
      t.pc = BitVec.ofNat 32 (t.mem.readLe 4 0x0C) ∧ t.flags = { s.flags with b := true } ∧
      (∀ r, r ≠ spReg → r ≠ pcReg → t.reg r = s.reg r) ∧
      t.asleep = s.asleep ∧ t.callback = s.callback ∧ t.syscalls = s.syscalls

/-- RTI loads `pc` from the four bytes at `sp` and all six flags from the byte after them, bits 6 and 7 dropped, and moves
`sp` past the five bytes. When the first pop faults nothing has changed before the redirect; when the second one does,
`sp` has moved by 4 and nothing else (R281, R315). -/
def Obligations.RtiRestoresPcAndFlags : Prop :=
  ∀ s : State,
    (s.accessible s.sp 4 → s.accessible (s.sp + 4) 1 →
      exec .rti s =
        (let b := s.mem.byte (s.sp + 4).toNat
         .next (((s.setSp (s.sp + 5)).setPc (BitVec.ofNat 32 (s.mem.readLe 4 s.sp.toNat))).withFlags
          { z := b.getLsbD 0, n := b.getLsbD 1, c := b.getLsbD 2,
            v := b.getLsbD 3, b := b.getLsbD 4, i := b.getLsbD 5 }))) ∧
    (¬ s.accessible s.sp 4 → exec .rti s = takeException (.invalidAddress s.sp) s) ∧
    (s.accessible s.sp 4 → ¬ s.accessible (s.sp + 4) 1 →
      exec .rti s = takeException (.invalidAddress (s.sp + 4)) (s.setSp (s.sp + 4)))

/-- RTI undoes BRK: `pc`, `sp`, every other register and all six flags are as before the BRK (R280, R281). -/
def Obligations.BrkThenRtiRestoresEverything : Prop :=
  ∀ s : State, s.Inv → frameInBank s →
    ∃ t, exec .brk s = .next t ∧ exec .rti t = .next (s.withMem t.mem)

/-- SYS leaves every register, every flag and the sleep latch as they are; without a registered callback it changes
nothing at all; with one, only memory contents, whatever the callback writes. The tick that runs it hands the id
and the address to the callback that is registered (R282, R283). -/
def Obligations.SysLeavesAllButMemory : Prop :=
  ∀ (id : BitVec 16) (addr : Word) (s : State),
    (s.callback = none → exec (.sys id addr) s = .next s) ∧
    (∃ t, exec (.sys id addr) s = .next t ∧ t.regs = s.regs ∧ t.flags = s.flags ∧ t.asleep = s.asleep ∧
      t.callback = s.callback ∧ t.mem.cap = s.mem.cap ∧ (s.Inv → t.Inv)) ∧
    ∀ pc, s.asleep = false → fetch s = .ok (.sys id addr, pc) →
      tickSyscall s = s.callback.map fun _ => (id, addr)

/-- SLP sets the sleep latch and NOP does nothing; `pc` stays past the instruction (R285, R286). The six flag
instructions write exactly the flag they name (R287 to R292). -/
def Obligations.SlpNopAndFlagInstructionsWriteAtMostOneBit : Prop :=
  ∀ s : State,
    exec .slp s = .next (s.withAsleep true) ∧
    exec .nop s = .next s ∧
    exec .sec s = .next (s.withFlags { s.flags with c := true }) ∧
    exec .clc s = .next (s.withFlags { s.flags with c := false }) ∧
    exec .sei s = .next (s.withFlags { s.flags with i := true }) ∧
    exec .cli s = .next (s.withFlags { s.flags with i := false }) ∧
    exec .sev s = .next (s.withFlags { s.flags with v := true }) ∧
    exec .clv s = .next (s.withFlags { s.flags with v := false })

/-! ## Exceptions, interrupts, reset, sleep, cost -/

/-- The fault redirect loads `pc` from the kind's vector slot, 0x14, 0x18 or 0x1C, and changes nothing else; a tick in
which an exception is raised costs 1 (R313). -/
def Obligations.TakingAnExceptionLoadsThePcAlone : Prop :=
  ∀ (s : State) (a : Word), s.Inv →
    takeException .invalidInstruction s = .next (s.setPc (BitVec.ofNat 32 (s.mem.readLe 4 0x14))) ∧
    takeException (.invalidAddress a) s = .next (s.setPc (BitVec.ofNat 32 (s.mem.readLe 4 0x18))) ∧
    takeException .divisionByZero s = .next (s.setPc (BitVec.ofNat 32 (s.mem.readLe 4 0x1C))) ∧
    ∀ (e : Exn) (cycles : AddrMode → Nat), tickException s = some e → tickCost cycles s = 1

/-- A tick that raises an exception costs 1, leaves every flag and the sleep latch as they were, and ends with `pc` from the
exception's vector slot (R29, R313, R315). -/
def Obligations.FaultingTickTouchesNoFlagAndVectors : Prop :=
  ∀ (s : State) (e : Exn) (cycles : AddrMode → Nat), s.Inv → tickException s = some e →
    tickCost cycles s = 1 ∧
    ∃ t, step s = .next t ∧ t.flags = s.flags ∧ t.asleep = s.asleep ∧
      t.pc = BitVec.ofNat 32 (t.mem.readLe 4 e.vector.toNat)

/-- A masked IRQ clears the sleep latch and does nothing more (R321, R322). -/
def Obligations.MaskedIrqOnlyWakes : Prop :=
  ∀ s : State, s.flags.i = true → interruptRaised false s = .next (s.withAsleep false)

/-- An NMI, and an IRQ with InterruptDisable clear, wakes the machine, pushes the frame, loads `pc` from its slot and
changes no flag (R321, R323). That the callback counter stays is about the model's own field (assumption log 2, DESIGN
CHOICE), no rule of the spec. -/
def Obligations.InterruptPushesTheFrameAndVectors : Prop :=
  ∀ (s : State) (nmi : Bool), s.Inv → (nmi = true ∨ s.flags.i = false) → frameInBank s →
    ∃ t, interruptRaised nmi s = .next t ∧ framePushed s t s.flags s.pc ∧
      t.pc = BitVec.ofNat 32 (t.mem.readLe 4 (if nmi then 0x10 else 0x08)) ∧
      t.flags = s.flags ∧ t.asleep = false ∧ t.callback = s.callback ∧ t.syscalls = s.syscalls ∧
      ∀ r, r ≠ spReg → r ≠ pcReg → t.reg r = s.reg r

/-- A handler entered by an interrupt that returns by RTI at once comes back with every register and flag as before, awake
(R323, R325). -/
def Obligations.InterruptThenRtiResumes : Prop :=
  ∀ (s : State) (nmi : Bool), s.Inv → (nmi = true ∨ s.flags.i = false) → frameInBank s →
    ∃ t, interruptRaised nmi s = .next t ∧ exec .rti t = .next ((s.withMem t.mem).withAsleep false)

/-- A frame that does not fit in the bank: an interrupt entry or BRK takes `InvalidAddress` at the push that fails, `sp`
left decremented by the pushes begun, the flags byte left in memory when it was stored; the entry's latch stays
cleared, and Break is not set (R230, R280, R315, R326). -/
def Obligations.FrameOutsideTheBankTakesInvalidAddress : Prop :=
  ∀ (s : State) (nmi : Bool), (nmi = true ∨ s.flags.i = false) →
    let first := fun u : State => u.setSp (s.sp - 1)
    let second := fun u : State => (u.setSp (s.sp - 5)).stored 1 (s.sp - 1) s.flags.toByte.toNat
    (¬ s.accessible (s.sp - 1) 1 →
      interruptRaised nmi s = takeException (.invalidAddress (s.sp - 1)) (first (s.withAsleep false)) ∧
      exec .brk s = takeException (.invalidAddress (s.sp - 1)) (first s)) ∧
    (s.accessible (s.sp - 1) 1 → ¬ s.accessible (s.sp - 5) 4 →
      interruptRaised nmi s = takeException (.invalidAddress (s.sp - 5)) (second (s.withAsleep false)) ∧
      exec .brk s = takeException (.invalidAddress (s.sp - 5)) (second s))

/-- The reset event zeroes registers 0 to 13, loads `pc` and `sp` from their slots, clears the sleep latch, and keeps
flags, memory and callback (R350; the flags clause is the one assumption log 6 is about). That the callback counter
stays is about the model's own field (assumption log 2, DESIGN CHOICE), no rule of the spec. -/
def Obligations.ResetEventLoadsPcAndSp : Prop :=
  ∀ s : State, s.Inv →
    ∃ t, resetEvent s = .next t ∧ (∀ r : Reg, r.val ≤ 13 → t.reg r = 0) ∧
      t.pc = BitVec.ofNat 32 (s.mem.readLe 4 0x00) ∧ t.sp = BitVec.ofNat 32 (s.mem.readLe 4 0x04) ∧
      t.asleep = false ∧ t.flags = s.flags ∧ t.mem = s.mem ∧ t.callback = s.callback ∧
      t.syscalls = s.syscalls

/-- While asleep a tick changes nothing and costs 1 (R361). -/
def Obligations.AsleepTickChangesNothing : Prop :=
  ∀ (s : State) (cycles : AddrMode → Nat), s.asleep = true → step s = .next s ∧ tickCost cycles s = 1

/-- With a table of costs of at least 1, every tick costs at least 1, and a tick that completes an instruction costs
the table's entry for its mode (R360, R370). -/
def Obligations.TickCostsAreTheTablesAndAtLeastOne : Prop :=
  ∀ (cycles : AddrMode → Nat) (s : State),
    ((∀ m, 1 ≤ cycles m) → 1 ≤ tickCost cycles s) ∧
    ∀ i pc, s.asleep = false → fetch s = .ok (i, pc) → tickException s = none → tickCost cycles s = cycles i.mode
end

