-- ==== Sys2Proof/Laws/State.lean ====
section
/-! SUPPORT. The small lemmas of `State`: one per field per update, so that no proof unfolds an update. -/

namespace Sys2Proof.Machine

/-! ## The register file -/

/-- What a register reads after a register write. -/
theorem reg_setReg (s : State) (i j : Reg) (v : Word) :
    (s.setReg i v).reg j = if i = j then v else s.reg j := by
  simp [State.reg, State.setReg, Vector.getElem_set, Fin.ext_iff]

@[simp] theorem reg_setReg_same (s : State) (i : Reg) (v : Word) : (s.setReg i v).reg i = v := by
  simp [reg_setReg]

theorem reg_setReg_ne (s : State) (i j : Reg) (v : Word) (h : i ≠ j) : (s.setReg i v).reg j = s.reg j := by
  simp [reg_setReg, h]

@[simp] theorem setReg_setReg_same (s : State) (i : Reg) (u v : Word) :
    (s.setReg i u).setReg i v = s.setReg i v := by
  simp only [State.setReg, State.mk.injEq, and_true]
  ext k hk
  simp [Vector.getElem_set]

@[simp] theorem setReg_reg_same (s : State) (i : Reg) : s.setReg i (s.reg i) = s := by
  simp [State.setReg, State.reg]

/-- Writes to different registers commute. -/
theorem setReg_comm (s : State) (i j : Reg) (u v : Word) (h : i ≠ j) :
    (s.setReg i u).setReg j v = (s.setReg j v).setReg i u := by
  simp only [State.setReg, State.mk.injEq, and_true]
  exact Vector.set_comm _ _ (by simpa [Fin.ext_iff] using h)

/-- Two register files that read alike are equal. -/
theorem regs_ext {s t : State} (h : ∀ i, s.reg i = t.reg i) : s.regs = t.regs := by
  apply Vector.ext
  intro k hk
  simpa [State.reg] using h ⟨k, hk⟩

@[simp] theorem pcReg_ne_spReg : pcReg ≠ spReg := by decide
@[simp] theorem spReg_ne_pcReg : spReg ≠ pcReg := by decide

@[simp] theorem pc_setPc (s : State) (v : Word) : (s.setPc v).pc = v := reg_setReg_same s pcReg v
@[simp] theorem sp_setSp (s : State) (v : Word) : (s.setSp v).sp = v := reg_setReg_same s spReg v
@[simp] theorem sp_setPc (s : State) (v : Word) : (s.setPc v).sp = s.sp := reg_setReg_ne s _ _ v (by decide)
@[simp] theorem pc_setSp (s : State) (v : Word) : (s.setSp v).pc = s.pc := reg_setReg_ne s _ _ v (by decide)

@[simp] theorem setSp_setSp (s : State) (u v : Word) : (s.setSp u).setSp v = s.setSp v :=
  setReg_setReg_same s spReg u v
@[simp] theorem setPc_setPc (s : State) (u v : Word) : (s.setPc u).setPc v = s.setPc v :=
  setReg_setReg_same s pcReg u v
@[simp] theorem setSp_sp (s : State) : s.setSp s.sp = s := setReg_reg_same s spReg
@[simp] theorem setPc_pc (s : State) : s.setPc s.pc = s := setReg_reg_same s pcReg

/-! ## One lemma per field per update -/

@[simp] theorem flags_setReg (s : State) (i : Reg) (v : Word) : (s.setReg i v).flags = s.flags := rfl
@[simp] theorem asleep_setReg (s : State) (i : Reg) (v : Word) : (s.setReg i v).asleep = s.asleep := rfl
@[simp] theorem mem_setReg (s : State) (i : Reg) (v : Word) : (s.setReg i v).mem = s.mem := rfl
@[simp] theorem callback_setReg (s : State) (i : Reg) (v : Word) : (s.setReg i v).callback = s.callback := rfl
@[simp] theorem syscalls_setReg (s : State) (i : Reg) (v : Word) : (s.setReg i v).syscalls = s.syscalls := rfl

@[simp] theorem flags_setSp (s : State) (v : Word) : (s.setSp v).flags = s.flags := rfl
@[simp] theorem asleep_setSp (s : State) (v : Word) : (s.setSp v).asleep = s.asleep := rfl
@[simp] theorem mem_setSp (s : State) (v : Word) : (s.setSp v).mem = s.mem := rfl
@[simp] theorem callback_setSp (s : State) (v : Word) : (s.setSp v).callback = s.callback := rfl
@[simp] theorem syscalls_setSp (s : State) (v : Word) : (s.setSp v).syscalls = s.syscalls := rfl

@[simp] theorem flags_setPc (s : State) (v : Word) : (s.setPc v).flags = s.flags := rfl
@[simp] theorem asleep_setPc (s : State) (v : Word) : (s.setPc v).asleep = s.asleep := rfl
@[simp] theorem mem_setPc (s : State) (v : Word) : (s.setPc v).mem = s.mem := rfl
@[simp] theorem callback_setPc (s : State) (v : Word) : (s.setPc v).callback = s.callback := rfl
@[simp] theorem syscalls_setPc (s : State) (v : Word) : (s.setPc v).syscalls = s.syscalls := rfl

@[simp] theorem flags_regWrite (s : State) (i : Reg) (w : Width) (v : BitVec w.bits) : (s.regWrite i w v).flags = s.flags := rfl
@[simp] theorem asleep_regWrite (s : State) (i : Reg) (w : Width) (v : BitVec w.bits) : (s.regWrite i w v).asleep = s.asleep := rfl
@[simp] theorem mem_regWrite (s : State) (i : Reg) (w : Width) (v : BitVec w.bits) : (s.regWrite i w v).mem = s.mem := rfl
@[simp] theorem callback_regWrite (s : State) (i : Reg) (w : Width) (v : BitVec w.bits) : (s.regWrite i w v).callback = s.callback := rfl
@[simp] theorem syscalls_regWrite (s : State) (i : Reg) (w : Width) (v : BitVec w.bits) : (s.regWrite i w v).syscalls = s.syscalls := rfl

@[simp] theorem flags_withFlags (s : State) (f : Flags) : (s.withFlags f).flags = f := rfl
@[simp] theorem asleep_withFlags (s : State) (f : Flags) : (s.withFlags f).asleep = s.asleep := rfl
@[simp] theorem mem_withFlags (s : State) (f : Flags) : (s.withFlags f).mem = s.mem := rfl
@[simp] theorem callback_withFlags (s : State) (f : Flags) : (s.withFlags f).callback = s.callback := rfl
@[simp] theorem syscalls_withFlags (s : State) (f : Flags) : (s.withFlags f).syscalls = s.syscalls := rfl
@[simp] theorem regs_withFlags (s : State) (f : Flags) : (s.withFlags f).regs = s.regs := rfl
@[simp] theorem reg_withFlags (s : State) (f : Flags) (j : Reg) : (s.withFlags f).reg j = s.reg j := rfl
@[simp] theorem pc_withFlags (s : State) (f : Flags) : (s.withFlags f).pc = s.pc := rfl
@[simp] theorem sp_withFlags (s : State) (f : Flags) : (s.withFlags f).sp = s.sp := rfl
@[simp] theorem regRead_withFlags (s : State) (f : Flags) (j : Reg) (k : Width) : (s.withFlags f).regRead j k = s.regRead j k := rfl
@[simp] theorem withFlags_setReg (s : State) (f : Flags) (j : Reg) (x : Word) : (s.setReg j x).withFlags f = (s.withFlags f).setReg j x := rfl

@[simp] theorem flags_withMem (s : State) (m : Memory) : (s.withMem m).flags = s.flags := rfl
@[simp] theorem asleep_withMem (s : State) (m : Memory) : (s.withMem m).asleep = s.asleep := rfl
@[simp] theorem mem_withMem (s : State) (m : Memory) : (s.withMem m).mem = m := rfl
@[simp] theorem callback_withMem (s : State) (m : Memory) : (s.withMem m).callback = s.callback := rfl
@[simp] theorem syscalls_withMem (s : State) (m : Memory) : (s.withMem m).syscalls = s.syscalls := rfl
@[simp] theorem regs_withMem (s : State) (m : Memory) : (s.withMem m).regs = s.regs := rfl
@[simp] theorem reg_withMem (s : State) (m : Memory) (j : Reg) : (s.withMem m).reg j = s.reg j := rfl
@[simp] theorem pc_withMem (s : State) (m : Memory) : (s.withMem m).pc = s.pc := rfl
@[simp] theorem sp_withMem (s : State) (m : Memory) : (s.withMem m).sp = s.sp := rfl
@[simp] theorem regRead_withMem (s : State) (m : Memory) (j : Reg) (k : Width) : (s.withMem m).regRead j k = s.regRead j k := rfl
@[simp] theorem withMem_setReg (s : State) (m : Memory) (j : Reg) (x : Word) : (s.setReg j x).withMem m = (s.withMem m).setReg j x := rfl

@[simp] theorem flags_withAsleep (s : State) (b : Bool) : (s.withAsleep b).flags = s.flags := rfl
@[simp] theorem asleep_withAsleep (s : State) (b : Bool) : (s.withAsleep b).asleep = b := rfl
@[simp] theorem mem_withAsleep (s : State) (b : Bool) : (s.withAsleep b).mem = s.mem := rfl
@[simp] theorem callback_withAsleep (s : State) (b : Bool) : (s.withAsleep b).callback = s.callback := rfl
@[simp] theorem syscalls_withAsleep (s : State) (b : Bool) : (s.withAsleep b).syscalls = s.syscalls := rfl
@[simp] theorem regs_withAsleep (s : State) (b : Bool) : (s.withAsleep b).regs = s.regs := rfl
@[simp] theorem reg_withAsleep (s : State) (b : Bool) (j : Reg) : (s.withAsleep b).reg j = s.reg j := rfl
@[simp] theorem pc_withAsleep (s : State) (b : Bool) : (s.withAsleep b).pc = s.pc := rfl
@[simp] theorem sp_withAsleep (s : State) (b : Bool) : (s.withAsleep b).sp = s.sp := rfl
@[simp] theorem regRead_withAsleep (s : State) (b : Bool) (j : Reg) (k : Width) : (s.withAsleep b).regRead j k = s.regRead j k := rfl
@[simp] theorem withAsleep_setReg (s : State) (b : Bool) (j : Reg) (x : Word) : (s.setReg j x).withAsleep b = (s.withAsleep b).setReg j x := rfl

@[simp] theorem withFlags_self (s : State) : s.withFlags s.flags = s := rfl
@[simp] theorem withMem_self (s : State) : s.withMem s.mem = s := rfl
@[simp] theorem withAsleep_self (s : State) : s.withAsleep s.asleep = s := rfl

/-! ## Narrow register access (R24) -/

/-- A narrow write keeps the bits above the width and replaces the others (R24). -/
theorem getLsbD_replaceLow (old : Word) {W : Nat} (v : BitVec W) (k : Nat) (hk : k < 32) :
    (replaceLow old v).getLsbD k = if k < W then v.getLsbD k else old.getLsbD k := by
  unfold replaceLow
  simp only [BitVec.getLsbD_or, BitVec.getLsbD_shiftLeft, BitVec.getLsbD_ushiftRight, BitVec.getLsbD_setWidth]
  by_cases h : k < W
  · simp [h, hk]
  · have hv : v.getLsbD k = false := BitVec.getLsbD_of_ge v k (by omega)
    have hk' : W + (k - W) = k := by omega
    simp [h, hk, hv, hk']

/-- The low part of a narrow write reads back. -/
@[simp] theorem setWidth_replaceLow (old : Word) (w : Width) (v : BitVec w.bits) :
    (replaceLow old v).setWidth w.bits = v := by
  apply BitVec.eq_of_getLsbD_eq
  intro k hk
  have : w.bits ≤ 32 := by cases w <;> decide
  simp [hk, getLsbD_replaceLow old v k (by omega)]

/-- Writing a register's own low part changes nothing. -/
@[simp] theorem replaceLow_setWidth (old : Word) (w : Width) : replaceLow old (old.setWidth w.bits) = old := by
  apply BitVec.eq_of_getLsbD_eq
  intro k hk
  rw [getLsbD_replaceLow _ _ _ hk]
  split <;> simp_all

/-- A full-width write replaces the register. -/
@[simp] theorem replaceLow_dword (old : Word) (v : BitVec 32) : replaceLow old v = v := by
  apply BitVec.eq_of_getLsbD_eq
  intro k hk
  rw [getLsbD_replaceLow old v k hk, if_pos hk]

/-- `RegWrite` as a full register write. -/
theorem regWrite_eq (s : State) (i : Reg) (w : Width) (v : BitVec w.bits) :
    s.regWrite i w v = s.setReg i (replaceLow (s.reg i) v) := rfl

end Sys2Proof.Machine
end

