-- ==== Sys2Proof/Laws/Memory.lean ====
section
/-! SUPPORT. The laws of the memory bank: every operation keeps the canonical form, a read after a write gives the
value written, and a write leaves every other byte alone. -/

namespace Sys2Proof.Machine

/-! ## Cell lists -/

theorem cellsWf_cons {cap lo a : Nat} {b : Byte} {rest : List Host.Cell} :
    cellsWf cap lo ((a, b) :: rest) = true ↔
      lo ≤ a ∧ a < cap ∧ b ≠ Memory.unlisted ∧ cellsWf cap (a + 1) rest = true := by
  simp [cellsWf, and_assoc]

theorem cellsWf_mono {cap : Nat} {l : List Host.Cell} :
    ∀ {lo lo' : Nat}, lo' ≤ lo → cellsWf cap lo l = true → cellsWf cap lo' l = true := by
  cases l with
  | nil => intros; rfl
  | cons c rest =>
    obtain ⟨a, b⟩ := c
    intro lo lo' h hw
    rw [cellsWf_cons] at hw ⊢
    exact ⟨by omega, hw.2⟩

/-- Below the first listed address nothing is listed. -/
theorem cellsGet_below {cap : Nat} {l : List Host.Cell} :
    ∀ {lo a : Nat}, cellsWf cap lo l = true → a < lo → cellsGet l a = Memory.unlisted := by
  induction l with
  | nil => intros; rfl
  | cons c rest ih =>
    obtain ⟨k, v⟩ := c
    intro lo a hw ha
    rw [cellsWf_cons] at hw
    rw [cellsGet, if_neg (by omega)]
    exact ih hw.2.2.2 (by omega)

/-- What a byte reads after one byte is written. -/
theorem cellsGet_cellsSet {cap : Nat} {l : List Host.Cell} :
    ∀ {lo : Nat}, cellsWf cap lo l = true → ∀ (a : Nat) (b : Byte) (x : Nat),
      cellsGet (cellsSet l a b) x = if x = a then b else cellsGet l x := by
  induction l with
  | nil =>
    intro lo _ a b x
    rw [cellsSet]
    split <;> rename_i h
    · simp [cellsGet, h]
    · simp [cellsGet]
  | cons c rest ih =>
    obtain ⟨k, v⟩ := c
    intro lo hw a b x
    rw [cellsWf_cons] at hw
    have below : ∀ y, y ≤ k → cellsGet rest y = Memory.unlisted :=
      fun y hy => cellsGet_below hw.2.2.2 (by omega)
    rw [cellsSet]
    split <;> rename_i hak
    · split <;> rename_i hb
      · by_cases hx : x = a
        · subst hx
          rw [if_pos rfl, cellsGet, if_neg (by omega), below x (by omega), hb]
        · rw [if_neg hx]
      · rw [cellsGet]
    · split <;> rename_i hk
      · subst hk
        split <;> rename_i hb
        · by_cases hx : x = a
          · subst hx; rw [if_pos rfl, below x (by omega), hb]
          · rw [if_neg hx, cellsGet, if_neg hx]
        · by_cases hx : x = a
          · simp [cellsGet, hx]
          · simp [cellsGet, hx]
      · rw [cellsGet, ih hw.2.2.2 a b x]
        by_cases hx : x = k
        · subst hx
          simp [cellsGet, Ne.symm hk]
        · simp [cellsGet, hx]

/-- Writing one byte keeps the canonical form. -/
theorem cellsWf_cellsSet {cap : Nat} {l : List Host.Cell} :
    ∀ {lo : Nat}, cellsWf cap lo l = true → ∀ (a : Nat) (b : Byte), lo ≤ a → a < cap →
      cellsWf cap lo (cellsSet l a b) = true := by
  induction l with
  | nil =>
    intro lo _ a b h1 h2
    rw [cellsSet]
    split <;> rename_i hb
    · rfl
    · rw [cellsWf_cons]; exact ⟨h1, h2, hb, rfl⟩
  | cons c rest ih =>
    obtain ⟨k, v⟩ := c
    intro lo hw a b h1 h2
    have hw' := hw
    rw [cellsWf_cons] at hw
    rw [cellsSet]
    split <;> rename_i hak
    · split <;> rename_i hb
      · exact hw'
      · rw [cellsWf_cons, cellsWf_cons]
        exact ⟨h1, h2, hb, by omega, hw.2⟩
    · split <;> rename_i hk
      · subst hk
        split <;> rename_i hb
        · exact cellsWf_mono (by omega) hw.2.2.2
        · rw [cellsWf_cons]; exact ⟨h1, h2, hb, hw.2.2.2⟩
      · rw [cellsWf_cons]
        exact ⟨hw.1, hw.2.1, hw.2.2.1, ih hw.2.2.2 a b (by omega) h2⟩

/-! ## The bank -/

theorem Memory.wf_iff {m : Memory} :
    m.wf = true ↔ 32 ≤ m.cap ∧ m.cap ≤ 2 ^ 32 ∧ cellsWf m.cap 0 m.cells = true := by
  simp only [Memory.wf, Bool.and_eq_true, decide_eq_true_eq, and_assoc]
  exact Iff.rfl

theorem Memory.wf_powerOn : Memory.powerOn.wf = true := by decide

@[simp] theorem cap_setByte (m : Memory) (a : Nat) (b : Byte) : (m.setByte a b).cap = m.cap := rfl

@[simp] theorem cap_writeLe (n : Nat) : ∀ (m : Memory) (a v : Nat), (m.writeLe n a v).cap = m.cap := by
  induction n with
  | zero => intros; rfl
  | succ n ih => intro m a v; rw [Memory.writeLe, ih, cap_setByte]

theorem byte_setByte {m : Memory} (h : m.wf = true) (a : Nat) (b : Byte) (x : Nat) :
    (m.setByte a b).byte x = if x = a then b else m.byte x :=
  cellsGet_cellsSet (Memory.wf_iff.mp h).2.2 a b x

theorem wf_setByte {m : Memory} (h : m.wf = true) {a : Nat} (b : Byte) (ha : a < m.cap) :
    (m.setByte a b).wf = true := by
  obtain ⟨h1, h2, h3⟩ := Memory.wf_iff.mp h
  exact Memory.wf_iff.mpr ⟨h1, h2, cellsWf_cellsSet h3 a b (Nat.zero_le _) ha⟩

theorem wf_writeLe (n : Nat) :
    ∀ {m : Memory}, m.wf = true → ∀ (a v : Nat), a + n ≤ m.cap → (m.writeLe n a v).wf = true := by
  induction n with
  | zero => intro m h a v _; exact h
  | succ n ih =>
    intro m h a v ha
    exact ih (wf_setByte h _ (by omega)) _ _ (by rw [cap_setByte]; omega)

/-- Every byte after a multi-byte write: the stored bytes little-endian, every other byte as before (R54). -/
theorem byte_writeLe (n : Nat) :
    ∀ {m : Memory}, m.wf = true → ∀ (a v : Nat), a + n ≤ m.cap → ∀ x,
      (m.writeLe n a v).byte x =
        if a ≤ x ∧ x < a + n then BitVec.ofNat 8 (v / 256 ^ (x - a)) else m.byte x := by
  induction n with
  | zero => intro m h a v _ x; rw [if_neg (by omega), Memory.writeLe]
  | succ n ih =>
    intro m h a v ha x
    rw [Memory.writeLe, ih (wf_setByte h _ (by omega)) _ _ (by rw [cap_setByte]; omega), byte_setByte h]
    by_cases h1 : x = a
    · subst h1
      rw [if_neg (by omega), if_pos rfl, if_pos (by omega)]
      simp
    · by_cases h2 : a + 1 ≤ x ∧ x < a + 1 + n
      · rw [if_pos h2, if_pos (by omega)]
        have : x - a = (x - (a + 1)) + 1 := by omega
        rw [this, Nat.pow_succ', Nat.div_div_eq_div_mul]
      · rw [if_neg h2, if_neg h1, if_neg (by omega)]

theorem readLe_lt (n : Nat) : ∀ (m : Memory) (a : Nat), m.readLe n a < 256 ^ n := by
  induction n with
  | zero => intros; simp [Memory.readLe]
  | succ n ih =>
    intro m a
    have h1 := ih m (a + 1)
    have h2 := (m.byte a).isLt
    rw [Memory.readLe, Nat.pow_succ]
    omega

/-- A read depends on the bytes it reads alone. -/
theorem readLe_congr (n : Nat) :
    ∀ {m m' : Memory} {a : Nat}, (∀ x, a ≤ x → x < a + n → m.byte x = m'.byte x) →
      m.readLe n a = m'.readLe n a := by
  induction n with
  | zero => intros; rfl
  | succ n ih =>
    intro m m' a h
    rw [Memory.readLe, Memory.readLe, h a (by omega) (by omega),
      ih (fun x h1 h2 => h x (by omega) (by omega))]

/-- A read after a write to the same bytes (R52). -/
theorem readLe_writeLe_same (n : Nat) :
    ∀ {m : Memory}, m.wf = true → ∀ (a v : Nat), a + n ≤ m.cap →
      (m.writeLe n a v).readLe n a = v % 256 ^ n := by
  induction n with
  | zero => intro m _ a v _; simp [Memory.readLe, Nat.mod_one]
  | succ n ih =>
    intro m h a v ha
    have hb : (m.writeLe (n + 1) a v).byte a = BitVec.ofNat 8 v := by
      rw [byte_writeLe (n + 1) h a v ha, if_pos (by omega)]; simp
    have hr := ih (wf_setByte h (BitVec.ofNat 8 v) (a := a) (by omega)) (a + 1) (v / 256)
      (by rw [cap_setByte]; omega)
    rw [Memory.readLe, hb]
    rw [← Memory.writeLe] at hr
    have e : v % 256 ^ (n + 1) = v % 256 + 256 * (v / 256 % 256 ^ n) := by
      rw [Nat.pow_succ', Nat.mod_mul (x := v) (a := 256) (b := 256 ^ n)]
    rw [hr, BitVec.toNat_ofNat, e]

/-- A read away from a write (R54). -/
theorem readLe_writeLe_disjoint {n k : Nat} {m : Memory} (h : m.wf = true) {a v x : Nat} (ha : a + n ≤ m.cap)
    (hd : x + k ≤ a ∨ a + n ≤ x) : (m.writeLe n a v).readLe k x = m.readLe k x := by
  apply readLe_congr
  intro y h1 h2
  rw [byte_writeLe n h a v ha, if_neg (by omega)]

/-- Bytes written alike from equal low parts are equal. -/
theorem writeLe_mod (n : Nat) :
    ∀ (m : Memory) (a v : Nat), m.writeLe n a (v % 256 ^ n) = m.writeLe n a v := by
  induction n with
  | zero => intros; rfl
  | succ n ih =>
    intro m a v
    have e1 : BitVec.ofNat 8 (v % 256 ^ (n + 1)) = BitVec.ofNat 8 v := by
      apply BitVec.eq_of_toNat_eq
      rw [BitVec.toNat_ofNat, BitVec.toNat_ofNat]
      exact Nat.mod_mod_of_dvd v (Dvd.intro _ (Nat.pow_succ' (m := 256) (n := n)).symm)
    have e2 : v % 256 ^ (n + 1) / 256 = v / 256 % 256 ^ n := by
      rw [Nat.pow_succ', Nat.mod_mul_right_div_self]
    rw [Memory.writeLe, Memory.writeLe, e1, e2, ih]

/-! ## The port (R53 to R55) -/

theorem inBank_iff {m : Memory} {a : Word} {n : Nat} : m.inBank a n = true ↔ a.toNat + n ≤ m.cap := by
  simp [Memory.inBank]

theorem read_ok {m : Memory} {n : Nat} {a : Word} (h : a.toNat + n ≤ m.cap) :
    m.read n a = .ok (m.readLe n a.toNat) := by
  simp [Memory.read, Memory.inBank, h]

theorem read_error {m : Memory} {n : Nat} {a : Word} (h : m.cap < a.toNat + n) :
    m.read n a = .error (.invalidAddress a) := by
  simp [Memory.read, Memory.inBank, Nat.not_le.mpr h]

/-- Everything a read can answer. -/
theorem read_cases (m : Memory) (n : Nat) (a : Word) :
    (a.toNat + n ≤ m.cap ∧ m.read n a = .ok (m.readLe n a.toNat)) ∨
      (m.cap < a.toNat + n ∧ m.read n a = .error (.invalidAddress a)) := by
  by_cases h : a.toNat + n ≤ m.cap
  · exact .inl ⟨h, read_ok h⟩
  · exact .inr ⟨by omega, read_error (by omega)⟩

theorem write_ok {m : Memory} {n : Nat} {a : Word} (v : Nat) (h : a.toNat + n ≤ m.cap) :
    m.write n a v = .ok (m.writeLe n a.toNat v) := by
  simp [Memory.write, Memory.inBank, h]

theorem write_error {m : Memory} {n : Nat} {a : Word} (v : Nat) (h : m.cap < a.toNat + n) :
    m.write n a v = .error (.invalidAddress a) := by
  simp [Memory.write, Memory.inBank, Nat.not_le.mpr h]

/-- Everything a store can answer. -/
theorem store_cases (s : State) (n : Nat) (a : Word) (v : Nat) :
    (a.toNat + n ≤ s.mem.cap ∧ s.store n a v = .ok (s.withMem (s.mem.writeLe n a.toNat v))) ∨
      (s.mem.cap < a.toNat + n ∧ s.store n a v = .error (.invalidAddress a)) := by
  by_cases h : a.toNat + n ≤ s.mem.cap
  · exact .inl ⟨h, by rw [State.store, write_ok v h]⟩
  · exact .inr ⟨by omega, by rw [State.store, write_error v (by omega)]⟩

theorem store_ok {s : State} {n : Nat} {a : Word} (v : Nat) (h : a.toNat + n ≤ s.mem.cap) :
    s.store n a v = .ok (s.withMem (s.mem.writeLe n a.toNat v)) := by
  rw [State.store, write_ok v h]

theorem load_ok {s : State} {n : Nat} {a : Word} (h : a.toNat + n ≤ s.mem.cap) :
    s.load n a = .ok (s.mem.readLe n a.toNat) := read_ok h

end Sys2Proof.Machine
end

