-- ==== Sys2Proof/Laws/Ops.lean ====
section
/-! SUPPORT. One lemma per shared operation of Sys2Proof/Machine/Ops.lean that says everything it can answer, and what
every instruction's work keeps. -/

namespace Sys2Proof.Machine

/-! ## Outcomes of an instruction's work -/

/-- The state in which the work of an instruction ends. -/
def Micro.state : Micro → State
  | .done s => s
  | .raised _ s => s

@[simp] theorem state_done (s : State) : (Micro.done s).state = s := rfl
@[simp] theorem state_raised (e : Exn) (s : State) : (Micro.raised e s).state = s := rfl
@[simp] theorem complete_done (s : State) : complete (.done s) = .next s := rfl
@[simp] theorem complete_raised (e : Exn) (s : State) : complete (.raised e s) = takeException e s := rfl
@[simp] theorem andThen_done (s : State) (k : State → Micro) : (Micro.done s).andThen k = k s := rfl
@[simp] theorem andThen_raised (e : Exn) (s : State) (k : State → Micro) :
    (Micro.raised e s).andThen k = .raised e s := rfl

/-- What every part of an instruction keeps: the capacity and the canonical form of the bank. -/
def Keeps (s t : State) : Prop := t.mem.cap = s.mem.cap ∧ (s.Inv → t.Inv)

theorem Keeps.refl (s : State) : Keeps s s := ⟨rfl, id⟩

theorem Keeps.trans {s t u : State} (h : Keeps s t) (k : Keeps t u) : Keeps s u :=
  ⟨k.1.trans h.1, fun hi => k.2 (h.2 hi)⟩

theorem Keeps.of_mem {s t : State} (h : t.mem = s.mem) : Keeps s t := by
  simp [Keeps, State.Inv, h]

theorem Keeps.andThen {s : State} {m : Micro} {k : State → Micro} (h : Keeps s m.state)
    (hk : ∀ s1, Keeps s1 (k s1).state) : Keeps s (m.andThen k).state := by
  cases m with
  | done s1 => exact h.trans (hk s1)
  | raised e s1 => exact h

/-! ## Memory stores -/

theorem keeps_write {s : State} {n : Nat} {a : Word} {v : Nat} (h : a.toNat + n ≤ s.mem.cap) :
    Keeps s (s.withMem (s.mem.writeLe n a.toNat v)) :=
  ⟨cap_writeLe n s.mem a.toNat v, fun hi => wf_writeLe n hi a.toNat v h⟩

/-! ## Push and pop (R230, R231) -/

/-- Everything a push can answer. -/
theorem push_cases (n v : Nat) (s : State) :
    let s1 := s.setSp (s.sp - BitVec.ofNat 32 n)
    (s.accessible (s.sp - BitVec.ofNat 32 n) n ∧
      push n v s = .done (s1.withMem (s.mem.writeLe n (s.sp - BitVec.ofNat 32 n).toNat v))) ∨
    (¬ s.accessible (s.sp - BitVec.ofNat 32 n) n ∧
      push n v s = .raised (.invalidAddress (s.sp - BitVec.ofNat 32 n)) s1) := by
  rcases store_cases (s.setSp (s.sp - BitVec.ofNat 32 n)) n (s.sp - BitVec.ofNat 32 n) v with ⟨h, e⟩ | ⟨h, e⟩
  · exact .inl ⟨h, by simp [push, e]⟩
  · exact .inr ⟨Nat.not_le.mpr h, by simp [push, e]⟩

theorem push_ok {n : Nat} {s : State} (v : Nat) (h : s.accessible (s.sp - BitVec.ofNat 32 n) n) :
    push n v s = .done ((s.setSp (s.sp - BitVec.ofNat 32 n)).withMem
      (s.mem.writeLe n (s.sp - BitVec.ofNat 32 n).toNat v)) := by
  rcases push_cases n v s with ⟨_, e⟩ | ⟨h', _⟩
  · exact e
  · exact absurd h h'

theorem push_error {n : Nat} {s : State} (v : Nat) (h : ¬ s.accessible (s.sp - BitVec.ofNat 32 n) n) :
    push n v s = .raised (.invalidAddress (s.sp - BitVec.ofNat 32 n)) (s.setSp (s.sp - BitVec.ofNat 32 n)) := by
  rcases push_cases n v s with ⟨h', _⟩ | ⟨_, e⟩
  · exact absurd h' h
  · exact e

theorem keeps_push (n v : Nat) (s : State) : Keeps s (push n v s).state := by
  rcases push_cases n v s with ⟨h, e⟩ | ⟨_, e⟩ <;> rw [e]
  · exact ⟨cap_writeLe _ _ _ _, fun hi => wf_writeLe n hi _ v h⟩
  · exact .of_mem rfl

theorem pop_ok {n : Nat} {s : State} (h : s.accessible s.sp n) :
    pop n s = .ok (s.mem.readLe n s.sp.toNat, s.setSp (s.sp + BitVec.ofNat 32 n)) := by
  simp [pop, load_ok (s := s) h]

theorem pop_error {n : Nat} {s : State} (h : ¬ s.accessible s.sp n) :
    pop n s = .error (.invalidAddress s.sp) := by
  have : s.load n s.sp = .error (.invalidAddress s.sp) := read_error (Nat.not_le.mp h)
  simp [pop, this]

/-- Everything a pop can answer. -/
theorem pop_cases (n : Nat) (s : State) :
    (s.accessible s.sp n ∧
      pop n s = .ok (s.mem.readLe n s.sp.toNat, s.setSp (s.sp + BitVec.ofNat 32 n))) ∨
    (¬ s.accessible s.sp n ∧ pop n s = .error (.invalidAddress s.sp)) := by
  by_cases h : s.accessible s.sp n
  · exact .inl ⟨h, pop_ok h⟩
  · exact .inr ⟨h, pop_error h⟩

/-! ## Vectors and exceptions (R60, R313) -/

/-- A bank in canonical form holds the whole vector table. -/
theorem vector_accessible {s : State} (h : s.Inv) {a : Word} (ha : a.toNat ≤ 28) : a.toNat + 4 ≤ s.mem.cap := by
  have := (Memory.wf_iff.mp h).1
  omega

theorem exn_vector_le (e : Exn) : e.vector.toNat ≤ 28 := by cases e <;> exact Nat.le_of_ble_eq_true rfl

/-- Taking an exception loads `pc` from the kind's slot and changes nothing else (R313). -/
theorem takeException_eq {s : State} (h : s.Inv) (e : Exn) :
    takeException e s = .next (s.setPc (BitVec.ofNat 32 (s.mem.readLe 4 e.vector.toNat))) := by
  simp [takeException, load_ok (s := s) (vector_accessible h (exn_vector_le e))]

/-- When taking an exception answers a next state, only `pc` has changed. -/
theorem takeException_next {e : Exn} {s t : State} (h : takeException e s = .next t) :
    ∃ v, t = s.setPc v := by
  unfold takeException at h
  split at h
  · injection h with h
    exact ⟨_, h.symm⟩
  · cases h

/-- An instruction that answers a next state ends in the state of its work, or in that state with another `pc`. -/
theorem complete_next {m : Micro} {t : State} (h : complete m = .next t) :
    m = .done t ∨ ∃ e s v, m = .raised e s ∧ t = s.setPc v := by
  cases m with
  | done s => left; injection h with h; rw [h]
  | raised e s =>
    obtain ⟨v, hv⟩ := takeException_next h
    exact .inr ⟨e, s, v, rfl, hv⟩

/-- A completed or redirected instruction has a successor that keeps what its work kept. -/
theorem complete_keeps {s : State} {m : Micro} (hi : s.Inv) (h : Keeps s m.state) :
    ∃ t, complete m = .next t ∧ Keeps s t := by
  cases m with
  | done s1 => exact ⟨s1, rfl, h⟩
  | raised e s1 =>
    exact ⟨_, takeException_eq (h.2 hi) e, h.trans (.of_mem rfl)⟩

theorem loadVector_ok {s : State} (h : s.Inv) {a : Word} (ha : a.toNat ≤ 28) :
    loadVector a s = .done (s.setPc (BitVec.ofNat 32 (s.mem.readLe 4 a.toNat))) := by
  simp [loadVector, load_ok (s := s) (vector_accessible h ha)]

theorem keeps_loadVector (a : Word) (s : State) : Keeps s (loadVector a s).state := by
  unfold loadVector
  split <;> exact .of_mem rfl

theorem keeps_pushFrame (s : State) : Keeps s (pushFrame s).state :=
  (keeps_push _ _ _).andThen fun _ => keeps_push _ _ _

/-- Everything leaving an interrupt can answer (R281). -/
theorem leaveInterrupt_cases (s : State) :
    (¬ s.accessible s.sp 4 ∧ leaveInterrupt s = .raised (.invalidAddress s.sp) s) ∨
    (s.accessible s.sp 4 ∧ ¬ s.accessible (s.sp + 4) 1 ∧
      leaveInterrupt s = .raised (.invalidAddress (s.sp + 4)) (s.setSp (s.sp + 4))) ∨
    (s.accessible s.sp 4 ∧ s.accessible (s.sp + 4) 1 ∧
      leaveInterrupt s = .done (((s.setSp (s.sp + 5)).setPc (BitVec.ofNat 32 (s.mem.readLe 4 s.sp.toNat))).withFlags
        (Flags.ofByte (s.mem.byte (s.sp + 4).toNat)))) := by
  by_cases h : s.accessible s.sp 4
  · by_cases k : s.accessible (s.sp + 4) 1
    · refine .inr (.inr ⟨h, k, ?_⟩)
      have e1 := pop_ok h
      have e2 : pop 1 (s.setSp (s.sp + BitVec.ofNat 32 4)) =
          .ok (s.mem.readLe 1 (s.sp + 4).toNat, s.setSp (s.sp + 5)) := by
        rw [pop_ok (by rw [sp_setSp]; exact k), sp_setSp, setSp_setSp, mem_setSp, BitVec.add_assoc]
        rfl
      unfold leaveInterrupt
      rw [e1]
      simp only [e2]
      simp [Memory.readLe]
    · refine .inr (.inl ⟨h, k, ?_⟩)
      have e1 := pop_ok h
      have e2 : pop 1 (s.setSp (s.sp + BitVec.ofNat 32 4)) = .error (.invalidAddress (s.sp + 4)) := by
        rw [pop_error (by rw [sp_setSp]; exact k)]
        simp
      unfold leaveInterrupt
      rw [e1]
      simp only [e2]
      rfl
  · exact .inl ⟨h, by simp [leaveInterrupt, pop_error h]⟩

theorem keeps_leaveInterrupt (s : State) : Keeps s (leaveInterrupt s).state := by
  rcases leaveInterrupt_cases s with ⟨_, e⟩ | ⟨_, _, e⟩ | ⟨_, _, e⟩ <;> rw [e] <;> exact .of_mem rfl

end Sys2Proof.Machine
end

