-- ==== Sys2Proof/Laws/Operands.lean ====
section
/-! SUPPORT. The laws of the operand dispatcher: when the operands of a form can be read, and everything the two-operand
handler can answer (R122). -/

namespace Sys2Proof.Machine

/-! ## Operand reads -/

theorem loadAt_ok {w : Width} {a : Word} {s : State} (h : s.accessible a w.bytes) :
    loadAt w a s = .ok (BitVec.ofNat w.bits (s.mem.readLe w.bytes a.toNat)) := by
  simp [loadAt, load_ok (s := s) h]

theorem loadAt_error {w : Width} {a : Word} {s : State} (h : ¬ s.accessible a w.bytes) :
    loadAt w a s = .error (.invalidAddress a) := by
  have : s.load w.bytes a = .error (.invalidAddress a) := read_error (Nat.not_le.mp h)
  simp [loadAt, this]

/-- A memory operand that can be read lies inside the bank. -/
theorem loadAt_accessible {w : Width} {a : Word} {s : State} {v : BitVec w.bits} (h : loadAt w a s = .ok v) :
    s.accessible a w.bytes ∧ v = BitVec.ofNat w.bits (s.mem.readLe w.bytes a.toNat) := by
  by_cases k : s.accessible a w.bytes
  · rw [loadAt_ok k] at h
    injection h with h
    exact ⟨k, h.symm⟩
  · rw [loadAt_error k] at h
    cases h

/-- A memory destination's old value comes from its effective address. -/
theorem destValue_mem {w : Width} {f : TwoForm} {s : State} {ea : Word} (h : destReg f = none)
    (hm : memAddr f s = some ea) : destValue w f s = loadAt w ea s := by
  cases f <;> simp_all [destReg, memAddr, destValue]

/-- A register destination's old value is its low part. -/
theorem destValue_reg {w : Width} {f : TwoForm} {s : State} {ra : Reg} (h : destReg f = some ra) :
    destValue w f s = .ok (s.regRead ra w) := by
  cases f <;> simp_all [destReg, destValue]

/-- With a register destination, a memory operand is the source. -/
theorem sourceValue_mem {w : Width} {f : TwoForm} {s : State} {ra : Reg} {ea : Word} (h : destReg f = some ra)
    (hm : memAddr f s = some ea) : sourceValue w f s = loadAt w ea s := by
  cases f <;> simp_all [destReg, memAddr, sourceValue]

/-- With a memory destination, or with no memory operand, the source can always be read. -/
theorem sourceValue_plain (w : Width) {f : TwoForm} {s : State} (h : destReg f = none ∨ memAddr f s = none) :
    ∃ b, sourceValue w f s = .ok b := by
  cases f <;> simp_all [destReg, memAddr, sourceValue]

/-- A form with a memory destination has a memory operand. -/
theorem memAddr_of_dest {f : TwoForm} (s : State) (h : destReg f = none) : ∃ ea, memAddr f s = some ea := by
  cases f <;> simp_all [destReg, memAddr]

/-! ## The parts of the handler -/

@[simp] theorem flags_preDecrement (w : Width) (f : TwoForm) (s : State) : (preDecrement w f s).flags = s.flags := by
  cases f <;> simp only [preDecrement, adjustedBase] <;> split <;> rfl

@[simp] theorem mem_preDecrement (w : Width) (f : TwoForm) (s : State) : (preDecrement w f s).mem = s.mem := by
  cases f <;> simp only [preDecrement, adjustedBase] <;> split <;> rfl

@[simp] theorem accessible_preDecrement (w : Width) (f : TwoForm) (s : State) (a : Word) (n : Nat) :
    (preDecrement w f s).accessible a n ↔ s.accessible a n := by
  rw [State.accessible, mem_preDecrement, State.accessible]

@[simp] theorem asleep_preDecrement (w : Width) (f : TwoForm) (s : State) :
    (preDecrement w f s).asleep = s.asleep := by
  cases f <;> simp only [preDecrement, adjustedBase] <;> split <;> rfl

@[simp] theorem callback_preDecrement (w : Width) (f : TwoForm) (s : State) :
    (preDecrement w f s).callback = s.callback := by
  cases f <;> simp only [preDecrement, adjustedBase] <;> split <;> rfl

@[simp] theorem syscalls_preDecrement (w : Width) (f : TwoForm) (s : State) :
    (preDecrement w f s).syscalls = s.syscalls := by
  cases f <;> simp only [preDecrement, adjustedBase] <;> split <;> rfl

/-- A pre-decrement changes no register but the adjusted base (R131). -/
theorem reg_preDecrement (w : Width) (f : TwoForm) (s : State) {r : Reg}
    (h : ∀ adj, adjustedBase f ≠ some (adj, r)) : (preDecrement w f s).reg r = s.reg r := by
  unfold preDecrement
  split
  · rename_i adj q e
    split
    · exact reg_setReg_ne _ _ _ _ fun he => h adj (by rw [e, he])
    · rfl
  · rfl

@[simp] theorem flags_postIncrement (w : Width) (f : TwoForm) (s : State) : (postIncrement w f s).flags = s.flags := by
  cases f <;> simp only [postIncrement, adjustedBase] <;> split <;> rfl

@[simp] theorem mem_postIncrement (w : Width) (f : TwoForm) (s : State) : (postIncrement w f s).mem = s.mem := by
  cases f <;> simp only [postIncrement, adjustedBase] <;> split <;> rfl

@[simp] theorem asleep_postIncrement (w : Width) (f : TwoForm) (s : State) :
    (postIncrement w f s).asleep = s.asleep := by
  cases f <;> simp only [postIncrement, adjustedBase] <;> split <;> rfl

@[simp] theorem callback_postIncrement (w : Width) (f : TwoForm) (s : State) :
    (postIncrement w f s).callback = s.callback := by
  cases f <;> simp only [postIncrement, adjustedBase] <;> split <;> rfl

@[simp] theorem syscalls_postIncrement (w : Width) (f : TwoForm) (s : State) :
    (postIncrement w f s).syscalls = s.syscalls := by
  cases f <;> simp only [postIncrement, adjustedBase] <;> split <;> rfl

/-- A post-increment changes no register but the adjusted base (R134). -/
theorem reg_postIncrement (w : Width) (f : TwoForm) (s : State) {r : Reg}
    (h : ∀ adj, adjustedBase f ≠ some (adj, r)) : (postIncrement w f s).reg r = s.reg r := by
  unfold postIncrement
  split
  · rename_i adj q e
    split
    · exact reg_setReg_ne _ _ _ _ fun he => h adj (by rw [e, he])
    · rfl
  · rfl

@[simp] theorem mem_writeSide {W : Nat} (side : Option (BitVec W)) (s : State) : (writeSide side s).mem = s.mem := by
  cases side <;> rfl
@[simp] theorem flags_writeSide {W : Nat} (side : Option (BitVec W)) (s : State) :
    (writeSide side s).flags = s.flags := by
  cases side <;> rfl
@[simp] theorem asleep_writeSide {W : Nat} (side : Option (BitVec W)) (s : State) :
    (writeSide side s).asleep = s.asleep := by
  cases side <;> rfl
@[simp] theorem callback_writeSide {W : Nat} (side : Option (BitVec W)) (s : State) :
    (writeSide side s).callback = s.callback := by
  cases side <;> rfl
@[simp] theorem syscalls_writeSide {W : Nat} (side : Option (BitVec W)) (s : State) :
    (writeSide side s).syscalls = s.syscalls := by
  cases side <;> rfl

@[simp] theorem mem_writeDest (op : AluOp) (w : Width) (f : TwoForm) (r : BitVec w.bits) (s : State) :
    (writeDest op w f r s).mem = s.mem := by
  unfold writeDest; split <;> [rfl; (split <;> rfl)]
@[simp] theorem asleep_writeDest (op : AluOp) (w : Width) (f : TwoForm) (r : BitVec w.bits) (s : State) :
    (writeDest op w f r s).asleep = s.asleep := by
  unfold writeDest; split <;> [rfl; (split <;> rfl)]
@[simp] theorem callback_writeDest (op : AluOp) (w : Width) (f : TwoForm) (r : BitVec w.bits) (s : State) :
    (writeDest op w f r s).callback = s.callback := by
  unfold writeDest; split <;> [rfl; (split <;> rfl)]
@[simp] theorem syscalls_writeDest (op : AluOp) (w : Width) (f : TwoForm) (r : BitVec w.bits) (s : State) :
    (writeDest op w f r s).syscalls = s.syscalls := by
  unfold writeDest; split <;> [rfl; (split <;> rfl)]

@[simp] theorem flags_commit (op : AluOp) (w : Width) (f : TwoForm) (out : AluOut w.bits) (s : State) :
    (commit op w f out s).flags = out.flags := rfl
@[simp] theorem mem_commit (op : AluOp) (w : Width) (f : TwoForm) (out : AluOut w.bits) (s : State) :
    (commit op w f out s).mem = s.mem := by simp [commit]
@[simp] theorem asleep_commit (op : AluOp) (w : Width) (f : TwoForm) (out : AluOut w.bits) (s : State) :
    (commit op w f out s).asleep = s.asleep := by simp [commit]
@[simp] theorem callback_commit (op : AluOp) (w : Width) (f : TwoForm) (out : AluOut w.bits) (s : State) :
    (commit op w f out s).callback = s.callback := by simp [commit]
@[simp] theorem syscalls_commit (op : AluOp) (w : Width) (f : TwoForm) (out : AluOut w.bits) (s : State) :
    (commit op w f out s).syscalls = s.syscalls := by simp [commit]

/-- The commit changes no register but the destination, which CMP does not write, and register 13 when there is a side
value (R122 step 8). -/
theorem reg_commit (op : AluOp) (w : Width) (f : TwoForm) (out : AluOut w.bits) (s : State) {r : Reg}
    (h : destReg f ≠ some r ∨ op = .cmp) (hs : out.side = none ∨ r ≠ sideReg) :
    (commit op w f out s).reg r = s.reg r := by
  have e : (writeSide out.side s).reg r = s.reg r := by
    unfold writeSide
    split
    · rename_i v hv
      rcases hs with hs | hs
      · rw [hs] at hv; cases hv
      · exact reg_setReg_ne _ _ _ _ (Ne.symm hs)
    · rfl
  rw [commit, reg_withFlags, ← e]
  unfold writeDest
  split
  · rfl
  · split
    · rename_i hc _ ra hd
      exact reg_setReg_ne _ _ _ _ fun he => by simp [hd, he, hc] at h
    · rfl

/-! ## Effects of the whole handler -/

@[simp] theorem flags_afterAlu (op : AluOp) (w : Width) (f : TwoForm) (out : AluOut w.bits) (s : State) :
    (afterAlu op w f out s).flags = out.flags := by simp [afterAlu]
@[simp] theorem mem_afterAlu (op : AluOp) (w : Width) (f : TwoForm) (out : AluOut w.bits) (s : State) :
    (afterAlu op w f out s).mem = storedMem op w f out.r s := by simp [afterAlu]
@[simp] theorem asleep_afterAlu (op : AluOp) (w : Width) (f : TwoForm) (out : AluOut w.bits) (s : State) :
    (afterAlu op w f out s).asleep = s.asleep := by simp [afterAlu]
@[simp] theorem callback_afterAlu (op : AluOp) (w : Width) (f : TwoForm) (out : AluOut w.bits) (s : State) :
    (afterAlu op w f out s).callback = s.callback := by simp [afterAlu]
@[simp] theorem syscalls_afterAlu (op : AluOp) (w : Width) (f : TwoForm) (out : AluOut w.bits) (s : State) :
    (afterAlu op w f out s).syscalls = s.syscalls := by simp [afterAlu]

/-- What the ALU does not touch: the side value is there for MUL and DIV alone, and Break and InterruptDisable are never
written (R29, R144). -/
theorem alu_frame {op : AluOp} {W : Nat} {a b : BitVec W} {f : Flags} {out : AluOut W}
    (h : alu op a b f = .ok out) :
    (op ≠ .mul → op ≠ .div → out.side = none) ∧ out.flags.b = f.b ∧ out.flags.i = f.i ∧
      (additive op = false → out.flags.c = f.c ∧ out.flags.v = f.v) := by
  cases op <;> simp only [alu, aluDiv] at h
  case div =>
    split at h
    · cases h
    · injection h with h; subst h; simp [Flags.setNZ]
  all_goals
    injection h with h; subst h
    simp [logicOut, aluAdd, aluSub, aluMul, Flags.setNZ, additive]

/-- The ALU raises nothing but the zero divide of DIV (R189, R314). -/
theorem alu_error {op : AluOp} {W : Nat} {a b : BitVec W} {f : Flags} {e : Exn} (h : alu op a b f = .error e) :
    op = .div ∧ b.toNat = 0 ∧ e = .divisionByZero := by
  cases op <;> simp only [alu, aluDiv] at h
  case div =>
    split at h
    · rename_i hb; injection h with h; exact ⟨rfl, hb, h.symm⟩
    · cases h
  all_goals cases h

/-- When the result is stored, it is stored inside the bank (R122 step 7). -/
theorem storeResult_cases (op : AluOp) (w : Width) (f : TwoForm) (r : BitVec w.bits) (s : State) :
    (storeResult op w f r s = .ok (s.withMem (storedMem op w f r s)) ∧
      (op ≠ .cmp → ∀ ea, destReg f = none → memAddr f s = some ea → s.accessible ea w.bytes)) ∨
    (∃ ea, destReg f = none ∧ memAddr f s = some ea ∧ ¬ s.accessible ea w.bytes ∧
      storeResult op w f r s = .error (.invalidAddress ea)) := by
  by_cases hc : op = .cmp
  · left
    subst hc
    refine ⟨?_, fun h => absurd rfl h⟩
    have : storedMem .cmp w f r s = s.mem := by
      unfold storedMem; split <;> simp
    rw [this]
    simp [storeResult]
  · cases hd : destReg f with
    | some ra => left; exact ⟨by simp [storeResult, storedMem, hd, hc], by simp⟩
    | none =>
      obtain ⟨ea, hm⟩ := memAddr_of_dest s hd
      rcases store_cases s w.bytes ea r.toNat with ⟨h, e⟩ | ⟨h, e⟩
      · left
        refine ⟨by simp [storeResult, storedMem, hd, hm, hc, e], fun _ ea' _ h' => ?_⟩
        rw [hm] at h'
        injection h' with h'
        exact h' ▸ h
      · exact .inr ⟨ea, rfl, hm, Nat.not_le.mpr h, by simp [storeResult, hd, hm, hc, e]⟩

/-- Everything the two-operand handler can answer: an exception in the state after the pre-decrement, or the ALU outcome
of its two operands landed (R122). -/
theorem twoOperand_cases (op : AluOp) (w : Width) (f : TwoForm) (s : State) :
    let s1 := preDecrement w f s
    (∃ e, twoOperand op w f s = .raised e s1) ∨
    ∃ a b out, sourceValue w f s1 = .ok b ∧ oldValue op w f s1 = .ok a ∧ alu op a b s.flags = .ok out ∧
      (op ≠ .cmp → ∀ ea, destReg f = none → memAddr f s1 = some ea → s1.accessible ea w.bytes) ∧
      twoOperand op w f s = .done (afterAlu op w f out s1) := by
  intro s1
  have hf : s1.flags = s.flags := flags_preDecrement w f s
  unfold twoOperand
  simp only []
  change (∃ e, _ = _) ∨ _
  cases hb : sourceValue w f s1 with
  | error e => exact .inl ⟨e, by simp only [s1]⟩
  | ok b =>
    cases ha : oldValue op w f s1 with
    | error e => exact .inl ⟨e, by simp only [s1]⟩
    | ok a =>
      cases ho : alu op a b s1.flags with
      | error e => exact .inl ⟨e, by simp only [s1] at ho; simp only [ho, s1]⟩
      | ok out =>
        rcases storeResult_cases op w f out.r s1 with ⟨hs, hacc⟩ | ⟨ea, _, _, _, hs⟩
        · refine .inr ⟨a, b, out, rfl, rfl, hf ▸ ho, hacc, ?_⟩
          simp only [s1] at ho hs; simp only [ho, hs, s1]; rfl
        · exact .inl ⟨_, by simp only [s1] at ho hs; simp only [ho, hs, s1]; rfl⟩

/-- With both operands read and an ALU outcome, the handler completes (R122). -/
theorem twoOperand_ok {op : AluOp} {w : Width} {f : TwoForm} {s : State} {a b : BitVec w.bits} {out : AluOut w.bits}
    (ha : destValue w f (preDecrement w f s) = .ok a) (hb : sourceValue w f (preDecrement w f s) = .ok b)
    (ho : alu op a b s.flags = .ok out) (hop : op ≠ .mov) :
    twoOperand op w f s = .done (afterAlu op w f out (preDecrement w f s)) := by
  have hold : oldValue op w f (preDecrement w f s) = .ok a := by simp [oldValue, hop, ha]
  have ho' : alu op a b (preDecrement w f s).flags = .ok out := by simpa using ho
  rcases storeResult_cases op w f out.r (preDecrement w f s) with ⟨hs, _⟩ | ⟨ea, hd, hm, hn, _⟩
  · unfold twoOperand
    simp only [hb, hold, ho', hs]
    rfl
  · rw [destValue_mem hd hm] at ha
    exact absurd (loadAt_accessible ha).1 hn

/-- The handler keeps the capacity and the canonical form of the bank. -/
theorem keeps_twoOperand (op : AluOp) (w : Width) (f : TwoForm) (s : State) : Keeps s (twoOperand op w f s).state := by
  rcases twoOperand_cases op w f s with ⟨e, h⟩ | ⟨a, b, out, _, _, _, hacc, h⟩ <;> rw [h]
  · exact .of_mem (mem_preDecrement w f s)
  · have k : Keeps (preDecrement w f s) (afterAlu op w f out (preDecrement w f s)) := by
      unfold Keeps State.Inv
      rw [mem_afterAlu]
      unfold storedMem
      split
      · split
        · exact ⟨rfl, id⟩
        · rename_i hd hm hc
          have := hacc hc _ hd hm
          exact ⟨cap_writeLe _ _ _ _, fun hi => wf_writeLe _ hi _ _ this⟩
      · exact ⟨rfl, id⟩
    exact (Keeps.of_mem (mem_preDecrement w f s)).trans k

end Sys2Proof.Machine
end

