-- ==== Sys2Proof/Laws/Exec.lean ====
section
/-! SUPPORT. `exec` through the view of an instruction: the one fact that a statement about all instructions of a
handler class needs, and what every instruction keeps. -/

namespace Sys2Proof.Machine

/-- Every instruction does what its handler class does with its operation and operands (R120). -/
theorem exec_eq (i : Instr) (s : State) : exec i s = complete (viewMicro i.view s) := by
  cases i <;> rfl

/-- A two-operand instruction is the two-operand handler (R122). -/
theorem exec_two {i : Instr} {op : AluOp} {w : Width} {f : TwoForm} (h : i.view = .two op w f) (s : State) :
    exec i s = complete (twoOperand op w f s) := by
  rw [exec_eq, h]
  rfl

/-! ## The stack instructions -/

/-- Everything popping into a register can answer (R233). -/
theorem popReg_cases (w : Width) (ra : Reg) (s : State) :
    (s.accessible s.sp w.bytes ∧
      popReg w ra s = .done ((s.setSp (s.sp + BitVec.ofNat 32 w.bytes)).regWrite ra w
        (BitVec.ofNat w.bits (s.mem.readLe w.bytes s.sp.toNat)))) ∨
    (¬ s.accessible s.sp w.bytes ∧ popReg w ra s = .raised (.invalidAddress s.sp) s) := by
  rcases pop_cases w.bytes s with ⟨h, e⟩ | ⟨h, e⟩
  · exact .inl ⟨h, by simp [popReg, e]⟩
  · exact .inr ⟨h, by simp [popReg, e]⟩

/-- What pushes and pops leave alone. -/
def SameButStack (s t : State) : Prop :=
  t.flags = s.flags ∧ t.asleep = s.asleep ∧ t.callback = s.callback ∧ t.syscalls = s.syscalls

theorem SameButStack.refl (s : State) : SameButStack s s := ⟨rfl, rfl, rfl, rfl⟩

theorem SameButStack.trans {s t u : State} (h : SameButStack s t) (k : SameButStack t u) : SameButStack s u :=
  ⟨k.1.trans h.1, k.2.1.trans h.2.1, k.2.2.1.trans h.2.2.1, k.2.2.2.trans h.2.2.2⟩

theorem SameButStack.andThen {s : State} {m : Micro} {k : State → Micro} (h : SameButStack s m.state)
    (hk : ∀ s1, SameButStack s1 (k s1).state) : SameButStack s (m.andThen k).state := by
  cases m with
  | done s1 => exact h.trans (hk s1)
  | raised e s1 => exact h

theorem push_frame (n v : Nat) (s : State) : SameButStack s (push n v s).state := by
  rcases push_cases n v s with ⟨_, e⟩ | ⟨_, e⟩ <;> rw [e] <;> exact ⟨rfl, rfl, rfl, rfl⟩

theorem popReg_frame (w : Width) (ra : Reg) (s : State) :
    SameButStack s (popReg w ra s).state ∧ (popReg w ra s).state.mem = s.mem := by
  rcases popReg_cases w ra s with ⟨_, e⟩ | ⟨_, e⟩ <;> rw [e] <;> exact ⟨⟨rfl, rfl, rfl, rfl⟩, rfl⟩

theorem pushFrame_frame (s : State) : SameButStack s (pushFrame s).state :=
  SameButStack.andThen (push_frame _ _ _) fun _ => push_frame _ _ _

theorem pushRegs_frame (w : Width) (l : List Reg) :
    ∀ s : State, SameButStack s (pushRegs w l s).state := by
  induction l with
  | nil => exact SameButStack.refl
  | cons r l ih => exact fun s => SameButStack.andThen (push_frame _ _ s) ih

theorem popRegs_frame (w : Width) (l : List Reg) :
    ∀ s : State, SameButStack s (popRegs w l s).state ∧ (popRegs w l s).state.mem = s.mem := by
  induction l with
  | nil => exact fun s => ⟨SameButStack.refl s, rfl⟩
  | cons r l ih =>
    intro s
    have h := popReg_frame w r s
    have e : popRegs w (r :: l) s = (popReg w r s).andThen (popRegs w l) := rfl
    rw [e]
    cases hm : popReg w r s with
    | done s1 =>
      rw [hm] at h
      exact ⟨h.1.trans (ih s1).1, (ih s1).2.trans h.2⟩
    | raised ex s1 => rw [hm] at h; exact h

theorem keeps_pushRegs (w : Width) (l : List Reg) : ∀ s : State, Keeps s (pushRegs w l s).state := by
  induction l with
  | nil => exact Keeps.refl
  | cons r l ih => exact fun s => Keeps.andThen (keeps_push _ _ s) ih

/-! ## The syscall -/

theorem keeps_hostWrites (l : List (Nat × Byte)) :
    ∀ m : Memory, (hostWrites l m).cap = m.cap ∧ (m.wf = true → (hostWrites l m).wf = true) := by
  induction l with
  | nil => exact fun m => ⟨rfl, id⟩
  | cons c l ih =>
    obtain ⟨a, b⟩ := c
    intro m
    rw [hostWrites]
    split
    · rename_i h
      exact ⟨(ih _).1, fun hw => (ih _).2 (wf_setByte hw b h)⟩
    · exact ih m

/-- Everything a system call can answer: the state with other memory contents and a counted callback (R282, R283). -/
theorem systemCall_cases (id : BitVec 16) (addr : Word) (s : State) :
    ∃ m n, systemCall id addr s = .done { s with mem := m, syscalls := n } ∧ m.cap = s.mem.cap ∧
      (s.mem.wf = true → m.wf = true) ∧ (s.callback = none → m = s.mem ∧ n = s.syscalls) := by
  unfold systemCall
  split
  · exact ⟨s.mem, s.syscalls, rfl, rfl, fun h => h, fun _ => ⟨rfl, rfl⟩⟩
  · rename_i k hk
    refine ⟨_, _, rfl, (keeps_hostWrites _ _).1, (keeps_hostWrites _ _).2, fun h => ?_⟩
    rw [hk] at h
    cases h

/-! ## Every instruction -/

/-- Every instruction keeps the capacity and the canonical form of the bank, also when it raises an exception. -/
theorem keeps_viewMicro (v : View) (s : State) : Keeps s (viewMicro v s).state := by
  cases v with
  | two op w f => exact keeps_twoOperand op w f s
  | reg1 op w ra =>
    cases op with
    | push => exact keeps_push _ _ s
    | pop => exact .of_mem (popReg_frame w ra s).2
    | _ => exact .of_mem rfl
  | pushConst w c => exact keeps_push _ _ s
  | implied op w =>
    cases op with
    | pusha => exact keeps_pushRegs w dataRegs s
    | popa => exact .of_mem (popRegs_frame w dataRegs.reverse s).2
    | rts =>
      simp only [viewMicro, impliedMicro, ret]
      rcases pop_cases 4 s with ⟨_, e⟩ | ⟨_, e⟩ <;> rw [e] <;> exact .of_mem rfl
    | brk =>
      exact (keeps_pushFrame s).andThen fun s1 =>
        Keeps.trans (.of_mem rfl) (keeps_loadVector vecSwIrq (s1.withFlags { s1.flags with b := true }))
    | rti => exact keeps_leaveInterrupt s
    | _ => exact .of_mem rfl
  | branch cond w disp =>
    simp only [viewMicro, branch]
    split <;> exact .of_mem rfl
  | direct op addr =>
    cases op with
    | jmp => exact .of_mem rfl
    | jsr => exact (keeps_push _ _ s).andThen fun s1 => .of_mem rfl
  | sys id addr =>
    obtain ⟨m, n, e, h1, h2, _⟩ := systemCall_cases id addr s
    simp only [viewMicro, e]
    exact ⟨h1, h2⟩

end Sys2Proof.Machine
end

