-- ==== Sys2Proof/Laws/Alu.lean ====
section
/-! SUPPORT. The ALU in the terms of the spec's flag rules (spec/42_arithmetic.md R181,
spec/43_logic_shift_rotate.md R214 to R218). -/

namespace Sys2Proof.Machine

theorem bits_pos (w : Width) : 0 < w.bits := by cases w <;> decide

/-- Z and N as the spec's rule words them (R30). -/
theorem setNZ_eq (f : Flags) (w : Width) (r : BitVec w.bits) : f.setNZ r = withNZ f r := by
  simp [Flags.setNZ, withNZ, BitVec.msb_eq_getLsbD_last]

/-- The signed range (R8). -/
theorem signedOverflow_eq (W : Nat) (st : Int) : signedOverflow W st = outsideSigned W st := by
  simp [signedOverflow, outsideSigned]

/-- The addition with its four flags (R181). -/
theorem aluAdd_eq (w : Width) (a b : BitVec w.bits) (cin : Bool) (f : Flags) :
    aluAdd a b cin f =
      { r := a + b + BitVec.ofNat w.bits cin.toNat
        flags := { withNZ f (a + b + BitVec.ofNat w.bits cin.toNat) with
          c := decide (2 ^ w.bits - 1 < a.toNat + b.toNat + cin.toNat)
          v := outsideSigned w.bits (a.toInt + b.toInt + (cin.toNat : Int)) }
        side := none } := by
  have hr : BitVec.ofNat w.bits (a.toNat + b.toNat + cin.toNat) = a + b + BitVec.ofNat w.bits cin.toNat := by
    apply BitVec.eq_of_toNat_eq; simp
  unfold aluAdd
  simp only []
  rw [hr, setNZ_eq, signedOverflow_eq]; rfl

/-- The subtraction with its four flags (R181). -/
theorem aluSub_eq (w : Width) (a b : BitVec w.bits) (cin : Bool) (f : Flags) :
    aluSub a b cin f =
      { r := a - b - BitVec.ofNat w.bits cin.toNat
        flags := { withNZ f (a - b - BitVec.ofNat w.bits cin.toNat) with
          c := decide (a.toNat < b.toNat + cin.toNat)
          v := outsideSigned w.bits (a.toInt - b.toInt - (cin.toNat : Int)) }
        side := none } := by
  have hr : BitVec.ofInt w.bits ((a.toNat : Int) - b.toNat - cin.toNat) =
      a - b - BitVec.ofNat w.bits cin.toNat := by
    have hs : ∀ (x y : Int), BitVec.ofInt w.bits (x - y) = BitVec.ofInt w.bits x - BitVec.ofInt w.bits y := by
      intro x y
      apply BitVec.eq_of_toInt_eq
      simp
    rw [hs, hs]; simp [BitVec.ofInt_natCast]
  unfold aluSub
  simp only []
  rw [hr, setNZ_eq, signedOverflow_eq]
  congr 2
  unfold borrowOut
  congr 1
  apply propext; constructor <;> intro h <;> omega

theorem amount_lt (w : Width) (b : BitVec w.bits) : b.toNat % w.bits < w.bits := Nat.mod_lt _ (bits_pos w)

theorem shlValue_eq (w : Width) (a b : BitVec w.bits) : shlValue a b = a <<< (b.toNat % w.bits) := by
  apply BitVec.eq_of_toNat_eq
  simp [shlValue, shiftAmount, Nat.shiftLeft_eq]

theorem shrValue_eq (w : Width) (a b : BitVec w.bits) : shrValue a b = a >>> (b.toNat % w.bits) := by
  apply BitVec.eq_of_toNat_eq
  simp [shrValue, shiftAmount, Nat.shiftRight_eq_div_pow]
  exact Nat.mod_eq_of_lt (Nat.lt_of_le_of_lt (Nat.div_le_self _ _) a.isLt)

theorem testBit_doubled (w : Width) (a : BitVec w.bits) (k : Nat) :
    (doubled a).testBit k = if k < w.bits then a.getLsbD k else a.getLsbD (k - w.bits) := by
  unfold doubled
  rw [Nat.mul_comm, Nat.testBit_two_pow_mul_add _ a.isLt]
  rfl

theorem rolValue_eq (w : Width) (a b : BitVec w.bits) : rolValue a b = a.rotateLeft (b.toNat % w.bits) := by
  have h := amount_lt w b
  apply BitVec.eq_of_getLsbD_eq
  intro k hk
  rw [BitVec.getLsbD_rotateLeft]
  unfold rolValue shiftAmount
  rw [BitVec.getLsbD_ofNat, Nat.testBit_div_two_pow, Nat.mul_comm (doubled a), Nat.testBit_two_pow_mul,
    testBit_doubled, Nat.mod_mod]
  generalize b.toNat % w.bits = m at *
  simp only [hk, decide_true, Bool.true_and]
  have h0 : k + w.bits ≥ m := by omega
  split
  · have : k < m := by omega
    simp [h0, this]; congr 1; omega
  · have : ¬ k < m := by omega
    simp [h0, this]; congr 1; omega

theorem rorValue_eq (w : Width) (a b : BitVec w.bits) : rorValue a b = a.rotateRight (b.toNat % w.bits) := by
  have h := amount_lt w b
  apply BitVec.eq_of_getLsbD_eq
  intro k hk
  rw [BitVec.getLsbD_rotateRight]
  unfold rorValue shiftAmount
  rw [BitVec.getLsbD_ofNat, Nat.testBit_div_two_pow, testBit_doubled, Nat.mod_mod]
  generalize b.toNat % w.bits = m at *
  simp only [hk, decide_true, Bool.true_and]
  split
  · have : k < w.bits - m := by omega
    simp [this]; congr 1; omega
  · have : ¬ k < w.bits - m := by omega
    simp [this]; congr 1; omega

end Sys2Proof.Machine
end

