-- ==== Sys2Proof/Laws/PerInstr.lean ====
section
/-! SUPPORT. The per-instruction family `ViewInverse`: the decoder's table of instructions inverts the view, so that
no two instructions share an opcode and addressing mode (R90). -/

namespace Sys2Proof.Laws

/-- The decoder's tables give an instruction back from its view. -/
def ViewInverse.Statement (i : Instr) : Prop := i.view.instr = i

theorem ViewInverse.movRegImm (w : Width) (ra : Reg) (c : Word) : ViewInverse.Statement (.movRegImm w ra c) := rfl
theorem ViewInverse.movReg2 (w : Width) (ra rb : Reg) : ViewInverse.Statement (.movReg2 w ra rb) := rfl
theorem ViewInverse.movAbsSrc (w : Width) (ra : Reg) (addr : Word) : ViewInverse.Statement (.movAbsSrc w ra addr) := rfl
theorem ViewInverse.movAbsDst (w : Width) (addr : Word) (rb : Reg) : ViewInverse.Statement (.movAbsDst w addr rb) := rfl
theorem ViewInverse.movAbsConst (w : Width) (addr : Word) (c : Word) : ViewInverse.Statement (.movAbsConst w addr c) := rfl
theorem ViewInverse.movIndSrc (w : Width) (adj : Adjust) (ra rb : Reg) : ViewInverse.Statement (.movIndSrc w adj ra rb) := rfl
theorem ViewInverse.movIndDst (w : Width) (adj : Adjust) (ra rb : Reg) : ViewInverse.Statement (.movIndDst w adj ra rb) := rfl
theorem ViewInverse.movIndConst (w : Width) (adj : Adjust) (ra : Reg) (c : Word) : ViewInverse.Statement (.movIndConst w adj ra c) := rfl
theorem ViewInverse.movIdxSrc (w : Width) (ra rb : Reg) (off : Word) : ViewInverse.Statement (.movIdxSrc w ra rb off) := rfl
theorem ViewInverse.movIdxDst (w : Width) (ra : Reg) (off : Word) (rb : Reg) : ViewInverse.Statement (.movIdxDst w ra off rb) := rfl
theorem ViewInverse.movIdxConst (w : Width) (ra : Reg) (off : Word) (c : Word) : ViewInverse.Statement (.movIdxConst w ra off c) := rfl
theorem ViewInverse.clr (w : Width) (ra : Reg) : ViewInverse.Statement (.clr w ra) := rfl
theorem ViewInverse.addRegImm (w : Width) (ra : Reg) (c : Word) : ViewInverse.Statement (.addRegImm w ra c) := rfl
theorem ViewInverse.addReg2 (w : Width) (ra rb : Reg) : ViewInverse.Statement (.addReg2 w ra rb) := rfl
theorem ViewInverse.addAbsSrc (w : Width) (ra : Reg) (addr : Word) : ViewInverse.Statement (.addAbsSrc w ra addr) := rfl
theorem ViewInverse.addAbsDst (w : Width) (addr : Word) (rb : Reg) : ViewInverse.Statement (.addAbsDst w addr rb) := rfl
theorem ViewInverse.addAbsConst (w : Width) (addr : Word) (c : Word) : ViewInverse.Statement (.addAbsConst w addr c) := rfl
theorem ViewInverse.addIndSrc (w : Width) (adj : Adjust) (ra rb : Reg) : ViewInverse.Statement (.addIndSrc w adj ra rb) := rfl
theorem ViewInverse.addIndDst (w : Width) (adj : Adjust) (ra rb : Reg) : ViewInverse.Statement (.addIndDst w adj ra rb) := rfl
theorem ViewInverse.addIndConst (w : Width) (adj : Adjust) (ra : Reg) (c : Word) : ViewInverse.Statement (.addIndConst w adj ra c) := rfl
theorem ViewInverse.addIdxSrc (w : Width) (ra rb : Reg) (off : Word) : ViewInverse.Statement (.addIdxSrc w ra rb off) := rfl
theorem ViewInverse.addIdxDst (w : Width) (ra : Reg) (off : Word) (rb : Reg) : ViewInverse.Statement (.addIdxDst w ra off rb) := rfl
theorem ViewInverse.addIdxConst (w : Width) (ra : Reg) (off : Word) (c : Word) : ViewInverse.Statement (.addIdxConst w ra off c) := rfl
theorem ViewInverse.subRegImm (w : Width) (ra : Reg) (c : Word) : ViewInverse.Statement (.subRegImm w ra c) := rfl
theorem ViewInverse.subReg2 (w : Width) (ra rb : Reg) : ViewInverse.Statement (.subReg2 w ra rb) := rfl
theorem ViewInverse.subAbsSrc (w : Width) (ra : Reg) (addr : Word) : ViewInverse.Statement (.subAbsSrc w ra addr) := rfl
theorem ViewInverse.subAbsDst (w : Width) (addr : Word) (rb : Reg) : ViewInverse.Statement (.subAbsDst w addr rb) := rfl
theorem ViewInverse.subAbsConst (w : Width) (addr : Word) (c : Word) : ViewInverse.Statement (.subAbsConst w addr c) := rfl
theorem ViewInverse.subIndSrc (w : Width) (adj : Adjust) (ra rb : Reg) : ViewInverse.Statement (.subIndSrc w adj ra rb) := rfl
theorem ViewInverse.subIndDst (w : Width) (adj : Adjust) (ra rb : Reg) : ViewInverse.Statement (.subIndDst w adj ra rb) := rfl
theorem ViewInverse.subIndConst (w : Width) (adj : Adjust) (ra : Reg) (c : Word) : ViewInverse.Statement (.subIndConst w adj ra c) := rfl
theorem ViewInverse.subIdxSrc (w : Width) (ra rb : Reg) (off : Word) : ViewInverse.Statement (.subIdxSrc w ra rb off) := rfl
theorem ViewInverse.subIdxDst (w : Width) (ra : Reg) (off : Word) (rb : Reg) : ViewInverse.Statement (.subIdxDst w ra off rb) := rfl
theorem ViewInverse.subIdxConst (w : Width) (ra : Reg) (off : Word) (c : Word) : ViewInverse.Statement (.subIdxConst w ra off c) := rfl
theorem ViewInverse.adcRegImm (w : Width) (ra : Reg) (c : Word) : ViewInverse.Statement (.adcRegImm w ra c) := rfl
theorem ViewInverse.adcReg2 (w : Width) (ra rb : Reg) : ViewInverse.Statement (.adcReg2 w ra rb) := rfl
theorem ViewInverse.adcAbsSrc (w : Width) (ra : Reg) (addr : Word) : ViewInverse.Statement (.adcAbsSrc w ra addr) := rfl
theorem ViewInverse.adcAbsDst (w : Width) (addr : Word) (rb : Reg) : ViewInverse.Statement (.adcAbsDst w addr rb) := rfl
theorem ViewInverse.adcAbsConst (w : Width) (addr : Word) (c : Word) : ViewInverse.Statement (.adcAbsConst w addr c) := rfl
theorem ViewInverse.adcIndSrc (w : Width) (adj : Adjust) (ra rb : Reg) : ViewInverse.Statement (.adcIndSrc w adj ra rb) := rfl
theorem ViewInverse.adcIndDst (w : Width) (adj : Adjust) (ra rb : Reg) : ViewInverse.Statement (.adcIndDst w adj ra rb) := rfl
theorem ViewInverse.adcIndConst (w : Width) (adj : Adjust) (ra : Reg) (c : Word) : ViewInverse.Statement (.adcIndConst w adj ra c) := rfl
theorem ViewInverse.adcIdxSrc (w : Width) (ra rb : Reg) (off : Word) : ViewInverse.Statement (.adcIdxSrc w ra rb off) := rfl
theorem ViewInverse.adcIdxDst (w : Width) (ra : Reg) (off : Word) (rb : Reg) : ViewInverse.Statement (.adcIdxDst w ra off rb) := rfl
theorem ViewInverse.adcIdxConst (w : Width) (ra : Reg) (off : Word) (c : Word) : ViewInverse.Statement (.adcIdxConst w ra off c) := rfl
theorem ViewInverse.sbcRegImm (w : Width) (ra : Reg) (c : Word) : ViewInverse.Statement (.sbcRegImm w ra c) := rfl
theorem ViewInverse.sbcReg2 (w : Width) (ra rb : Reg) : ViewInverse.Statement (.sbcReg2 w ra rb) := rfl
theorem ViewInverse.sbcAbsSrc (w : Width) (ra : Reg) (addr : Word) : ViewInverse.Statement (.sbcAbsSrc w ra addr) := rfl
theorem ViewInverse.sbcAbsDst (w : Width) (addr : Word) (rb : Reg) : ViewInverse.Statement (.sbcAbsDst w addr rb) := rfl
theorem ViewInverse.sbcAbsConst (w : Width) (addr : Word) (c : Word) : ViewInverse.Statement (.sbcAbsConst w addr c) := rfl
theorem ViewInverse.sbcIndSrc (w : Width) (adj : Adjust) (ra rb : Reg) : ViewInverse.Statement (.sbcIndSrc w adj ra rb) := rfl
theorem ViewInverse.sbcIndDst (w : Width) (adj : Adjust) (ra rb : Reg) : ViewInverse.Statement (.sbcIndDst w adj ra rb) := rfl
theorem ViewInverse.sbcIndConst (w : Width) (adj : Adjust) (ra : Reg) (c : Word) : ViewInverse.Statement (.sbcIndConst w adj ra c) := rfl
theorem ViewInverse.sbcIdxSrc (w : Width) (ra rb : Reg) (off : Word) : ViewInverse.Statement (.sbcIdxSrc w ra rb off) := rfl
theorem ViewInverse.sbcIdxDst (w : Width) (ra : Reg) (off : Word) (rb : Reg) : ViewInverse.Statement (.sbcIdxDst w ra off rb) := rfl
theorem ViewInverse.sbcIdxConst (w : Width) (ra : Reg) (off : Word) (c : Word) : ViewInverse.Statement (.sbcIdxConst w ra off c) := rfl
theorem ViewInverse.andRegImm (w : Width) (ra : Reg) (c : Word) : ViewInverse.Statement (.andRegImm w ra c) := rfl
theorem ViewInverse.andReg2 (w : Width) (ra rb : Reg) : ViewInverse.Statement (.andReg2 w ra rb) := rfl
theorem ViewInverse.andAbsSrc (w : Width) (ra : Reg) (addr : Word) : ViewInverse.Statement (.andAbsSrc w ra addr) := rfl
theorem ViewInverse.andAbsDst (w : Width) (addr : Word) (rb : Reg) : ViewInverse.Statement (.andAbsDst w addr rb) := rfl
theorem ViewInverse.andAbsConst (w : Width) (addr : Word) (c : Word) : ViewInverse.Statement (.andAbsConst w addr c) := rfl
theorem ViewInverse.andIndSrc (w : Width) (adj : Adjust) (ra rb : Reg) : ViewInverse.Statement (.andIndSrc w adj ra rb) := rfl
theorem ViewInverse.andIndDst (w : Width) (adj : Adjust) (ra rb : Reg) : ViewInverse.Statement (.andIndDst w adj ra rb) := rfl
theorem ViewInverse.andIndConst (w : Width) (adj : Adjust) (ra : Reg) (c : Word) : ViewInverse.Statement (.andIndConst w adj ra c) := rfl
theorem ViewInverse.andIdxSrc (w : Width) (ra rb : Reg) (off : Word) : ViewInverse.Statement (.andIdxSrc w ra rb off) := rfl
theorem ViewInverse.andIdxDst (w : Width) (ra : Reg) (off : Word) (rb : Reg) : ViewInverse.Statement (.andIdxDst w ra off rb) := rfl
theorem ViewInverse.andIdxConst (w : Width) (ra : Reg) (off : Word) (c : Word) : ViewInverse.Statement (.andIdxConst w ra off c) := rfl
theorem ViewInverse.orRegImm (w : Width) (ra : Reg) (c : Word) : ViewInverse.Statement (.orRegImm w ra c) := rfl
theorem ViewInverse.orReg2 (w : Width) (ra rb : Reg) : ViewInverse.Statement (.orReg2 w ra rb) := rfl
theorem ViewInverse.orAbsSrc (w : Width) (ra : Reg) (addr : Word) : ViewInverse.Statement (.orAbsSrc w ra addr) := rfl
theorem ViewInverse.orAbsDst (w : Width) (addr : Word) (rb : Reg) : ViewInverse.Statement (.orAbsDst w addr rb) := rfl
theorem ViewInverse.orAbsConst (w : Width) (addr : Word) (c : Word) : ViewInverse.Statement (.orAbsConst w addr c) := rfl
theorem ViewInverse.orIndSrc (w : Width) (adj : Adjust) (ra rb : Reg) : ViewInverse.Statement (.orIndSrc w adj ra rb) := rfl
theorem ViewInverse.orIndDst (w : Width) (adj : Adjust) (ra rb : Reg) : ViewInverse.Statement (.orIndDst w adj ra rb) := rfl
theorem ViewInverse.orIndConst (w : Width) (adj : Adjust) (ra : Reg) (c : Word) : ViewInverse.Statement (.orIndConst w adj ra c) := rfl
theorem ViewInverse.orIdxSrc (w : Width) (ra rb : Reg) (off : Word) : ViewInverse.Statement (.orIdxSrc w ra rb off) := rfl
theorem ViewInverse.orIdxDst (w : Width) (ra : Reg) (off : Word) (rb : Reg) : ViewInverse.Statement (.orIdxDst w ra off rb) := rfl
theorem ViewInverse.orIdxConst (w : Width) (ra : Reg) (off : Word) (c : Word) : ViewInverse.Statement (.orIdxConst w ra off c) := rfl
theorem ViewInverse.xorRegImm (w : Width) (ra : Reg) (c : Word) : ViewInverse.Statement (.xorRegImm w ra c) := rfl
theorem ViewInverse.xorReg2 (w : Width) (ra rb : Reg) : ViewInverse.Statement (.xorReg2 w ra rb) := rfl
theorem ViewInverse.xorAbsSrc (w : Width) (ra : Reg) (addr : Word) : ViewInverse.Statement (.xorAbsSrc w ra addr) := rfl
theorem ViewInverse.xorAbsDst (w : Width) (addr : Word) (rb : Reg) : ViewInverse.Statement (.xorAbsDst w addr rb) := rfl
theorem ViewInverse.xorAbsConst (w : Width) (addr : Word) (c : Word) : ViewInverse.Statement (.xorAbsConst w addr c) := rfl
theorem ViewInverse.xorIndSrc (w : Width) (adj : Adjust) (ra rb : Reg) : ViewInverse.Statement (.xorIndSrc w adj ra rb) := rfl
theorem ViewInverse.xorIndDst (w : Width) (adj : Adjust) (ra rb : Reg) : ViewInverse.Statement (.xorIndDst w adj ra rb) := rfl
theorem ViewInverse.xorIndConst (w : Width) (adj : Adjust) (ra : Reg) (c : Word) : ViewInverse.Statement (.xorIndConst w adj ra c) := rfl
theorem ViewInverse.xorIdxSrc (w : Width) (ra rb : Reg) (off : Word) : ViewInverse.Statement (.xorIdxSrc w ra rb off) := rfl
theorem ViewInverse.xorIdxDst (w : Width) (ra : Reg) (off : Word) (rb : Reg) : ViewInverse.Statement (.xorIdxDst w ra off rb) := rfl
theorem ViewInverse.xorIdxConst (w : Width) (ra : Reg) (off : Word) (c : Word) : ViewInverse.Statement (.xorIdxConst w ra off c) := rfl
theorem ViewInverse.mulRegImm (w : Width) (ra : Reg) (c : Word) : ViewInverse.Statement (.mulRegImm w ra c) := rfl
theorem ViewInverse.mulReg2 (w : Width) (ra rb : Reg) : ViewInverse.Statement (.mulReg2 w ra rb) := rfl
theorem ViewInverse.mulAbsSrc (w : Width) (ra : Reg) (addr : Word) : ViewInverse.Statement (.mulAbsSrc w ra addr) := rfl
theorem ViewInverse.mulAbsDst (w : Width) (addr : Word) (rb : Reg) : ViewInverse.Statement (.mulAbsDst w addr rb) := rfl
theorem ViewInverse.mulAbsConst (w : Width) (addr : Word) (c : Word) : ViewInverse.Statement (.mulAbsConst w addr c) := rfl
theorem ViewInverse.mulIndSrc (w : Width) (adj : Adjust) (ra rb : Reg) : ViewInverse.Statement (.mulIndSrc w adj ra rb) := rfl
theorem ViewInverse.mulIndDst (w : Width) (adj : Adjust) (ra rb : Reg) : ViewInverse.Statement (.mulIndDst w adj ra rb) := rfl
theorem ViewInverse.mulIndConst (w : Width) (adj : Adjust) (ra : Reg) (c : Word) : ViewInverse.Statement (.mulIndConst w adj ra c) := rfl
theorem ViewInverse.mulIdxSrc (w : Width) (ra rb : Reg) (off : Word) : ViewInverse.Statement (.mulIdxSrc w ra rb off) := rfl
theorem ViewInverse.mulIdxDst (w : Width) (ra : Reg) (off : Word) (rb : Reg) : ViewInverse.Statement (.mulIdxDst w ra off rb) := rfl
theorem ViewInverse.mulIdxConst (w : Width) (ra : Reg) (off : Word) (c : Word) : ViewInverse.Statement (.mulIdxConst w ra off c) := rfl
theorem ViewInverse.divRegImm (w : Width) (ra : Reg) (c : Word) : ViewInverse.Statement (.divRegImm w ra c) := rfl
theorem ViewInverse.divReg2 (w : Width) (ra rb : Reg) : ViewInverse.Statement (.divReg2 w ra rb) := rfl
theorem ViewInverse.divAbsSrc (w : Width) (ra : Reg) (addr : Word) : ViewInverse.Statement (.divAbsSrc w ra addr) := rfl
theorem ViewInverse.divAbsDst (w : Width) (addr : Word) (rb : Reg) : ViewInverse.Statement (.divAbsDst w addr rb) := rfl
theorem ViewInverse.divAbsConst (w : Width) (addr : Word) (c : Word) : ViewInverse.Statement (.divAbsConst w addr c) := rfl
theorem ViewInverse.divIndSrc (w : Width) (adj : Adjust) (ra rb : Reg) : ViewInverse.Statement (.divIndSrc w adj ra rb) := rfl
theorem ViewInverse.divIndDst (w : Width) (adj : Adjust) (ra rb : Reg) : ViewInverse.Statement (.divIndDst w adj ra rb) := rfl
theorem ViewInverse.divIndConst (w : Width) (adj : Adjust) (ra : Reg) (c : Word) : ViewInverse.Statement (.divIndConst w adj ra c) := rfl
theorem ViewInverse.divIdxSrc (w : Width) (ra rb : Reg) (off : Word) : ViewInverse.Statement (.divIdxSrc w ra rb off) := rfl
theorem ViewInverse.divIdxDst (w : Width) (ra : Reg) (off : Word) (rb : Reg) : ViewInverse.Statement (.divIdxDst w ra off rb) := rfl
theorem ViewInverse.divIdxConst (w : Width) (ra : Reg) (off : Word) (c : Word) : ViewInverse.Statement (.divIdxConst w ra off c) := rfl
theorem ViewInverse.shlRegImm (w : Width) (ra : Reg) (c : Word) : ViewInverse.Statement (.shlRegImm w ra c) := rfl
theorem ViewInverse.shlReg2 (w : Width) (ra rb : Reg) : ViewInverse.Statement (.shlReg2 w ra rb) := rfl
theorem ViewInverse.shlAbsSrc (w : Width) (ra : Reg) (addr : Word) : ViewInverse.Statement (.shlAbsSrc w ra addr) := rfl
theorem ViewInverse.shlAbsDst (w : Width) (addr : Word) (rb : Reg) : ViewInverse.Statement (.shlAbsDst w addr rb) := rfl
theorem ViewInverse.shlAbsConst (w : Width) (addr : Word) (c : Word) : ViewInverse.Statement (.shlAbsConst w addr c) := rfl
theorem ViewInverse.shlIndSrc (w : Width) (adj : Adjust) (ra rb : Reg) : ViewInverse.Statement (.shlIndSrc w adj ra rb) := rfl
theorem ViewInverse.shlIndDst (w : Width) (adj : Adjust) (ra rb : Reg) : ViewInverse.Statement (.shlIndDst w adj ra rb) := rfl
theorem ViewInverse.shlIndConst (w : Width) (adj : Adjust) (ra : Reg) (c : Word) : ViewInverse.Statement (.shlIndConst w adj ra c) := rfl
theorem ViewInverse.shlIdxSrc (w : Width) (ra rb : Reg) (off : Word) : ViewInverse.Statement (.shlIdxSrc w ra rb off) := rfl
theorem ViewInverse.shlIdxDst (w : Width) (ra : Reg) (off : Word) (rb : Reg) : ViewInverse.Statement (.shlIdxDst w ra off rb) := rfl
theorem ViewInverse.shlIdxConst (w : Width) (ra : Reg) (off : Word) (c : Word) : ViewInverse.Statement (.shlIdxConst w ra off c) := rfl
theorem ViewInverse.shrRegImm (w : Width) (ra : Reg) (c : Word) : ViewInverse.Statement (.shrRegImm w ra c) := rfl
theorem ViewInverse.shrReg2 (w : Width) (ra rb : Reg) : ViewInverse.Statement (.shrReg2 w ra rb) := rfl
theorem ViewInverse.shrAbsSrc (w : Width) (ra : Reg) (addr : Word) : ViewInverse.Statement (.shrAbsSrc w ra addr) := rfl
theorem ViewInverse.shrAbsDst (w : Width) (addr : Word) (rb : Reg) : ViewInverse.Statement (.shrAbsDst w addr rb) := rfl
theorem ViewInverse.shrAbsConst (w : Width) (addr : Word) (c : Word) : ViewInverse.Statement (.shrAbsConst w addr c) := rfl
theorem ViewInverse.shrIndSrc (w : Width) (adj : Adjust) (ra rb : Reg) : ViewInverse.Statement (.shrIndSrc w adj ra rb) := rfl
theorem ViewInverse.shrIndDst (w : Width) (adj : Adjust) (ra rb : Reg) : ViewInverse.Statement (.shrIndDst w adj ra rb) := rfl
theorem ViewInverse.shrIndConst (w : Width) (adj : Adjust) (ra : Reg) (c : Word) : ViewInverse.Statement (.shrIndConst w adj ra c) := rfl
theorem ViewInverse.shrIdxSrc (w : Width) (ra rb : Reg) (off : Word) : ViewInverse.Statement (.shrIdxSrc w ra rb off) := rfl
theorem ViewInverse.shrIdxDst (w : Width) (ra : Reg) (off : Word) (rb : Reg) : ViewInverse.Statement (.shrIdxDst w ra off rb) := rfl
theorem ViewInverse.shrIdxConst (w : Width) (ra : Reg) (off : Word) (c : Word) : ViewInverse.Statement (.shrIdxConst w ra off c) := rfl
theorem ViewInverse.rolRegImm (w : Width) (ra : Reg) (c : Word) : ViewInverse.Statement (.rolRegImm w ra c) := rfl
theorem ViewInverse.rolReg2 (w : Width) (ra rb : Reg) : ViewInverse.Statement (.rolReg2 w ra rb) := rfl
theorem ViewInverse.rolAbsSrc (w : Width) (ra : Reg) (addr : Word) : ViewInverse.Statement (.rolAbsSrc w ra addr) := rfl
theorem ViewInverse.rolAbsDst (w : Width) (addr : Word) (rb : Reg) : ViewInverse.Statement (.rolAbsDst w addr rb) := rfl
theorem ViewInverse.rolAbsConst (w : Width) (addr : Word) (c : Word) : ViewInverse.Statement (.rolAbsConst w addr c) := rfl
theorem ViewInverse.rolIndSrc (w : Width) (adj : Adjust) (ra rb : Reg) : ViewInverse.Statement (.rolIndSrc w adj ra rb) := rfl
theorem ViewInverse.rolIndDst (w : Width) (adj : Adjust) (ra rb : Reg) : ViewInverse.Statement (.rolIndDst w adj ra rb) := rfl
theorem ViewInverse.rolIndConst (w : Width) (adj : Adjust) (ra : Reg) (c : Word) : ViewInverse.Statement (.rolIndConst w adj ra c) := rfl
theorem ViewInverse.rolIdxSrc (w : Width) (ra rb : Reg) (off : Word) : ViewInverse.Statement (.rolIdxSrc w ra rb off) := rfl
theorem ViewInverse.rolIdxDst (w : Width) (ra : Reg) (off : Word) (rb : Reg) : ViewInverse.Statement (.rolIdxDst w ra off rb) := rfl
theorem ViewInverse.rolIdxConst (w : Width) (ra : Reg) (off : Word) (c : Word) : ViewInverse.Statement (.rolIdxConst w ra off c) := rfl
theorem ViewInverse.rorRegImm (w : Width) (ra : Reg) (c : Word) : ViewInverse.Statement (.rorRegImm w ra c) := rfl
theorem ViewInverse.rorReg2 (w : Width) (ra rb : Reg) : ViewInverse.Statement (.rorReg2 w ra rb) := rfl
theorem ViewInverse.rorAbsSrc (w : Width) (ra : Reg) (addr : Word) : ViewInverse.Statement (.rorAbsSrc w ra addr) := rfl
theorem ViewInverse.rorAbsDst (w : Width) (addr : Word) (rb : Reg) : ViewInverse.Statement (.rorAbsDst w addr rb) := rfl
theorem ViewInverse.rorAbsConst (w : Width) (addr : Word) (c : Word) : ViewInverse.Statement (.rorAbsConst w addr c) := rfl
theorem ViewInverse.rorIndSrc (w : Width) (adj : Adjust) (ra rb : Reg) : ViewInverse.Statement (.rorIndSrc w adj ra rb) := rfl
theorem ViewInverse.rorIndDst (w : Width) (adj : Adjust) (ra rb : Reg) : ViewInverse.Statement (.rorIndDst w adj ra rb) := rfl
theorem ViewInverse.rorIndConst (w : Width) (adj : Adjust) (ra : Reg) (c : Word) : ViewInverse.Statement (.rorIndConst w adj ra c) := rfl
theorem ViewInverse.rorIdxSrc (w : Width) (ra rb : Reg) (off : Word) : ViewInverse.Statement (.rorIdxSrc w ra rb off) := rfl
theorem ViewInverse.rorIdxDst (w : Width) (ra : Reg) (off : Word) (rb : Reg) : ViewInverse.Statement (.rorIdxDst w ra off rb) := rfl
theorem ViewInverse.rorIdxConst (w : Width) (ra : Reg) (off : Word) (c : Word) : ViewInverse.Statement (.rorIdxConst w ra off c) := rfl
theorem ViewInverse.cmpRegImm (w : Width) (ra : Reg) (c : Word) : ViewInverse.Statement (.cmpRegImm w ra c) := rfl
theorem ViewInverse.cmpReg2 (w : Width) (ra rb : Reg) : ViewInverse.Statement (.cmpReg2 w ra rb) := rfl
theorem ViewInverse.cmpAbsSrc (w : Width) (ra : Reg) (addr : Word) : ViewInverse.Statement (.cmpAbsSrc w ra addr) := rfl
theorem ViewInverse.cmpAbsDst (w : Width) (addr : Word) (rb : Reg) : ViewInverse.Statement (.cmpAbsDst w addr rb) := rfl
theorem ViewInverse.cmpAbsConst (w : Width) (addr : Word) (c : Word) : ViewInverse.Statement (.cmpAbsConst w addr c) := rfl
theorem ViewInverse.cmpIndSrc (w : Width) (adj : Adjust) (ra rb : Reg) : ViewInverse.Statement (.cmpIndSrc w adj ra rb) := rfl
theorem ViewInverse.cmpIndDst (w : Width) (adj : Adjust) (ra rb : Reg) : ViewInverse.Statement (.cmpIndDst w adj ra rb) := rfl
theorem ViewInverse.cmpIndConst (w : Width) (adj : Adjust) (ra : Reg) (c : Word) : ViewInverse.Statement (.cmpIndConst w adj ra c) := rfl
theorem ViewInverse.cmpIdxSrc (w : Width) (ra rb : Reg) (off : Word) : ViewInverse.Statement (.cmpIdxSrc w ra rb off) := rfl
theorem ViewInverse.cmpIdxDst (w : Width) (ra : Reg) (off : Word) (rb : Reg) : ViewInverse.Statement (.cmpIdxDst w ra off rb) := rfl
theorem ViewInverse.cmpIdxConst (w : Width) (ra : Reg) (off : Word) (c : Word) : ViewInverse.Statement (.cmpIdxConst w ra off c) := rfl
theorem ViewInverse.inc (w : Width) (ra : Reg) : ViewInverse.Statement (.inc w ra) := rfl
theorem ViewInverse.dec (w : Width) (ra : Reg) : ViewInverse.Statement (.dec w ra) := rfl
theorem ViewInverse.sxb (ra : Reg) : ViewInverse.Statement (.sxb ra) := rfl
theorem ViewInverse.sxw (ra : Reg) : ViewInverse.Statement (.sxw ra) := rfl
theorem ViewInverse.pushConst (w : Width) (c : Word) : ViewInverse.Statement (.pushConst w c) := rfl
theorem ViewInverse.pushReg (w : Width) (ra : Reg) : ViewInverse.Statement (.pushReg w ra) := rfl
theorem ViewInverse.pop (w : Width) (ra : Reg) : ViewInverse.Statement (.pop w ra) := rfl
theorem ViewInverse.pusha (w : Width) : ViewInverse.Statement (.pusha w) := rfl
theorem ViewInverse.popa (w : Width) : ViewInverse.Statement (.popa w) := rfl
theorem ViewInverse.jsr (addr : Word) : ViewInverse.Statement (.jsr addr) := rfl
theorem ViewInverse.rts : ViewInverse.Statement (.rts) := rfl
theorem ViewInverse.brk : ViewInverse.Statement (.brk) := rfl
theorem ViewInverse.rti : ViewInverse.Statement (.rti) := rfl
theorem ViewInverse.sys (id : BitVec 16) (addr : Word) : ViewInverse.Statement (.sys id addr) := rfl
theorem ViewInverse.slp : ViewInverse.Statement (.slp) := rfl
theorem ViewInverse.jmp (addr : Word) : ViewInverse.Statement (.jmp addr) := rfl
theorem ViewInverse.nop : ViewInverse.Statement (.nop) := rfl
theorem ViewInverse.bra (w : Width) (disp : Word) : ViewInverse.Statement (.bra w disp) := rfl
theorem ViewInverse.beq (w : Width) (disp : Word) : ViewInverse.Statement (.beq w disp) := rfl
theorem ViewInverse.bne (w : Width) (disp : Word) : ViewInverse.Statement (.bne w disp) := rfl
theorem ViewInverse.bcc (w : Width) (disp : Word) : ViewInverse.Statement (.bcc w disp) := rfl
theorem ViewInverse.bcs (w : Width) (disp : Word) : ViewInverse.Statement (.bcs w disp) := rfl
theorem ViewInverse.bpl (w : Width) (disp : Word) : ViewInverse.Statement (.bpl w disp) := rfl
theorem ViewInverse.bmi (w : Width) (disp : Word) : ViewInverse.Statement (.bmi w disp) := rfl
theorem ViewInverse.bvc (w : Width) (disp : Word) : ViewInverse.Statement (.bvc w disp) := rfl
theorem ViewInverse.bvs (w : Width) (disp : Word) : ViewInverse.Statement (.bvs w disp) := rfl
theorem ViewInverse.blt (w : Width) (disp : Word) : ViewInverse.Statement (.blt w disp) := rfl
theorem ViewInverse.bgt (w : Width) (disp : Word) : ViewInverse.Statement (.bgt w disp) := rfl
theorem ViewInverse.ble (w : Width) (disp : Word) : ViewInverse.Statement (.ble w disp) := rfl
theorem ViewInverse.bge (w : Width) (disp : Word) : ViewInverse.Statement (.bge w disp) := rfl
theorem ViewInverse.sec : ViewInverse.Statement (.sec) := rfl
theorem ViewInverse.clc : ViewInverse.Statement (.clc) := rfl
theorem ViewInverse.sei : ViewInverse.Statement (.sei) := rfl
theorem ViewInverse.cli : ViewInverse.Statement (.cli) := rfl
theorem ViewInverse.sev : ViewInverse.Statement (.sev) := rfl
theorem ViewInverse.clv : ViewInverse.Statement (.clv) := rfl

end Sys2Proof.Laws
end

