-- ==== Sys2Proof/Laws/Decode.lean ====
section
/-! SUPPORT. The laws of the byte lists and of the operand groups that the decoder and the encoder share. -/

namespace Sys2Proof

@[simp] theorem length_leBytes (n : Nat) : ∀ v : Nat, (leBytes n v).length = n := by
  induction n with
  | zero => intro v; rfl
  | succ n ih => intro v; simp [leBytes, ih]

/-- The number a byte list of `n` bytes stands for is the low `8n` bits of the number written (R52). -/
theorem leNat_leBytes (n : Nat) : ∀ v : Nat, leNat (leBytes n v) = v % 256 ^ n := by
  induction n with
  | zero => intro v; simp [leBytes, leNat, Nat.mod_one]
  | succ n ih =>
    intro v
    rw [leBytes, leNat, ih, Nat.pow_succ', Nat.mod_mul]
    simp

/-- Groups written one after the other are read back as they were, and the bytes after them are left (R87). -/
theorem takeGroups_flatMap (gs : List (Nat × Nat)) :
    ∀ (offset : Nat) (rest : List Byte), (∀ g ∈ gs, g.2 < 256 ^ g.1) →
      takeGroups (gs.map Prod.fst) offset ((gs.flatMap fun g => leBytes g.1 g.2) ++ rest) =
        .ok (gs.map Prod.snd, rest) := by
  induction gs with
  | nil => intros; rfl
  | cons g gs ih =>
    intro offset rest h
    have hg := h g (by simp)
    have hd : ((leBytes g.1 g.2) ++ ((gs.flatMap fun g => leBytes g.1 g.2) ++ rest)).drop g.1 =
        (gs.flatMap fun g => leBytes g.1 g.2) ++ rest := by
      have := List.drop_left (l₁ := leBytes g.1 g.2) (l₂ := (gs.flatMap fun g => leBytes g.1 g.2) ++ rest)
      rwa [length_leBytes] at this
    have ht : ((leBytes g.1 g.2) ++ ((gs.flatMap fun g => leBytes g.1 g.2) ++ rest)).take g.1 = leBytes g.1 g.2 := by
      have := List.take_left (l₁ := leBytes g.1 g.2) (l₂ := (gs.flatMap fun g => leBytes g.1 g.2) ++ rest)
      rwa [length_leBytes] at this
    rw [List.flatMap_cons, List.append_assoc, List.map_cons, List.map_cons, takeGroups, if_neg (by simp), hd, ht,
      ih _ rest (fun x hx => h x (by simp [hx])), leNat_leBytes, Nat.mod_eq_of_lt hg]

/-- The registers of a selector byte (R86). -/
theorem selHi_pair (hi lo : Reg) : selHi (16 * hi.val + lo.val) = hi := by
  apply Fin.ext
  simp only [selHi, Fin.ofNat]
  omega

theorem selLo_pair (hi lo : Reg) : selLo (16 * hi.val + lo.val) = lo := by
  apply Fin.ext
  simp only [selLo, Fin.ofNat]
  omega

theorem selLo_val (lo : Reg) : selLo lo.val = lo := by
  apply Fin.ext
  simp only [selLo, Fin.ofNat]
  omega

/-- No two instructions have one view (R90). -/
theorem view_instr (i : Instr) : i.view.instr = i := by
  cases i <;> rfl

end Sys2Proof
end

