-- ==== Sys2Proof/Laws/Events.lean ====
section
/-! SUPPORT. The register clearing of the reset event (R350). -/

namespace Sys2Proof.Machine

theorem zeroRegs_frame (l : List Reg) : ∀ s : State,
    (zeroRegs l s).mem = s.mem ∧ (zeroRegs l s).flags = s.flags ∧ (zeroRegs l s).callback = s.callback ∧
      (zeroRegs l s).syscalls = s.syscalls := by
  induction l with
  | nil => intro s; exact ⟨rfl, rfl, rfl, rfl⟩
  | cons i l ih => intro s; exact ih _

theorem reg_zeroRegs (r : Reg) (l : List Reg) : ∀ s : State,
    (zeroRegs l s).reg r = if r ∈ l then 0 else s.reg r := by
  induction l with
  | nil => intro s; rfl
  | cons i l ih =>
    intro s
    rw [zeroRegs, ih, reg_setReg]
    by_cases h : r = i
    · subst h; simp
    · simp [h, Ne.symm h]

end Sys2Proof.Machine
end

