-- ==== Sys2Proof/Laws/Fetch.lean ====
section
/-! SUPPORT. The fetch and the decoder read the same operand groups, those of the table of R87, and the fetch reports
the first group outside the bank (spec/30_encoding.md R81, R87, R94). -/

namespace Sys2Proof.Machine

/-- The `n` bytes of the bank from an address. -/
def bytesAt (m : Memory) (a n : Nat) : List Byte := (List.range n).map fun k => m.byte (a + k)

theorem bytesAt_succ (m : Memory) (a n : Nat) : bytesAt m a (n + 1) = m.byte a :: bytesAt m (a + 1) n := by
  unfold bytesAt
  rw [List.range_succ_eq_map]
  simp [Function.comp_def, Nat.add_assoc, Nat.add_comm 1]

theorem drop_bytesAt (m : Memory) (n : Nat) : ∀ a k, (bytesAt m a (k + n)).drop k = bytesAt m (a + k) n := by
  intro a k
  induction k generalizing a with
  | zero => simp
  | succ k ih =>
    rw [show k + 1 + n = k + n + 1 by omega, bytesAt_succ, List.drop_succ_cons, ih]
    congr 1
    omega

theorem take_bytesAt (m : Memory) (n : Nat) : ∀ a k, leNat ((bytesAt m a (k + n)).take k) = m.readLe k a := by
  intro a k
  induction k generalizing a with
  | zero => simp [leNat, Memory.readLe]
  | succ k ih =>
    rw [show k + 1 + n = k + n + 1 by omega, bytesAt_succ, List.take_succ_cons, leNat, ih, Memory.readLe]

@[simp] theorem length_bytesAt (m : Memory) (a n : Nat) : (bytesAt m a n).length = n := by simp [bytesAt]

/-- Groups that the decoder takes from the bytes of the bank are fetched alike, and `pc` ends after them. -/
theorem fetchGroups_of_takeGroups (m : Memory) (hc : m.cap ≤ 2 ^ 32) (ns : List Nat) :
    (∀ g ∈ ns, 0 < g) → ∀ (off n : Nat) (a : Word) (vs : List Nat) (rest : List Byte),
      (n = 0 ∨ a.toNat + n ≤ m.cap) → takeGroups ns off (bytesAt m a.toNat n) = .ok (vs, rest) →
      ∃ k, k ≤ n ∧ fetchGroups m ns a = .ok (vs, a + BitVec.ofNat 32 (n - k)) ∧
        rest = bytesAt m (a + BitVec.ofNat 32 (n - k)).toNat k ∧
        (k = 0 ∨ (a + BitVec.ofNat 32 (n - k)).toNat + k ≤ m.cap) := by
  induction ns with
  | nil =>
    intro _ off n a vs rest h e
    simp only [takeGroups] at e; injection e with e; injection e with e1 e2; subst e1 e2
    exact ⟨n, Nat.le_refl _, by simp [fetchGroups], by simp, by simpa using h⟩
  | cons g ns ih =>
    intro hpos off n a vs rest h e
    have hg0 := hpos g (by simp)
    rw [takeGroups] at e
    split at e
    · cases e
    · rename_i hg
      simp at hg
      have hn : n = g + (n - g) := by omega
      rw [hn, drop_bytesAt, take_bytesAt] at e
      split at e
      · cases e
      · rename_i vs' rest' e'
        injection e with e; injection e with e1 e2; subst e1 e2
        have hacc : a.toNat + g ≤ m.cap := by omega
        have hnx : n - g = 0 ∨ (a + BitVec.ofNat 32 g).toNat = a.toNat + g := by
          by_cases hz : n - g = 0
          · exact .inl hz
          · right
            rw [BitVec.toNat_add, BitVec.toNat_ofNat, Nat.mod_eq_of_lt (a := g) (by omega),
              Nat.mod_eq_of_lt (by omega)]
        have e'' : takeGroups ns (off + g) (bytesAt m (a + BitVec.ofNat 32 g).toNat (n - g)) = .ok (vs', rest') := by
          rcases hnx with hz | hz
          · rw [hz] at e' ⊢; exact e'
          · rw [hz]; exact e'
        obtain ⟨k, hk, e1, e2, e3⟩ := ih (fun x hx => hpos x (by simp [hx])) (off + g) (n - g)
          (a + BitVec.ofNat 32 g) vs' rest' (by omega) e''
        have hadd : a + BitVec.ofNat 32 g + BitVec.ofNat 32 (n - g - k) = a + BitVec.ofNat 32 (n - k) := by
          rw [BitVec.add_assoc, ← BitVec.ofNat_add]; congr 2; omega
        rw [hadd] at e1 e2 e3
        refine ⟨k, by omega, ?_, e2, e3⟩
        rw [fetchGroups, read_ok hacc]; simp only [e1]

/-- The first group outside the bank is the one the fetch reports, at its own address (R87, R94). -/
theorem fetchGroups_error (m : Memory) (ns : List Nat) : ∀ (a : Word) (k : Nat), k < ns.length →
    (∀ j, j < k → (a + BitVec.ofNat 32 (ns.take j).sum).toNat + ns.getD j 0 ≤ m.cap) →
    ¬ (a + BitVec.ofNat 32 (ns.take k).sum).toNat + ns.getD k 0 ≤ m.cap →
    fetchGroups m ns a = .error (.invalidAddress (a + BitVec.ofNat 32 (ns.take k).sum)) := by
  induction ns with
  | nil => intro a k hk; simp at hk
  | cons n ns ih =>
    intro a k hk h hn
    cases k with
    | zero =>
      simp only [List.take_zero, List.sum_nil, List.getD_cons_zero] at hn ⊢
      have e : a + BitVec.ofNat 32 0 = a := by simp
      rw [e] at hn ⊢
      rw [fetchGroups, read_error (Nat.not_le.mp hn)]
    | succ k =>
      have h0 : a.toNat + n ≤ m.cap := by simpa using h 0 (by omega)
      have e : ∀ j, a + BitVec.ofNat 32 ((n :: ns).take (j + 1)).sum =
          a + BitVec.ofNat 32 n + BitVec.ofNat 32 (ns.take j).sum := by
        intro j; rw [List.take_succ_cons, List.sum_cons, BitVec.ofNat_add, BitVec.add_assoc]
      rw [e] at hn ⊢
      rw [fetchGroups, read_ok h0]
      simp only []
      rw [ih (a + BitVec.ofNat 32 n) k (by simpa using hk) (fun j hj => by
        have := h (j + 1) (by omega)
        rw [e] at this; simpa using this) (by simpa using hn)]

/-- The decoder's groups are those of the table of R87. -/
theorem groups_eq {iw : BitVec 16} {l : Layout} (h : decodeWord iw = .ok l) : l.groups = operandGroups iw := by
  unfold decodeWord at h
  unfold operandGroups
  generalize (BitVec.extractLsb' 14 2 iw) = sz at *
  generalize (BitVec.extractLsb' 0 4 iw) = am at *
  generalize (BitVec.extractLsb' 8 6 iw) = op at *
  generalize ({ pre := iw.getLsbD 5, post := iw.getLsbD 4 } : Adjust) = adj at *
  have key : ∀ op : BitVec 6,
      (Operation.ofCode op.toNat).all (fun o => decide (o = .sys) == decide (op.toNat = 0x1C)) = true := by decide
  have hk := key op
  simp only [] at h
  split at h
  · cases h
  rename_i w hw
  split at h
  · cases h
  rename_i o ho
  rw [ho] at hk
  simp only [Option.all_some, beq_iff_eq, decide_eq_decide] at hk
  split at h
  · cases h
  rename_i l' hl
  injection h with h; subst h
  have hsz : ∀ sz : BitVec 2, sz = 0 ∨ sz = 1 ∨ sz = 2 ∨ sz = 3 := by decide
  have ham : ∀ am : BitVec 4, am = 0 ∨ am = 1 ∨ am = 2 ∨ am = 3 ∨ am = 4 ∨ am = 5 ∨ am = 6 ∨ am = 7 ∨
      am = 8 ∨ am = 9 ∨ am = 10 ∨ am = 11 ∨ am = 12 ∨ am = 13 ∨ am = 14 ∨ am = 15 := by decide
  clear key
  rcases hsz sz with h | h | h | h <;> subst h <;> (try cases hw) <;>
  rcases ham am with h | h | h | h | h | h | h | h | h | h | h | h | h | h | h | h <;> subst h <;>
    (cases o with
     | alu o => first | (injection hl with hl; subst hl; rfl) | cases hl
     | reg1 o => cases o <;> first | (injection hl with hl; subst hl; rfl) | cases hl
     | implied o => first | (injection hl with hl; subst hl; rfl) | cases hl
     | branch o => first | (injection hl with hl; subst hl; rfl) | cases hl
     | direct o =>
       first
       | (injection hl with hl; subst hl; show _ = (if _ then _ else _)
          rw [if_neg (fun h => nomatch hk.2 h)]; rfl)
       | cases hl
     | sys =>
       first
       | (injection hl with hl; subst hl; show _ = (if _ then _ else _); rw [if_pos (hk.1 rfl)]; rfl)
       | cases hl)

end Sys2Proof.Machine
end

