-- ==== Sys2Proof/Laws/Frames.lean ====
section
/-! SUPPORT. What instructions leave alone: the sleep latch but for SLP, and every flag when an exception is raised (R29,
R315, R333). -/

namespace Sys2Proof.Machine

/-- Only SLP changes the sleep latch (R333). -/
theorem asleep_viewMicro (v : View) (s : State) :
    (viewMicro v s).state.asleep = s.asleep ∨ ∃ w, v = .implied .slp w := by
  cases v with
  | two op w f =>
    left
    show (twoOperand op w f s).state.asleep = _
    rcases twoOperand_cases op w f s with ⟨e, h⟩ | ⟨a, b, out, _, _, ho, hacc, h⟩ <;> rw [h] <;> simp
  | reg1 op w ra =>
    left
    cases op with
    | push => exact (push_frame _ _ s).2.1
    | pop => exact (popReg_frame w ra s).1.2.1
    | _ => rfl
  | pushConst w c => exact .inl (push_frame _ _ s).2.1
  | implied op w =>
    cases op with
    | slp => exact .inr ⟨w, rfl⟩
    | pusha => exact .inl (pushRegs_frame w dataRegs s).2.1
    | popa => exact .inl (popRegs_frame w dataRegs.reverse s).1.2.1
    | rts =>
      left
      simp only [viewMicro, impliedMicro, ret]
      rcases pop_cases 4 s with ⟨_, e⟩ | ⟨_, e⟩ <;> rw [e] <;> rfl
    | brk =>
      left
      show (softwareInterrupt s).state.asleep = _
      have := (pushFrame_frame s).2.1
      unfold softwareInterrupt
      cases h : pushFrame s with
      | done s1 =>
        rw [h] at this
        rw [andThen_done, ← this]
        unfold loadVector; split <;> rfl
      | raised e s1 => rw [h] at this; exact this
    | rti =>
      left
      show (leaveInterrupt s).state.asleep = _
      rcases leaveInterrupt_cases s with ⟨_, e⟩ | ⟨_, _, e⟩ | ⟨_, _, e⟩ <;> rw [e] <;> rfl
    | _ => exact .inl rfl
  | branch cond w disp =>
    left
    simp only [viewMicro, branch]
    split <;> rfl
  | direct op addr =>
    left
    cases op with
    | jmp => rfl
    | jsr =>
      show ((push 4 s.pc.toNat s).andThen _).state.asleep = _
      have := (push_frame 4 s.pc.toNat s).2.1
      cases h : push 4 s.pc.toNat s with
      | done s1 => rw [h] at this; exact this
      | raised e s1 => rw [h] at this; exact this
  | sys id addr =>
    left
    obtain ⟨m, n, e, h1, h2, _⟩ := systemCall_cases id addr s
    simp only [viewMicro, e]; rfl

/-- An instruction that raises an exception has changed no flag (R29, R315). -/
theorem flags_of_raised (v : View) (s : State) (hi : s.Inv) {e : Exn} {s1 : State}
    (hm : viewMicro v s = .raised e s1) : s1.flags = s.flags := by
  have hst : (viewMicro v s).state.flags = s1.flags := by rw [hm]; rfl
  rw [← hst]
  cases v with
  | two op w f =>
    change twoOperand op w f s = _ at hm
    show (twoOperand op w f s).state.flags = _
    rcases twoOperand_cases op w f s with ⟨e, h⟩ | ⟨a, b, out, _, _, ho, hacc, h⟩
    · rw [h]; simp
    · rw [h] at hm; cases hm
  | reg1 op w ra =>
    cases op with
    | push => exact (push_frame _ _ s).1
    | pop => exact (popReg_frame w ra s).1.1
    | _ => cases hm
  | pushConst w c => exact (push_frame _ _ s).1
  | implied op w =>
    cases op with
    | pusha => exact (pushRegs_frame w dataRegs s).1
    | popa => exact (popRegs_frame w dataRegs.reverse s).1.1
    | rts =>
      simp only [viewMicro, impliedMicro, ret]
      rcases pop_cases 4 s with ⟨_, e⟩ | ⟨_, e⟩ <;> rw [e] <;> rfl
    | brk =>
      have := (pushFrame_frame s).1
      have k := keeps_pushFrame s
      change softwareInterrupt s = _ at hm
      show (softwareInterrupt s).state.flags = _
      unfold softwareInterrupt at *
      cases h : pushFrame s with
      | done s1 =>
        rw [h] at hm k
        rw [andThen_done, loadVector_ok (s := s1.withFlags { s1.flags with b := true }) (a := vecSwIrq) (k.2 hi)
          (by decide)] at hm
        cases hm
      | raised e s1 => rw [h] at this; exact this
    | rti =>
      change leaveInterrupt s = _ at hm
      show (leaveInterrupt s).state.flags = _
      rcases leaveInterrupt_cases s with ⟨_, e⟩ | ⟨_, _, e⟩ | ⟨_, _, e⟩ 
      · rw [e]; rfl
      · rw [e]; rfl
      · rw [e] at hm; cases hm
    | _ => cases hm
  | branch cond w disp => cases hm
  | direct op addr =>
    cases op with
    | jmp => rfl
    | jsr =>
      show ((push 4 s.pc.toNat s).andThen _).state.flags = _
      have := (push_frame 4 s.pc.toNat s).1
      cases h : push 4 s.pc.toNat s with
      | done s1 => rw [h] at this; exact this
      | raised e s1 => rw [h] at this; exact this
  | sys id addr =>
    obtain ⟨m, n, e, h1, h2, _⟩ := systemCall_cases id addr s
    simp only [viewMicro, e]; rfl

end Sys2Proof.Machine
end

