-- ==== Sys2Proof/Laws/Stack.lean ====
section
/-! SUPPORT. What a list of pushes, a list of pops and the interrupt frame leave when every access is inside the bank
(spec/44_stack.md R230 to R236, spec/46_system.md R284). -/

namespace Sys2Proof.Machine

theorem bits_eq (w : Width) : w.bits = 8 * w.bytes := by cases w <;> rfl

theorem pow_bytes (w : Width) : (256 : Nat) ^ w.bytes = 2 ^ w.bits := by rw [bits_eq, Nat.pow_mul]

/-- A value of the operand width reads back whole (R52). -/
theorem readLe_writeLe_bits (w : Width) {m : Memory} (hw : m.wf = true) (a : Nat) (h : a + w.bytes ≤ m.cap)
    (v : BitVec w.bits) : (m.writeLe w.bytes a v.toNat).readLe w.bytes a = v.toNat := by
  rw [readLe_writeLe_same _ hw _ _ h, pow_bytes]
  exact Nat.mod_eq_of_lt v.isLt

/-- A constant is stored as its low part (R88). -/
theorem writeLe_setWidth (w : Width) (m : Memory) (a : Nat) (c : Word) :
    m.writeLe w.bytes a (c.setWidth w.bits).toNat = m.writeLe w.bytes a c.toNat := by
  rw [BitVec.toNat_setWidth, ← pow_bytes]
  exact writeLe_mod w.bytes m a c.toNat

/-- The stack slot of the `k+1`-th push of `n` bytes below `a`. -/
def slot (n : Nat) (a : Word) (k : Nat) : Word := a - BitVec.ofNat 32 (n * (k + 1))

theorem slot_succ (n k : Nat) (a : Word) : slot n (a - BitVec.ofNat 32 n) k = slot n a (k + 1) := by
  unfold slot
  rw [BitVec.sub_sub]
  congr 1
  apply BitVec.eq_of_toNat_eq
  simp
  ring_nf

/-- Two slots inside the bank do not overlap. -/
theorem slot_apart {n : Nat} {a : Word} {k cap : Nat} (hc : cap ≤ 2 ^ 32) (hk : n * (k + 2) ≤ 2 ^ 32)
    (h0 : (slot n a 0).toNat + n ≤ cap) (h1 : (slot n a (k + 1)).toNat + n ≤ cap) :
    (slot n a 0).toNat + n ≤ (slot n a (k + 1)).toNat ∨ (slot n a (k + 1)).toNat + n ≤ (slot n a 0).toNat := by
  have e : slot n a 0 = slot n a (k + 1) + BitVec.ofNat 32 (n * (k + 1)) := by
    have : BitVec.ofNat 32 (n * (k + 1 + 1)) = BitVec.ofNat 32 (n * (0 + 1)) + BitVec.ofNat 32 (n * (k + 1)) := by
      apply BitVec.eq_of_toNat_eq; simp; ring_nf
    unfold slot
    rw [this, ← BitVec.sub_sub, BitVec.sub_add_cancel]
  have hn : n * (k + 1) + n = n * (k + 2) := by ring
  rw [e] at h0 ⊢
  rw [BitVec.toNat_add, BitVec.toNat_ofNat] at *
  generalize (slot n a (k + 1)).toNat = x at *
  by_cases hz : n = 0
  · subst hz; omega
  have hnk : n ≤ n * (k + 1) := Nat.le_mul_of_pos_right _ (by omega)
  generalize n * (k + 1) = d at *
  rw [Nat.mod_eq_of_lt (a := d) (by omega)] at *
  by_cases hh : x + d < 2 ^ 32
  · rw [Nat.mod_eq_of_lt hh] at *; omega
  · rw [Nat.mod_eq_sub_mod (by omega), Nat.mod_eq_of_lt (by omega)] at *; omega

/-- A list of pushes inside the bank: `sp` below the last slot, each register in its slot, every other byte as before. -/
theorem pushRegs_ok (w : Width) (l : List Reg) : ∀ (s : State), s.Inv → l.length ≤ 16 → spReg ∉ l →
    (∀ k, k < l.length → s.accessible (slot w.bytes s.sp k) w.bytes) →
    ∃ m, pushRegs w l s = .done ((s.setSp (s.sp - BitVec.ofNat 32 (w.bytes * l.length))).withMem m) ∧
      m.wf = true ∧ m.cap = s.mem.cap ∧
      (∀ k (h : k < l.length), m.readLe w.bytes (slot w.bytes s.sp k).toNat = (s.regRead l[k] w).toNat) ∧
      (∀ x, (∀ k, k < l.length → x < (slot w.bytes s.sp k).toNat ∨ (slot w.bytes s.sp k).toNat + w.bytes ≤ x) →
        m.byte x = s.mem.byte x) := by
  induction l with
  | nil =>
    intro s hi _ _ _
    refine ⟨s.mem, ?_, hi, rfl, by simp, by simp⟩
    simp [pushRegs]
  | cons r l ih =>
    intro s hi hl hsp h
    have hs0 : slot w.bytes s.sp 0 = s.sp - BitVec.ofNat 32 w.bytes := by unfold slot; simp
    have h0 := h 0 (by simp)
    have hp := push_ok (n := w.bytes) (s := s) (s.regRead r w).toNat (by rw [← hs0]; exact h0)
    rw [← hs0] at hp
    have hwb : w.bytes ≤ 4 := by cases w <;> decide
    let m1 := s.mem.writeLe w.bytes (slot w.bytes s.sp 0).toNat (s.regRead r w).toNat
    let s1 := (s.setSp (slot w.bytes s.sp 0)).withMem m1
    have hc1 : m1.cap = s.mem.cap := cap_writeLe _ _ _ _
    have hsp1 : s1.sp = slot w.bytes s.sp 0 := by simp [s1]
    have hw1 : s1.Inv := wf_writeLe _ hi _ _ h0
    have hsl : ∀ k, slot w.bytes s1.sp k = slot w.bytes s.sp (k + 1) := by
      intro k; rw [hsp1, hs0, slot_succ]
    obtain ⟨m, e, hw, hc, hr, hf⟩ := ih s1 hw1 (by simp at hl; omega) (by simp at hsp; exact hsp.2) (by
      intro k hk
      rw [hsl]
      have := h (k + 1) (by simp; omega)
      unfold State.accessible at *
      show _ ≤ m1.cap
      rw [hc1]; exact this)
    have hcap := (Memory.wf_iff.mp hi).2.1
    refine ⟨m, ?_, hw, hc.trans hc1, ?_, ?_⟩
    · have : pushRegs w (r :: l) s = (push w.bytes (s.regRead r w).toNat s).andThen (pushRegs w l) := rfl
      rw [this, hp, andThen_done]
      show pushRegs w l s1 = _
      rw [e, hsp1]
      show Micro.done ((State.setSp (State.setSp s _) _).withMem m) = _
      rw [setSp_setSp, hs0, BitVec.sub_sub]
      congr 4
      apply BitVec.eq_of_toNat_eq; simp; ring_nf
    · intro k hk
      cases k with
      | zero =>
        have : m.readLe w.bytes (slot w.bytes s.sp 0).toNat = m1.readLe w.bytes (slot w.bytes s.sp 0).toNat := by
          apply readLe_congr
          intro x h1 h2
          apply hf
          intro k hk'
          rw [hsl]
          have a1 := h (k + 1) (by simp; omega)
          have hlen : l.length + 1 ≤ 16 := by simpa using hl
          have hk2 : w.bytes * (k + 2) ≤ 4 * 18 := Nat.mul_le_mul hwb (by omega)
          have := slot_apart (n := w.bytes) (a := s.sp) (k := k) hcap (by omega) h0 a1
          omega
        rw [this]
        show (Memory.writeLe _ _ _ _).readLe _ _ = _
        rw [readLe_writeLe_same _ hi _ _ h0]
        rw [pow_bytes]
        exact Nat.mod_eq_of_lt (s.regRead r w).isLt
      | succ k =>
        have := hr k (by simpa using hk)
        rw [hsl] at this
        rw [this]
        simp only [s1, regRead_withMem, List.getElem_cons_succ]
        unfold State.regRead State.setSp
        rw [reg_setReg_ne]
        rintro h'
        apply hsp
        rw [h']; simp
    · intro x hx
      rw [hf x (by intro k hk; rw [hsl]; exact hx (k+1) (by simp; omega))]
      show (Memory.writeLe _ _ _ _).byte x = _
      rw [byte_writeLe _ hi _ _ h0, if_neg]
      have := hx 0 (by simp)
      omega

/-- A list of pops inside the bank: `sp` past the last item, each register with its item in its low part, every other
register as before. -/
theorem popRegs_ok (w : Width) (l : List Reg) : ∀ (s : State), spReg ∉ l → l.Nodup →
    (∀ k, k < l.length → s.accessible (s.sp + BitVec.ofNat 32 (w.bytes * k)) w.bytes) →
    ∃ t, popRegs w l s = .done t ∧ t.sp = s.sp + BitVec.ofNat 32 (w.bytes * l.length) ∧
      (∀ k (h : k < l.length), t.reg l[k] = replaceLow (s.reg l[k])
        (BitVec.ofNat w.bits (s.mem.readLe w.bytes (s.sp + BitVec.ofNat 32 (w.bytes * k)).toNat))) ∧
      (∀ r, r ∉ l → r ≠ spReg → t.reg r = s.reg r) := by
  induction l with
  | nil =>
    intro s hi _ _
    exact ⟨s, rfl, by simp, by simp, by simp⟩
  | cons r l ih =>
    intro s hsp hn h
    simp only [List.mem_cons, not_or] at hsp
    simp only [List.nodup_cons] at hn
    have h0 := h 0 (by simp)
    have ez : s.sp + BitVec.ofNat 32 (w.bytes * 0) = s.sp := by simp
    rw [ez] at h0
    rcases popReg_cases w r s with ⟨_, e1⟩ | ⟨hn, _⟩
    · generalize hs1 : ((s.setSp (s.sp + BitVec.ofNat 32 w.bytes)).regWrite r w
        (BitVec.ofNat w.bits (s.mem.readLe w.bytes s.sp.toNat))) = s1 at e1
      have hsp1 : s1.sp = s.sp + BitVec.ofNat 32 w.bytes := by
        subst hs1
        rw [regWrite_eq]
        unfold State.sp
        rw [reg_setReg_ne _ _ _ _ (Ne.symm hsp.1)]
        exact sp_setSp _ _
      have hm1 : s1.mem = s.mem := by subst hs1; rfl
      have hsl : ∀ k, s1.sp + BitVec.ofNat 32 (w.bytes * k) = s.sp + BitVec.ofNat 32 (w.bytes * (k + 1)) := by
        intro k; rw [hsp1, BitVec.add_assoc]; congr 1; apply BitVec.eq_of_toNat_eq; simp; ring_nf
      obtain ⟨t, e, hs, hr, hf⟩ := ih s1 hsp.2 hn.2 (by
        intro k hk; rw [hsl]; unfold State.accessible; rw [hm1]; exact h (k+1) (by simp; omega))
      have hreg : ∀ q, q ≠ r → q ≠ spReg → s1.reg q = s.reg q := by
        intro q h1 h2
        subst hs1
        rw [regWrite_eq, reg_setReg_ne _ _ _ _ (Ne.symm h1)]
        exact reg_setReg_ne _ _ _ _ (Ne.symm h2)
      refine ⟨t, ?_, ?_, ?_, ?_⟩
      · have : popRegs w (r :: l) s = (popReg w r s).andThen (popRegs w l) := rfl
        rw [this, e1, andThen_done, e]
      · rw [hs, hsl]; rfl
      · intro k hk
        cases k with
        | zero =>
          simp only [List.getElem_cons_zero]
          rw [hf r hn.1 (Ne.symm hsp.1), ez]
          subst hs1; rw [regWrite_eq, reg_setReg_same]
          congr 1; exact reg_setReg_ne _ _ _ _ hsp.1
        | succ k =>
          have hk' : k < l.length := by simpa using hk
          have := hr k hk'
          rw [hsl, hm1, hreg] at this
          · simpa using this
          · rintro h'; apply hn.1; rw [← h']; simp
          · rintro h'; apply hsp.2; rw [← h']; simp
      · intro q h1 h2
        simp only [List.mem_cons, not_or] at h1
        rw [hf q h1.2 h2, hreg q h1.1 h2]
    · exact absurd h0 hn

/-- Pushing a list is pushing its first part, then the rest. -/
theorem pushRegs_append (w : Width) (l1 l2 : List Reg) : ∀ s, pushRegs w (l1 ++ l2) s =
    (pushRegs w l1 s).andThen (pushRegs w l2) := by
  induction l1 with
  | nil => intro s; rfl
  | cons r l ih =>
    intro s
    show (pushReg w r s).andThen (pushRegs w (l ++ l2)) = ((pushReg w r s).andThen (pushRegs w l)).andThen _
    cases pushReg w r s with
    | done t => exact ih t
    | raised e t => rfl

/-- Popping a list is popping its first part, then the rest. -/
theorem popRegs_append (w : Width) (l1 l2 : List Reg) : ∀ s, popRegs w (l1 ++ l2) s =
    (popRegs w l1 s).andThen (popRegs w l2) := by
  induction l1 with
  | nil => intro s; rfl
  | cons r l ih =>
    intro s
    show (popReg w r s).andThen (popRegs w (l ++ l2)) = ((popReg w r s).andThen (popRegs w l)).andThen _
    cases popReg w r s with
    | done t => exact ih t
    | raised e t => rfl

/-- A list of pushes whose next one leaves the bank: the pushes before it stay, `sp` stays decremented (R230, R234,
R315). -/
theorem pushRegs_outside (w : Width) (l : List Reg) (r : Reg) (rest : List Reg) {s t : State}
    (h : pushRegs w l s = .done t) (hn : ¬ t.accessible (t.sp - BitVec.ofNat 32 w.bytes) w.bytes) :
    pushRegs w (l ++ r :: rest) s =
      .raised (.invalidAddress (t.sp - BitVec.ofNat 32 w.bytes)) (t.setSp (t.sp - BitVec.ofNat 32 w.bytes)) := by
  rw [pushRegs_append, h, andThen_done]
  show (push w.bytes _ t).andThen _ = _
  rw [push_error _ hn, andThen_raised]

/-- A list of pops whose next one leaves the bank: the pops before it stay, `sp` is past them (R231, R235, R315). -/
theorem popRegs_outside (w : Width) (l : List Reg) (r : Reg) (rest : List Reg) {s t : State}
    (h : popRegs w l s = .done t) (hn : ¬ t.accessible t.sp w.bytes) :
    popRegs w (l ++ r :: rest) s = .raised (.invalidAddress t.sp) t := by
  rw [popRegs_append, h, andThen_done]
  show (popReg w r t).andThen _ = _
  unfold popReg
  rw [pop_error hn]; rfl

/-! ## The interrupt frame (R284) -/

/-- The frame is the flags byte with `pc` below it. -/
theorem pushFrame_mem (s : State) (h : frameInBank s) :
    ∃ m : Memory, pushFrame s = .done ((s.setSp (s.sp - 5)).withMem m) ∧
      m = (s.mem.writeLe 1 (s.sp - 1).toNat s.flags.toByte.toNat).writeLe 4 (s.sp - 5).toNat s.pc.toNat := by
  refine ⟨_, ?_, rfl⟩
  unfold pushFrame
  rw [push_ok _ h.1]
  simp only [andThen_done]
  have e : s.sp - 1 - 4 = s.sp - 5 := by rw [BitVec.sub_sub]; rfl
  rw [push_ok _ (by
    simp only [sp_withMem, sp_setSp]
    show (s.sp - 1 - 4).toNat + 4 ≤ Memory.cap (Memory.writeLe _ _ _ _)
    rw [e, cap_writeLe]; exact h.2)]
  simp only [sp_withMem, sp_setSp, mem_withMem, pc_withMem, pc_setSp]
  show Micro.done ((State.setSp (State.setSp s _) _).withMem _) = _
  rw [setSp_setSp]
  show Micro.done ((State.setSp s (s.sp - 1 - 4)).withMem (Memory.writeLe _ _ (s.sp - 1 - 4).toNat _)) = _
  rw [e]
  rfl

/-- The two parts of the frame do not overlap, also where addresses wrap. -/
theorem frame_apart (a : Word) (h5 : (a - 5).toNat + 4 ≤ 2 ^ 32) :
    (a - 1).toNat < (a - 5).toNat ∨ (a - 1).toNat ≥ (a - 5).toNat + 4 := by
  have : a - 1 = (a - 5) + 4 := by
    apply BitVec.eq_of_toNat_eq; simp; omega
  rw [this, BitVec.toNat_add]
  have := (a-5).isLt
  generalize (a-5).toNat = x at *
  show (x + 4) % 2^32 < x ∨ (x + 4) % 2^32 ≥ x + 4
  by_cases hh : x + 4 < 2^32
  · rw [Nat.mod_eq_of_lt hh]; omega
  · have : x = 2^32 - 4 := by omega
    subst this; left; decide

/-- What the frame leaves in the bank (R284). -/
theorem pushFrame_ok (s : State) (hi : s.Inv) (h : frameInBank s) :
    ∃ m, pushFrame s = .done ((s.setSp (s.sp - 5)).withMem m) ∧ m.wf = true ∧ m.cap = s.mem.cap ∧
      m.byte (s.sp - 1).toNat = s.flags.toByte ∧ m.readLe 4 (s.sp - 5).toNat = s.pc.toNat ∧
      ∀ x, x ≠ (s.sp - 1).toNat → ¬ ((s.sp - 5).toNat ≤ x ∧ x < (s.sp - 5).toNat + 4) →
        m.byte x = s.mem.byte x := by
  obtain ⟨m, e, hm⟩ := pushFrame_mem s h
  have w1 : (s.mem.writeLe 1 (s.sp - 1).toNat s.flags.toByte.toNat).wf = true := wf_writeLe 1 hi _ _ h.1
  have h5 : (s.sp - 5).toNat + 4 ≤ (s.mem.writeLe 1 (s.sp - 1).toNat s.flags.toByte.toNat).cap := by
    rw [cap_writeLe]
    exact h.2
  have sep := frame_apart s.sp (Nat.le_trans h.2 (Memory.wf_iff.mp hi).2.1)
  refine ⟨m, e, ?_, ?_, ?_, ?_, ?_⟩ <;> subst hm
  · exact wf_writeLe 4 w1 _ _ h5
  · rw [cap_writeLe, cap_writeLe]
  · rw [byte_writeLe 4 w1 _ _ h5, if_neg (by omega), byte_writeLe 1 hi _ _ h.1, if_pos (by omega)]
    simp
  · rw [readLe_writeLe_same 4 w1 _ _ h5]; exact Nat.mod_eq_of_lt s.pc.isLt
  · intro x h1 h2
    rw [byte_writeLe 4 w1 _ _ h5, if_neg h2, byte_writeLe 1 hi _ _ h.1, if_neg (by omega)]

/-- Packing the flags loses nothing (R28). -/
theorem ofByte_toByte (f : Flags) : Flags.ofByte f.toByte = f := by
  obtain ⟨z, n, c, v, b, i⟩ := f
  revert z n c v b i
  decide

end Sys2Proof.Machine
end

