-- ==== Sys2Proof/Machine/Rsx.lean ====
section
/-! DEFINITION. The RSX program loader, host software around the block (spec/70_reset_and_hazards.md R357). -/

namespace Sys2Proof.Machine

/-- Why a load fails (R357). -/
inductive RsxError where
  /-- the file does not begin with `R`, `S`, `X` -/
  | badMagic
  /-- the version byte is not `RSX_VERSION` -/
  | badVersion
  /-- the file ends inside a chunk -/
  | truncated
  /-- a chunk would exceed the bank's capacity -/
  | chunkOutsideBank
deriving DecidableEq, Repr

/-- A chunk: its address and its data (R357). -/
abbrev RsxChunk := Nat × List Byte

/-- The chunks of a file after its header; each is an address, a length and that many bytes. `fuel` bounds the
number of chunks, and the length of the file is always enough. -/
def rsxChunks : Nat → List Byte → Except RsxError (List RsxChunk)
  | _, [] => .ok []
  | 0, _ => .error .truncated
  | fuel + 1, bs =>
    if bs.length < 8 then .error .truncated
    else
      let len := leNat ((bs.drop 4).take 4)
      let body := bs.drop 8
      if body.length < len then .error .truncated
      else
        match rsxChunks fuel (body.drop len) with
        | .error e => .error e
        | .ok cs => .ok ((leNat (bs.take 4), body.take len) :: cs)

/-- The header checked and the chunks read; `version` is the parameter `RSX_VERSION` (R357). -/
def rsxParse (version : Byte) (file : List Byte) : Except RsxError (List RsxChunk) :=
  if file.take 3 ≠ [0x52, 0x53, 0x58] then .error .badMagic
  else if (file.drop 3).take 1 ≠ [version] then .error .badVersion
  else rsxChunks file.length (file.drop 4)

/-- A chunk's bytes copied to consecutive addresses. -/
def copyBytes : Nat → List Byte → Memory → Memory
  | _, [], m => m
  | a, b :: bs, m => copyBytes (a + 1) bs (m.setByte a b)

/-- The chunks copied in order; the first that exceeds the capacity ends the load and the chunks before it stay
applied (R357). -/
def applyChunks : List RsxChunk → Memory → Memory × Option RsxError
  | [], m => (m, none)
  | (a, bs) :: cs, m =>
    if m.cap < a + bs.length then (m, some .chunkOutsideBank)
    else applyChunks cs (copyBytes a bs m)

/-- The loader: a malformed file loads nothing (U19); registers are not touched and reset is not raised (R357). -/
def loadRsx (version : Byte) (file : List Byte) (s : State) : State × Option RsxError :=
  match rsxParse version file with
  | .error e => (s, some e)
  | .ok cs =>
    let (m, e) := applyChunks cs s.mem
    (s.withMem m, e)

end Sys2Proof.Machine
end

