-- ==== Sys2Proof/Tests/Slice0.lean ====
section
/-! SUPPORT. Tests. Decoding: words written out from the encoding tables of spec/30_encoding.md. Steps: vectors of
spec/95_test_vectors.md, named by their number there. Witnesses: a state and operands that meet the hypotheses of each
statement, at a boundary of each clause. -/

namespace Sys2Proof.Tests

open Sys2Proof Sys2Proof.Machine

/-! ## Ill-formed instructions are refused (R88) -/

theorem test_wf_regImm : (Instr.movRegImm .byte 0 0x100).wf = false := by decide
theorem test_wf_absConst : (Instr.addAbsConst .word 0x1000 0x10000).wf = false := by decide
theorem test_wf_indConst : (Instr.cmpIndConst .byte ⟨false, true⟩ 4 0x100).wf = false := by decide
theorem test_wf_idxConst : (Instr.divIdxConst .word 4 8 0x10000).wf = false := by decide
theorem test_wf_pushConst : (Instr.pushConst .byte 0x100).wf = false := by decide
theorem test_wf_branch : (Instr.bra .word 0x10000).wf = false := by decide
theorem test_wf_widest : (Instr.movRegImm .dword 0 0xFFFFFFFF).wf = true ∧ (Instr.bge .byte 0xFF).wf = true := by decide

/-! ## Decoding

Every instruction's bytes as R82 to R90 give them: `AM` and `RC` in the first byte, `OP` and `SZ` in the second,
      then the
operand groups. `forms op` lists the eleven modes of the two-operand class at `.w` (`SZ = 1`); `op` is the second byte. -/

/-- The whole instruction, if nothing is left over. -/
def decodeAll (bs : List Byte) : Option Instr :=
  match decode bs with
  | .ok (i, []) => some i
  | _ => none

/-- `AM` 1, 4 to 13 in turn; the three indirect modes with `RC` 2 (pre), 1 (post) and 3 (both). -/
def forms (op : Byte) : List (List Byte) :=
  [[0x01, op, 0x05, 0x34, 0x12],
   [0x04, op, 0x12],
   [0x05, op, 0x03, 0x78, 0x56, 0x34, 0x12],
   [0x06, op, 0x03, 0x78, 0x56, 0x34, 0x12],
   [0x07, op, 0x78, 0x56, 0x34, 0x12, 0xEF, 0xBE],
   [0x28, op, 0x12],
   [0x19, op, 0x12],
   [0x3A, op, 0x04, 0xEF, 0xBE],
   [0x0B, op, 0x12, 0xFC, 0xFF, 0xFF, 0xFF],
   [0x0C, op, 0x12, 0x08, 0x00, 0x00, 0x00],
   [0x0D, op, 0x05, 0x10, 0x00, 0x00, 0x00, 0xEF, 0xBE]]

theorem test_decode_mov : (forms 0x40).map decodeAll =
    [some (.movRegImm .word 5 0x1234), some (.movReg2 .word 1 2), some (.movAbsSrc .word 3 0x12345678),
     some (.movAbsDst .word 0x12345678 3), some (.movAbsConst .word 0x12345678 0xBEEF),
     some (.movIndSrc .word ⟨true, false⟩ 1 2), some (.movIndDst .word ⟨false, true⟩ 1 2),
     some (.movIndConst .word ⟨true, true⟩ 4 0xBEEF), some (.movIdxSrc .word 1 2 0xFFFFFFFC),
     some (.movIdxDst .word 1 8 2), some (.movIdxConst .word 5 0x10 0xBEEF)] := by decide

theorem test_decode_add : (forms 0x42).map decodeAll =
    [some (.addRegImm .word 5 0x1234), some (.addReg2 .word 1 2), some (.addAbsSrc .word 3 0x12345678),
     some (.addAbsDst .word 0x12345678 3), some (.addAbsConst .word 0x12345678 0xBEEF),
     some (.addIndSrc .word ⟨true, false⟩ 1 2), some (.addIndDst .word ⟨false, true⟩ 1 2),
     some (.addIndConst .word ⟨true, true⟩ 4 0xBEEF), some (.addIdxSrc .word 1 2 0xFFFFFFFC),
     some (.addIdxDst .word 1 8 2), some (.addIdxConst .word 5 0x10 0xBEEF)] := by decide

theorem test_decode_sub : (forms 0x43).map decodeAll =
    [some (.subRegImm .word 5 0x1234), some (.subReg2 .word 1 2), some (.subAbsSrc .word 3 0x12345678),
     some (.subAbsDst .word 0x12345678 3), some (.subAbsConst .word 0x12345678 0xBEEF),
     some (.subIndSrc .word ⟨true, false⟩ 1 2), some (.subIndDst .word ⟨false, true⟩ 1 2),
     some (.subIndConst .word ⟨true, true⟩ 4 0xBEEF), some (.subIdxSrc .word 1 2 0xFFFFFFFC),
     some (.subIdxDst .word 1 8 2), some (.subIdxConst .word 5 0x10 0xBEEF)] := by decide

theorem test_decode_adc : (forms 0x44).map decodeAll =
    [some (.adcRegImm .word 5 0x1234), some (.adcReg2 .word 1 2), some (.adcAbsSrc .word 3 0x12345678),
     some (.adcAbsDst .word 0x12345678 3), some (.adcAbsConst .word 0x12345678 0xBEEF),
     some (.adcIndSrc .word ⟨true, false⟩ 1 2), some (.adcIndDst .word ⟨false, true⟩ 1 2),
     some (.adcIndConst .word ⟨true, true⟩ 4 0xBEEF), some (.adcIdxSrc .word 1 2 0xFFFFFFFC),
     some (.adcIdxDst .word 1 8 2), some (.adcIdxConst .word 5 0x10 0xBEEF)] := by decide

theorem test_decode_sbc : (forms 0x45).map decodeAll =
    [some (.sbcRegImm .word 5 0x1234), some (.sbcReg2 .word 1 2), some (.sbcAbsSrc .word 3 0x12345678),
     some (.sbcAbsDst .word 0x12345678 3), some (.sbcAbsConst .word 0x12345678 0xBEEF),
     some (.sbcIndSrc .word ⟨true, false⟩ 1 2), some (.sbcIndDst .word ⟨false, true⟩ 1 2),
     some (.sbcIndConst .word ⟨true, true⟩ 4 0xBEEF), some (.sbcIdxSrc .word 1 2 0xFFFFFFFC),
     some (.sbcIdxDst .word 1 8 2), some (.sbcIdxConst .word 5 0x10 0xBEEF)] := by decide

theorem test_decode_and : (forms 0x46).map decodeAll =
    [some (.andRegImm .word 5 0x1234), some (.andReg2 .word 1 2), some (.andAbsSrc .word 3 0x12345678),
     some (.andAbsDst .word 0x12345678 3), some (.andAbsConst .word 0x12345678 0xBEEF),
     some (.andIndSrc .word ⟨true, false⟩ 1 2), some (.andIndDst .word ⟨false, true⟩ 1 2),
     some (.andIndConst .word ⟨true, true⟩ 4 0xBEEF), some (.andIdxSrc .word 1 2 0xFFFFFFFC),
     some (.andIdxDst .word 1 8 2), some (.andIdxConst .word 5 0x10 0xBEEF)] := by decide

theorem test_decode_or : (forms 0x47).map decodeAll =
    [some (.orRegImm .word 5 0x1234), some (.orReg2 .word 1 2), some (.orAbsSrc .word 3 0x12345678),
     some (.orAbsDst .word 0x12345678 3), some (.orAbsConst .word 0x12345678 0xBEEF),
     some (.orIndSrc .word ⟨true, false⟩ 1 2), some (.orIndDst .word ⟨false, true⟩ 1 2),
     some (.orIndConst .word ⟨true, true⟩ 4 0xBEEF), some (.orIdxSrc .word 1 2 0xFFFFFFFC),
     some (.orIdxDst .word 1 8 2), some (.orIdxConst .word 5 0x10 0xBEEF)] := by decide

theorem test_decode_xor : (forms 0x48).map decodeAll =
    [some (.xorRegImm .word 5 0x1234), some (.xorReg2 .word 1 2), some (.xorAbsSrc .word 3 0x12345678),
     some (.xorAbsDst .word 0x12345678 3), some (.xorAbsConst .word 0x12345678 0xBEEF),
     some (.xorIndSrc .word ⟨true, false⟩ 1 2), some (.xorIndDst .word ⟨false, true⟩ 1 2),
     some (.xorIndConst .word ⟨true, true⟩ 4 0xBEEF), some (.xorIdxSrc .word 1 2 0xFFFFFFFC),
     some (.xorIdxDst .word 1 8 2), some (.xorIdxConst .word 5 0x10 0xBEEF)] := by decide

theorem test_decode_mul : (forms 0x49).map decodeAll =
    [some (.mulRegImm .word 5 0x1234), some (.mulReg2 .word 1 2), some (.mulAbsSrc .word 3 0x12345678),
     some (.mulAbsDst .word 0x12345678 3), some (.mulAbsConst .word 0x12345678 0xBEEF),
     some (.mulIndSrc .word ⟨true, false⟩ 1 2), some (.mulIndDst .word ⟨false, true⟩ 1 2),
     some (.mulIndConst .word ⟨true, true⟩ 4 0xBEEF), some (.mulIdxSrc .word 1 2 0xFFFFFFFC),
     some (.mulIdxDst .word 1 8 2), some (.mulIdxConst .word 5 0x10 0xBEEF)] := by decide

theorem test_decode_div : (forms 0x4A).map decodeAll =
    [some (.divRegImm .word 5 0x1234), some (.divReg2 .word 1 2), some (.divAbsSrc .word 3 0x12345678),
     some (.divAbsDst .word 0x12345678 3), some (.divAbsConst .word 0x12345678 0xBEEF),
     some (.divIndSrc .word ⟨true, false⟩ 1 2), some (.divIndDst .word ⟨false, true⟩ 1 2),
     some (.divIndConst .word ⟨true, true⟩ 4 0xBEEF), some (.divIdxSrc .word 1 2 0xFFFFFFFC),
     some (.divIdxDst .word 1 8 2), some (.divIdxConst .word 5 0x10 0xBEEF)] := by decide

theorem test_decode_shl : (forms 0x4B).map decodeAll =
    [some (.shlRegImm .word 5 0x1234), some (.shlReg2 .word 1 2), some (.shlAbsSrc .word 3 0x12345678),
     some (.shlAbsDst .word 0x12345678 3), some (.shlAbsConst .word 0x12345678 0xBEEF),
     some (.shlIndSrc .word ⟨true, false⟩ 1 2), some (.shlIndDst .word ⟨false, true⟩ 1 2),
     some (.shlIndConst .word ⟨true, true⟩ 4 0xBEEF), some (.shlIdxSrc .word 1 2 0xFFFFFFFC),
     some (.shlIdxDst .word 1 8 2), some (.shlIdxConst .word 5 0x10 0xBEEF)] := by decide

theorem test_decode_shr : (forms 0x4C).map decodeAll =
    [some (.shrRegImm .word 5 0x1234), some (.shrReg2 .word 1 2), some (.shrAbsSrc .word 3 0x12345678),
     some (.shrAbsDst .word 0x12345678 3), some (.shrAbsConst .word 0x12345678 0xBEEF),
     some (.shrIndSrc .word ⟨true, false⟩ 1 2), some (.shrIndDst .word ⟨false, true⟩ 1 2),
     some (.shrIndConst .word ⟨true, true⟩ 4 0xBEEF), some (.shrIdxSrc .word 1 2 0xFFFFFFFC),
     some (.shrIdxDst .word 1 8 2), some (.shrIdxConst .word 5 0x10 0xBEEF)] := by decide

theorem test_decode_rol : (forms 0x4D).map decodeAll =
    [some (.rolRegImm .word 5 0x1234), some (.rolReg2 .word 1 2), some (.rolAbsSrc .word 3 0x12345678),
     some (.rolAbsDst .word 0x12345678 3), some (.rolAbsConst .word 0x12345678 0xBEEF),
     some (.rolIndSrc .word ⟨true, false⟩ 1 2), some (.rolIndDst .word ⟨false, true⟩ 1 2),
     some (.rolIndConst .word ⟨true, true⟩ 4 0xBEEF), some (.rolIdxSrc .word 1 2 0xFFFFFFFC),
     some (.rolIdxDst .word 1 8 2), some (.rolIdxConst .word 5 0x10 0xBEEF)] := by decide

theorem test_decode_ror : (forms 0x4E).map decodeAll =
    [some (.rorRegImm .word 5 0x1234), some (.rorReg2 .word 1 2), some (.rorAbsSrc .word 3 0x12345678),
     some (.rorAbsDst .word 0x12345678 3), some (.rorAbsConst .word 0x12345678 0xBEEF),
     some (.rorIndSrc .word ⟨true, false⟩ 1 2), some (.rorIndDst .word ⟨false, true⟩ 1 2),
     some (.rorIndConst .word ⟨true, true⟩ 4 0xBEEF), some (.rorIdxSrc .word 1 2 0xFFFFFFFC),
     some (.rorIdxDst .word 1 8 2), some (.rorIdxConst .word 5 0x10 0xBEEF)] := by decide

theorem test_decode_cmp : (forms 0x4F).map decodeAll =
    [some (.cmpRegImm .word 5 0x1234), some (.cmpReg2 .word 1 2), some (.cmpAbsSrc .word 3 0x12345678),
     some (.cmpAbsDst .word 0x12345678 3), some (.cmpAbsConst .word 0x12345678 0xBEEF),
     some (.cmpIndSrc .word ⟨true, false⟩ 1 2), some (.cmpIndDst .word ⟨false, true⟩ 1 2),
     some (.cmpIndConst .word ⟨true, true⟩ 4 0xBEEF), some (.cmpIdxSrc .word 1 2 0xFFFFFFFC),
     some (.cmpIdxDst .word 1 8 2), some (.cmpIdxConst .word 5 0x10 0xBEEF)] := by decide

theorem test_decode_reg1 :
    [[0x03, 0x81, 0x07], [0x03, 0x50, 0x07], [0x03, 0x11, 0x07], [0x03, 0x12, 0x07], [0x03, 0x13, 0x07],
     [0x03, 0x94, 0x07], [0x03, 0x55, 0x0E], [0x02, 0x54, 0x34, 0x12]].map decodeAll =
    [some (.clr .byte 7), some (.inc .word 7), some (.dec .dword 7), some (.sxb 7), some (.sxw 7),
     some (.pushReg .byte 7), some (.pop .word 14), some (.pushConst .word 0x1234)] := by decide

theorem test_decode_implied :
    [[0x00, 0x96], [0x00, 0x57], [0x00, 0x19], [0x00, 0x1A], [0x00, 0x1B], [0x00, 0x1D], [0x00, 0x1F],
     [0x00, 0x2D], [0x00, 0x2E], [0x00, 0x2F], [0x00, 0x30], [0x00, 0x31], [0x00, 0x32]].map decodeAll =
    [some (.pusha .byte), some (.popa .word), some .rts, some .brk, some .rti, some .slp, some .nop,
     some .sec, some .clc, some .sei, some .cli, some .sev, some .clv] := by decide

theorem test_decode_direct :
    [[0x0F, 0x18, 0x00, 0x03, 0x00, 0x00], [0x0F, 0x1E, 0x45, 0x23, 0x01, 0x00],
     [0x0F, 0x1C, 0x34, 0x12, 0x00, 0x80, 0x00, 0x00]].map decodeAll =
    [some (.jsr 0x300), some (.jmp 0x12345), some (.sys 0x1234 0x8000)] := by decide

theorem test_decode_branch :
    [[0x0E, 0xA0, 0xFD], [0x0E, 0x61, 0x34, 0x12], [0x0E, 0x22, 0x78, 0x56, 0x34, 0x12], [0x0E, 0xA3, 4],
     [0x0E, 0xA4, 4], [0x0E, 0xA5, 4], [0x0E, 0xA6, 4], [0x0E, 0xA7, 4], [0x0E, 0xA8, 4], [0x0E, 0xA9, 4],
     [0x0E, 0xAA, 4], [0x0E, 0xAB, 4], [0x0E, 0xAC, 4]].map decodeAll =
    [some (.bra .byte 0xFD), some (.beq .word 0x1234), some (.bne .dword 0x12345678), some (.bcc .byte 4),
     some (.bcs .byte 4), some (.bpl .byte 4), some (.bmi .byte 4), some (.bvc .byte 4), some (.bvs .byte 4),
     some (.blt .byte 4), some (.bgt .byte 4), some (.ble .byte 4), some (.bge .byte 4)] := by decide

/-- Ignored bits: `RC` 0xD in an indirect mode is a post-increment, `RC` 3 in mode 4 and `SZ` 2 of SXB, JMP and NOP change
nothing, and so does the upper nibble of a one-register selector (R84, R86, R93). -/
theorem test_decode_ignored_bits :
    [[0xD8, 0x00, 0x01], [0x34, 0x00, 0x21], [0x03, 0x92, 0xF1], [0x0F, 0x9E, 0x00, 0x03, 0x00, 0x00],
     [0xF0, 0x9F]].map decodeAll =
    [some (.movIndSrc .dword ⟨false, true⟩ 0 1), some (.movReg2 .dword 2 1), some (.sxb 1), some (.jmp 0x300),
     some .nop] := by decide

/-- `SZ = 3`, an undefined opcode and an illegal pair are rejected before an operand is looked at; a short operand is
rejected at its offset (R92, R94). -/
theorem test_decode_rejects :
    decode [0xFF, 0xFF] = .error .reservedWidth ∧ decode [0x00, 0x33] = .error .undefinedOpcode ∧
    decode [0x0F, 0x3F] = .error .undefinedOpcode ∧ decode [0x00, 0x00] = .error .illegalPair ∧
    decode [0x0E, 0x1E] = .error .illegalPair ∧ decode [0x01, 0x01] = .error .illegalPair ∧
    decode [0x00] = .error (.truncated 0) ∧ decode [0x01, 0x00, 0x00, 0x2A] = .error (.truncated 3) := by decide

/-- The encoder writes the document's bytes (R82, R93; vectors T13, S10, C6, Y5). -/
theorem test_encode :
    encode (.movIndConst .word ⟨false, true⟩ 4 0xBEEF) = [0x1A, 0x40, 0x04, 0xEF, 0xBE] ∧
    encode (.pushConst .word 0x1234) = [0x02, 0x54, 0x34, 0x12] ∧
    encode (.bra .word 0x1000) = [0x0E, 0x60, 0x00, 0x10] ∧
    encode (.sys 0x1234 0x8000) = [0x0F, 0x1C, 0x34, 0x12, 0x00, 0x80, 0x00, 0x00] := by decide

/-! ## One step (spec/95_test_vectors.md) -/

/-- The 32-bit vector slots of the common start state. -/
def vectors : List (Nat × Nat) :=
  [(0x00, 0x200), (0x04, 0x7FF00), (0x08, 0x400), (0x0C, 0x500), (0x10, 0x600), (0x14, 0x100), (0x18, 0x110),
   (0x1C, 0x120)]

/-- The common start state with an instruction at `pc`, the registers and flags byte of the vector's "before" column, and
byte strings in memory. -/
def start (pc : Word) (code : List Byte) (regs : List (Reg × Word)) (flags : Byte) (bytes : List (Word × List Byte)) :
    State :=
  let mem := vectors.foldl (fun m v => m.writeLe 4 v.1 v.2) Memory.powerOn
  let mem := bytes.foldl (fun m b => placeBytes b.2 b.1 m) mem
  let s := (State.reset.withMem (placeBytes code pc mem)).withFlags (Flags.ofByte flags)
  regs.foldl (fun s r => s.setReg r.1 r.2) ((s.setSp 0x7FF00).setPc pc)

/-- The registers and memory bytes looked at, with the flags byte. -/
def look (r : Result) (regs : List Reg) (addrs : List Nat) : Option (List Word × Byte × List Byte) :=
  match r with
  | .next t => some (regs.map t.reg, t.flags.toByte, addrs.map t.mem.byte)
  | _ => none

/-- M2: MOV.b R1, $80 -/
theorem test_M2_mov :
    look (step (start 0x200 [0x01, 0x80, 0x01, 0x80] [(1, 0x11223344)] 0 []))
    [1, 15] [] =
    some ([0x11223380, 0x204], 2, []) := by decide

/-- T12: MOV.d -[R1]+, R2 -/
theorem test_T12_mov :
    look (step (start 0x200 [0x39, 0x00, 0x12] [(1, 0x1004), (2, 0xAABBCCDD)] 0 []))
    [15] [0x1000, 0x1001, 0x1002, 0x1003] =
    some ([0x203], 2, [0xDD, 0xCC, 0xBB, 0xAA]) := by decide

/-- M9: CLR.b R1 -/
theorem test_M9_clr :
    look (step (start 0x200 [0x03, 0x81, 0x01] [(1, 0x11223344)] 6 []))
    [1, 15] [] =
    some ([0x11223300, 0x203], 5, []) := by decide

/-- T6: ADD.b [$1001], $01 -/
theorem test_T6_add :
    look (step (start 0x200 [0x07, 0x82, 0x01, 0x10, 0x00, 0x00, 0x01] [] 0 [(0x1000, [0x44, 0x7F, 0x22, 0x11])]))
    [15] [0x1001] =
    some ([0x207], 0xA, [0x80]) := by decide

/-- T8: ADD.w R0, [R1]+ -/
theorem test_T8_add :
    look (step (start 0x200 [0x18, 0x42, 0x01] [(0, 1), (1, 0x1000)] 0 [(0x1000, [0x41, 0x00, 0x00, 0x00])]))
    [0, 1, 15] [] =
    some ([0x42, 0x1002, 0x203], 0, []) := by decide

/-- A12: SUB.w R0, R1 -/
theorem test_A12_sub :
    look (step (start 0x200 [0x04, 0x43, 0x01] [(0, 0x7FFF), (1, 0xFFFF)] 0 []))
    [0, 15] [] =
    some ([0x8000, 0x203], 0xE, []) := by decide

/-- A8: ADC.b R0, R1 -/
theorem test_A8_adc :
    look (step (start 0x200 [0x04, 0x84, 0x01] [(0, 0x7F)] 4 []))
    [0, 15] [] =
    some ([0x80, 0x203], 0xA, []) := by decide

/-- A15: SBC.b R0, R1 -/
theorem test_A15_sbc :
    look (step (start 0x200 [0x04, 0x85, 0x01] [] 4 []))
    [0, 15] [] =
    some ([0xFF, 0x203], 6, []) := by decide

/-- L26: AND.b R0, $0F -/
theorem test_L26_and :
    look (step (start 0x200 [0x01, 0x86, 0x00, 0x0F] [(0, 0xFFFFFFFF)] 0 []))
    [0, 15] [] =
    some ([0xFFFFFF0F, 0x204], 0, []) := by decide

/-- L3: OR.d R0, R1 -/
theorem test_L3_or :
    look (step (start 0x200 [0x04, 0x07, 0x01] [(0, 0x80000000), (1, 1)] 0 []))
    [0, 15] [] =
    some ([0x80000001, 0x203], 2, []) := by decide

/-- L5: XOR.w R0, R1 -/
theorem test_L5_xor :
    look (step (start 0x200 [0x04, 0x48, 0x01] [(0, 0xFFFF), (1, 0xFFFF)] 0 []))
    [0, 15] [] =
    some ([0, 0x203], 1, []) := by decide

/-- A39: MUL.d [$1000], R1 -/
theorem test_A39_mul :
    look (step (start 0x200 [0x06, 0x09, 0x01, 0x00, 0x10, 0x00, 0x00] [(1, 0x10), (13, 0x55)] 0 [(0x1000, [0x00,
      0x00, 0x00, 0x10])]))
    [13, 15] [0x1000, 0x1001, 0x1002, 0x1003] =
    some ([1, 0x207], 1, [0x00, 0x00, 0x00, 0x00]) := by decide

/-- A34: MUL.b R13, R1 -/
theorem test_A34_mul :
    look (step (start 0x200 [0x04, 0x89, 0xD1] [(1, 0x34), (13, 0x12)] 0 []))
    [13, 15] [] =
    some ([0xA8, 0x203], 2, []) := by decide

/-- A29: DIV.b R0, R1 -/
theorem test_A29_div :
    look (step (start 0x200 [0x04, 0x8A, 0x01] [(0, 0x123456FF), (1, 0x10)] 0 []))
    [0, 13, 15] [] =
    some ([0x1234560F, 0xF, 0x203], 0, []) := by decide

/-- A32: DIV.b R0, R1 -/
theorem test_A32_div :
    look (step (start 0x200 [0x04, 0x8A, 0x01] [(0, 0x64), (1, 0xBB00)] 0 []))
    [0, 15] [] =
    some ([0x64, 0x120], 0, []) := by decide

/-- L8: SHL.b R0, R1 -/
theorem test_L8_shl :
    look (step (start 0x200 [0x04, 0x8B, 0x01] [(0, 0x81), (1, 8)] 0 []))
    [0, 15] [] =
    some ([0x81, 0x203], 2, []) := by decide

/-- L12: SHL.w R0, R1 -/
theorem test_L12_shl :
    look (step (start 0x200 [0x04, 0x4B, 0x01] [(0, 0xFF), (1, 0xC)] 0 []))
    [0, 15] [] =
    some ([0xF000, 0x203], 2, []) := by decide

/-- L14: SHR.d R0, R1 -/
theorem test_L14_shr :
    look (step (start 0x200 [0x04, 0x0C, 0x01] [(0, 0x80000000), (1, 0x20)] 0 []))
    [0, 15] [] =
    some ([0x80000000, 0x203], 2, []) := by decide

/-- L18: ROL.b R0, R1 -/
theorem test_L18_rol :
    look (step (start 0x200 [0x04, 0x8D, 0x01] [(0, 0x81), (1, 9)] 0 []))
    [0, 15] [] =
    some ([3, 0x203], 0, []) := by decide

/-- L23: ROR.d R0, R1 -/
theorem test_L23_ror :
    look (step (start 0x200 [0x04, 0x0E, 0x01] [(0, 0x12345678), (1, 0x28)] 0 []))
    [0, 15] [] =
    some ([0x78123456, 0x203], 0, []) := by decide

/-- T24: CMP.d [R1]+, R2 -/
theorem test_T24_cmp :
    look (step (start 0x200 [0x19, 0x0F, 0x12] [(1, 0x1000), (2, 5)] 0 [(0x1000, [0x05, 0x00, 0x00, 0x00])]))
    [1, 15] [] =
    some ([0x1004, 0x203], 1, []) := by decide

/-- A20: CMP.b R0, R1 -/
theorem test_A20_cmp :
    look (step (start 0x200 [0x04, 0x8F, 0x01] [(0, 0x80), (1, 0x7F)] 0 []))
    [0, 15] [] =
    some ([0x80, 0x203], 8, []) := by decide

/-- A40: INC.b R3 -/
theorem test_A40_inc :
    look (step (start 0x200 [0x03, 0x90, 0x03] [(3, 0x123456FF)] 0 []))
    [3, 15] [] =
    some ([0x12345600, 0x203], 5, []) := by decide

/-- A46: DEC.w SP -/
theorem test_A46_dec :
    look (step (start 0x200 [0x03, 0x51, 0x0E] [(14, 0x70000)] 0 []))
    [14, 15] [] =
    some ([0x7FFFF, 0x203], 6, []) := by decide

/-- M11: SXB R1 -/
theorem test_M11_sxb :
    look (step (start 0x200 [0x03, 0x12, 0x01] [(1, 0x12345680)] 0 []))
    [1, 15] [] =
    some ([0xFFFFFF80, 0x203], 2, []) := by decide

/-- M15: SXW R1 -/
theorem test_M15_sxw :
    look (step (start 0x200 [0x03, 0x13, 0x01] [(1, 0x18000)] 0 []))
    [1, 15] [] =
    some ([0xFFFF8000, 0x203], 2, []) := by decide

/-- S8: PUSH.d PC -/
theorem test_S8_push :
    look (step (start 0x200 [0x03, 0x14, 0x0F] [] 0 []))
    [14, 15] [0x7FEFC, 0x7FEFD, 0x7FEFE, 0x7FEFF] =
    some ([0x7FEFC, 0x203], 0, [0x03, 0x02, 0x00, 0x00]) := by decide

/-- S10: PUSH.w $1234 -/
theorem test_S10_push :
    look (step (start 0x200 [0x02, 0x54, 0x34, 0x12] [] 0 []))
    [14, 15] [0x7FEFE, 0x7FEFF] =
    some ([0x7FEFE, 0x204], 0, [0x34, 0x12]) := by decide

/-- S7: POP.d SP -/
theorem test_S7_pop :
    look (step (start 0x200 [0x03, 0x15, 0x0E] [(14, 0x7FEFC)] 0 [(0x7FEFC, [0x40, 0x23, 0x01, 0x00])]))
    [14, 15] [] =
    some ([0x12340, 0x203], 0, []) := by decide

/-- S4: POP.b R2 -/
theorem test_S4_pop :
    look (step (start 0x200 [0x03, 0x95, 0x02] [(2, 0xAABBCCDD), (14, 0x7FEFF)] 2 [(0x7FEFF, [0x44])]))
    [2, 14, 15] [] =
    some ([0xAABBCC44, 0x7FF00, 0x203], 2, []) := by decide

/-- S13: PUSHA.b -/
theorem test_S13_pusha :
    look (step (start 0x200 [0x00, 0x96] [(0, 0xA0), (12, 0xAC), (13, 0xAD)] 0 []))
    [14, 15] [0x7FEF2, 0x7FEF3, 0x7FEFF] =
    some ([0x7FEF2, 0x202], 0, [0xAD, 0xAC, 0xA0]) := by decide

/-- S15: POPA.w -/
theorem test_S15_popa :
    look (step (start 0x200 [0x00, 0x57] [(0, 0xFFFF0000), (1, 0xFFFF0000), (13, 0xFFFF0000), (14,
      0x7FEE4)] 0 [(0x7FEE4, [0x0D, 0x20, 0x0C, 0x20, 0x0B, 0x20, 0x0A, 0x20, 0x09, 0x20, 0x08, 0x20, 0x07, 0x20,
      0x06, 0x20, 0x05, 0x20, 0x04, 0x20, 0x03, 0x20, 0x02, 0x20, 0x01, 0x20, 0x00, 0x20])]))
    [0, 1, 13, 14] [] =
    some ([0xFFFF2000, 0xFFFF2001, 0xFFFF200D, 0x7FF00], 0, []) := by decide

/-- C23: JSR $300 -/
theorem test_C23_jsr :
    look (step (start 0x200 [0x0F, 0x18, 0x00, 0x03, 0x00, 0x00] [] 0 []))
    [14, 15] [0x7FEFC, 0x7FEFD, 0x7FEFE, 0x7FEFF] =
    some ([0x7FEFC, 0x300], 0, [0x06, 0x02, 0x00, 0x00]) := by decide

/-- C24: RTS -/
theorem test_C24_rts :
    look (step (start 0x200 [0x00, 0x19] [(14, 0x7FEFC)] 0 [(0x7FEFC, [0x06, 0x02, 0x00, 0x00])]))
    [14, 15] [] =
    some ([0x7FF00, 0x206], 0, []) := by decide

/-- Y1: BRK -/
theorem test_Y1_brk :
    look (step (start 0x200 [0x00, 0x1A] [] 5 []))
    [14, 15] [0x7FEFB, 0x7FEFC, 0x7FEFD, 0x7FEFE, 0x7FEFF] =
    some ([0x7FEFB, 0x500], 0x15, [0x02, 0x02, 0x00, 0x00, 0x05]) := by decide

/-- Y3: RTI (flags byte 0xFF) -/
theorem test_Y3_rti :
    look (step (start 0x200 [0x00, 0x1B] [(14, 0x7FEFB)] 0 [(0x7FEFB, [0x00, 0x03, 0x00, 0x00, 0xFF])]))
    [14, 15] [] =
    some ([0x7FF00, 0x300], 0x3F, []) := by decide

/-- C26: JMP $FFFFFFF0 (target outside bank) -/
theorem test_C26_jmp :
    look (step (start 0x200 [0x0F, 0x1E, 0xF0, 0xFF, 0xFF, 0xFF] [] 0 []))
    [15] [] =
    some ([0xFFFFFFF0], 0, []) := by decide

/-- Y9: NOP (RC=0xF, SZ=2 ignored) -/
theorem test_Y9_nop :
    look (step (start 0x200 [0xF0, 0x9F] [] 0 []))
    [15] [] =
    some ([0x202], 0, []) := by decide

/-- C25: BRA.b -$40 at 0x20 (wraps below 0) -/
theorem test_C25_bra :
    look (step (start 0x20 [0x0E, 0xA0, 0xC0] [] 0 []))
    [15] [] =
    some ([0xFFFFFFE3], 0, []) := by decide

/-- C5: BRA.w -4 (to itself) -/
theorem test_C5_bra :
    look (step (start 0x200 [0x0E, 0x60, 0xFC, 0xFF] [] 0 []))
    [15] [] =
    some ([0x200], 0, []) := by decide

/-- C10: BEQ.b +$10 (Z=1: taken) -/
theorem test_C10_beq :
    look (step (start 0x200 [0x0E, 0xA1, 0x10] [] 1 []))
    [15] [] =
    some ([0x213], 1, []) := by decide

/-- C11: BNE.w +$10 (Z=1: not taken) -/
theorem test_C11_bne :
    look (step (start 0x200 [0x0E, 0x62, 0x10, 0x00] [] 1 []))
    [15] [] =
    some ([0x204], 1, []) := by decide

/-- C17: BCC.b +4 (C=1: not taken) -/
theorem test_C17_bcc :
    look (step (start 0x200 [0x0E, 0xA3, 0x04] [] 4 []))
    [15] [] =
    some ([0x203], 4, []) := by decide

/-- C16: BCS.b +4 (C=1: taken) -/
theorem test_C16_bcs :
    look (step (start 0x200 [0x0E, 0xA4, 0x04] [] 4 []))
    [15] [] =
    some ([0x207], 4, []) := by decide

/-- C19: BPL.b +4 (N=1: not taken) -/
theorem test_C19_bpl :
    look (step (start 0x200 [0x0E, 0xA5, 0x04] [] 2 []))
    [15] [] =
    some ([0x203], 2, []) := by decide

/-- C18: BMI.b +4 (N=1) -/
theorem test_C18_bmi :
    look (step (start 0x200 [0x0E, 0xA6, 0x04] [] 2 []))
    [15] [] =
    some ([0x207], 2, []) := by decide

/-- C21: BVC.b +4 (V=1: not taken) -/
theorem test_C21_bvc :
    look (step (start 0x200 [0x0E, 0xA7, 0x04] [] 8 []))
    [15] [] =
    some ([0x203], 8, []) := by decide

/-- C20: BVS.b +4 (V=1) -/
theorem test_C20_bvs :
    look (step (start 0x200 [0x0E, 0xA8, 0x04] [] 8 []))
    [15] [] =
    some ([0x207], 8, []) := by decide

/-- C12: BLT.b +4 (N=1,V=0: taken) -/
theorem test_C12_blt :
    look (step (start 0x200 [0x0E, 0xA9, 0x04] [] 2 []))
    [15] [] =
    some ([0x207], 2, []) := by decide

/-- C14: BGT.b +4 (Z=1: not taken) -/
theorem test_C14_bgt :
    look (step (start 0x200 [0x0E, 0xAA, 0x04] [] 1 []))
    [15] [] =
    some ([0x203], 1, []) := by decide

/-- C15: BLE.b +4 (Z=1: taken) -/
theorem test_C15_ble :
    look (step (start 0x200 [0x0E, 0xAB, 0x04] [] 1 []))
    [15] [] =
    some ([0x207], 1, []) := by decide

/-- C13: BGE.b +4 (N=1,V=1: taken) -/
theorem test_C13_bge :
    look (step (start 0x200 [0x0E, 0xAC, 0x04] [] 0xA []))
    [15] [] =
    some ([0x207], 0xA, []) := by decide

/-- Y10: SEC -/
theorem test_Y10_sec :
    look (step (start 0x200 [0x00, 0x2D] [] 0 []))
    [15] [] =
    some ([0x202], 4, []) := by decide

/-- Y11: CLC -/
theorem test_Y11_clc :
    look (step (start 0x200 [0x00, 0x2E] [] 0x3F []))
    [15] [] =
    some ([0x202], 0x3B, []) := by decide

/-- Y12: SEI -/
theorem test_Y12_sei :
    look (step (start 0x200 [0x00, 0x2F] [] 0 []))
    [15] [] =
    some ([0x202], 0x20, []) := by decide

/-- Y13: CLI -/
theorem test_Y13_cli :
    look (step (start 0x200 [0x00, 0x30] [] 0x3F []))
    [15] [] =
    some ([0x202], 0x1F, []) := by decide

/-- Y14: SEV -/
theorem test_Y14_sev :
    look (step (start 0x200 [0x00, 0x31] [] 0 []))
    [15] [] =
    some ([0x202], 8, []) := by decide

/-- Y15: CLV -/
theorem test_Y15_clv :
    look (step (start 0x200 [0x00, 0x32] [] 0x3F []))
    [15] [] =
    some ([0x202], 0x37, []) := by decide

/-- X1: word 0xFFFF (SZ=3) -/
theorem test_X1_word :
    look (step (start 0x200 [0xFF, 0xFF] [] 5 []))
    [15] [] =
    some ([0x100], 5, []) := by decide

/-- X12: MOV.d R0, $2A at CAP-4 (constant crosses the end) -/
theorem test_X12_mov :
    look (step (start 0x7FFFC [0x01, 0x00, 0x00, 0x2A] [] 0 []))
    [15] [] =
    some ([0x110], 0, []) := by decide

/-- X14: MOV.d [$7FFFD], R1 (last byte outside) -/
theorem test_X14_mov :
    look (step (start 0x200 [0x06, 0x00, 0x01, 0xFD, 0xFF, 0x07, 0x00] [(1, 0x11223344)] 0 []))
    [15] [] =
    some ([0x110], 0, []) := by decide

/-- X16: MOV.d -[R1], R2 (R1=2) -/
theorem test_X16_mov :
    look (step (start 0x200 [0x29, 0x00, 0x12] [(1, 2), (2, 0x99)] 0 []))
    [1, 15] [] =
    some ([0xFFFFFFFE, 0x110], 0, []) := by decide

/-- X18: ADD.d [R1 + 4], R2 (EA wraps to 3: in range) -/
theorem test_X18_add :
    look (step (start 0x200 [0x0C, 0x02, 0x12, 0x04, 0x00, 0x00, 0x00] [(1, 0xFFFFFFFF), (2, 1)] 0 []))
    [15] [3, 4, 5, 6] =
    some ([0x207], 0, [0x01, 0x00, 0xFF, 0x07]) := by decide

/-- Y4: BRK (sp=3) -/
theorem test_Y4_brk :
    look (step (start 0x200 [0x00, 0x1A] [(14, 3)] 4 []))
    [14, 15] [2] =
    some ([0xFFFFFFFE, 0x110], 4, [0x04]) := by decide

/-- I4: NMI, I=1, N=1 -/
theorem test_I4_nmi_entry :
    look (interruptRaised true (start 0x202 [] [] 0x22 []))
    [14, 15] [0x7FEFB, 0x7FEFC, 0x7FEFD, 0x7FEFE, 0x7FEFF] =
    some ([0x7FEFB, 0x600], 0x22, [0x02, 0x02, 0x00, 0x00, 0x22]) := by decide

/-- I3: IRQ, I=1, asleep: wakes only -/
theorem test_I3_masked_irq :
    look (interruptRaised false ((start 0x202 [] [] 0x20 []).withAsleep true))
    [14, 15] [] =
    some ([0x7FF00, 0x202], 0x20, []) := by decide

/-- I7: IRQ, sp=4, C=1: first push lands on address 3, second faults -/
theorem test_I7_faulting_entry :
    look (interruptRaised false (start 0x202 [] [(14, 4)] 4 []))
    [14, 15] [3] =
    some ([0xFFFFFFFF, 0x110], 4, [0x04]) := by decide

/-- I14: reset while asleep with flags set: flags kept, R0..R13 zeroed -/
theorem test_I14_reset :
    look (resetEvent ((start 0x1234 [] [(0, 0x55), (13, 0x66), (14, 0x10)] 0x3F []).withAsleep true))
    [0, 13, 14, 15] [] =
    some ([0, 0, 0x7FF00, 0x200], 0x3F, []) := by decide

/-- Y5: SYS hands its operands to the registered callback and leaves registers and flags; with none registered the state
is as before but for `pc`. -/
theorem test_Y5_sys :
    tickSyscall (registerCallback 7 (start 0x200 [0x0F, 0x1C, 0x34, 0x12, 0x00, 0x80, 0x00, 0x00] [] 2 [])) =
      some (0x1234, 0x8000) ∧
    look (step (start 0x200 [0x0F, 0x1C, 0x34, 0x12, 0x00, 0x80, 0x00, 0x00] [] 2 [])) [14, 15] [] =
      some ([0x7FF00, 0x208], 2, []) := by decide

/-- Y7: SLP sets the latch; C1 after it: an asleep tick costs 1 (I13). -/
theorem test_Y7_slp :
    (match step (start 0x200 [0x00, 0x1D] [] 0 []) with | .next t => (t.asleep, t.pc) | _ => (false, 0)) =
      (true, 0x202) ∧
    tickCost Config.defaultCycles ((start 0x200 [0x00, 0x1D] [] 0 []).withAsleep true) = 1 := by decide

/-- The costs of T6, T24 and X1. -/
theorem test_costs :
    tickCost Config.defaultCycles (start 0x200 [0x07, 0x82, 0x01, 0x10, 0x00, 0x00, 0x01] [] 0 []) = 6 ∧
    tickCost Config.defaultCycles (start 0x200 [0x19, 0x0F, 0x12] [] 0 []) = 4 ∧
    tickCost Config.defaultCycles (start 0x200 [0xFF, 0xFF] [] 0 []) = 1 := by decide

/-! ## The loader (R357, R358) -/

/-- The image of scenario A, for the version byte 1. -/
def scenarioA : List Byte :=
  [0x52, 0x53, 0x58, 1, 0x00, 0x02, 0x00, 0x00, 7, 0, 0, 0, 0x01, 0x00, 0x00, 0x2A, 0x00, 0x00, 0x00,
   0, 0, 0, 0, 4, 0, 0, 0, 0x00, 0x02, 0x00, 0x00]

/-- The image loads, and reset takes `pc` from its second chunk; a wrong version and a short file load nothing. -/
theorem test_V1_loader :
    (loadRsx 1 scenarioA (State.powerOn 0x80000)).2 = none ∧
    look (resetEvent (loadRsx 1 scenarioA (State.powerOn 0x80000)).1) [14, 15] [0x200, 0x203] =
      some ([0, 0x200], 0, [0x01, 0x2A]) ∧
    loadRsx 2 scenarioA (State.powerOn 0x80000) = (State.powerOn 0x80000, some .badVersion) ∧
    loadRsx 1 (scenarioA.take 30) (State.powerOn 0x80000) = (State.powerOn 0x80000, some .truncated) := by decide

/-! ## Witnesses: the hypotheses of the statements can be met, each clause at a boundary -/

/-- The smallest and the largest bank satisfy the invariant: for every statement whose one hypothesis is `Inv`
(`EveryEventHasASuccessorKeepingTheInvariant`, `TakingAnExceptionLoadsThePcAlone`, `ResetEventLoadsPcAndSp`). -/
theorem witness_Inv : (State.powerOn 32).Inv ∧ (State.powerOn (2 ^ 32)).Inv := by decide

theorem witness_DecodeOfEncode : (Instr.movRegImm .byte 15 0xFF).wf = true := by decide

/-- The last two bytes of the bank: a legal word and an illegal one. -/
theorem witness_ExactlyTheUnlistedWords :
    (start 0x7FFFE [0x00, 0x1F] [] 0 []).asleep = false ∧
    (start 0x7FFFE [0x00, 0x1F] [] 0 []).accessible (start 0x7FFFE [0x00, 0x1F] [] 0 []).pc 2 ∧
    ¬ illegalWord (wordAtPc (start 0x7FFFE [0x00, 0x1F] [] 0 [])) ∧
    (start 0x7FFFE [0xFF, 0xFF] [] 0 []).accessible (start 0x7FFFE [0xFF, 0xFF] [] 0 []).pc 2 ∧
    illegalWord (wordAtPc (start 0x7FFFE [0xFF, 0xFF] [] 0 [])) := by decide

/-- NOP in the last two bytes of the bank, and the longest instruction with bytes after it. -/
theorem witness_StepRunsTheDecodedInstruction :
    (start 0x7FFFE [0x00, 0x1F] [] 0 []).Inv ∧ (start 0x7FFFE [0x00, 0x1F] [] 0 []).asleep = false ∧
    decode (codeBytes (start 0x7FFFE [0x00, 0x1F] [] 0 [])) = .ok (.nop, []) ∧
    decode (codeBytes (start 0x200 [0x0D, 0, 5, 8, 0, 0, 0, 7, 0, 0, 0] [] 0 [])) =
      .ok (.movIdxConst .dword 5 8 7, []) := by decide

/-- The word across the end of the bank; an illegal word in its last two bytes; MOV.b [R5 + $10], $7F with its selector
byte, its offset and its constant the first group outside, in the order of the tests. -/
theorem witness_FetchFaults :
    (start 0x7FFFF [0x0D] [] 0 []).asleep = false ∧ ¬ (start 0x7FFFF [0x0D] [] 0 []).accessible 0x7FFFF 2 ∧
    (start 0x7FFFE [0xFF, 0xFF] [] 0 []).accessible 0x7FFFE 2 ∧
    illegalWord (wordAtPc (start 0x7FFFE [0xFF, 0xFF] [] 0 [])) ∧
    (let s := start 0x7FFFE [0x0D, 0x80] [] 0 []
     s.accessible s.pc 2 ∧ ¬ illegalWord (wordAtPc s) ∧ operandGroups (wordAtPc s) = [1, 4, 1] ∧
      ¬ groupInBank s 0 ∧ groupAddress s 0 = 0x80000) ∧
    (let s := start 0x7FFFA [0x0D, 0x80] [] 0 []
     groupInBank s 0 ∧ ¬ groupInBank s 1 ∧ groupAddress s 1 = 0x7FFFD) ∧
    (let s := start 0x7FFF9 [0x0D, 0x80] [] 0 []
     groupInBank s 0 ∧ groupInBank s 1 ∧ ¬ groupInBank s 2 ∧ groupAddress s 2 = 0x80000) := by decide

theorem witness_StepKeepsTheInvariant :
    State.reset.Inv ∧ step State.reset = .next State.reset := ⟨by decide, rfl⟩

theorem witness_Reachable : Reachable (State.powerOn 32) := .powerOn 32 (by decide) (by decide)

/-- SLP. -/
theorem witness_OnlySlpPutsTheMachineToSleep :
    (start 0x200 [0x00, 0x1D] [] 0 []).asleep = false ∧
    (match step (start 0x200 [0x00, 0x1D] [] 0 []) with | .next t => t.asleep | _ => false) = true := by decide

/-- An instruction under each clause: NOP writes no flag and stores nothing. -/
theorem witness_OnlyTheListedInstructions :
    exec .nop State.reset = .next State.reset ∧ writesZN .nop = false ∧ writesC .nop = false ∧
    writesV .nop = false ∧ Instr.nop ≠ .brk ∧ Instr.nop ≠ .rti ∧ Instr.nop ≠ .sei ∧ Instr.nop ≠ .cli ∧
    storesToMemory .nop = false := ⟨rfl, by decide⟩

/-- The last accesses inside the bank and the first ones outside it. -/
theorem witness_port_bounds :
    Memory.powerOn.cap < (0x80000 : Word).toNat + 1 ∧ (0x7FFFF : Word).toNat + 1 ≤ Memory.powerOn.cap ∧
    Memory.powerOn.cap < (0x7FFFF : Word).toNat + 2 ∧ (0x7FFFE : Word).toNat + 2 ≤ Memory.powerOn.cap ∧
    Memory.powerOn.cap < (0x7FFFD : Word).toNat + 4 ∧ (0x7FFFC : Word).toNat + 4 ≤ Memory.powerOn.cap ∧
    Memory.powerOn.wf = true := by decide

theorem witness_NarrowWrites : (31 : Nat) < 32 ∧ (7 : Nat) < Width.bits .byte ∧ ¬ (8 : Nat) < Width.bits .byte ∧
    (1 : Reg) ≠ 0 := by decide

/-- Registers 1 and 2 hold addresses at the end of the bank, so that every form's operand is its last bytes. -/
def edge : State := (State.reset.setReg 1 0x7FFFC).setReg 2 0x80000

theorem witness_MovMovesTheSource :
    edge.accessible 0x7FFFC 4 ∧
    edge.accessible ((decremented .dword ⟨true, true⟩ 2 edge).reg 2) 4 ∧
    edge.accessible ((decremented .dword ⟨false, true⟩ 1 edge).reg 1) 4 ∧
    edge.accessible (edge.reg 2 + 0xFFFFFFFC) 4 ∧ edge.accessible (edge.reg 1 + 0) 4 := by decide

/-- A form without a memory operand, one with a memory source and one with a memory destination. -/
theorem witness_operandInBank :
    operandInBank .dword (.reg2 1 2) edge ∧
    operandInBank .dword (.indSrc ⟨false, false⟩ 0 1) edge ∧ operandInBank .dword (.idxDst 2 0xFFFFFFFC 1) edge := by
  refine ⟨fun ea h => (by cases h), fun ea h => ?_, fun ea h => ?_⟩ <;> (injection h with h; subst h; decide)

theorem witness_TwoOperandInstructionsComplete :
    (Instr.divIndSrc .dword ⟨false, false⟩ 0 1).view = .two .div .dword (.indSrc ⟨false, false⟩ 0 1) ∧
    sourceValue .dword (.indSrc ⟨false, false⟩ 0 1) (preDecrement .dword (.indSrc ⟨false, false⟩ 0 1)
      (edge.withMem (edge.mem.writeLe 4 0x7FFFC 1))) = .ok 1 := by decide

/-- Both operands readable, for ADD without and ADC with a carry, at the largest operands of a width. -/
theorem witness_AddAndAdc :
    let s := (State.reset.setReg 3 0xFF).withFlags { State.reset.flags with c := true }
    (Instr.adcRegImm .byte 3 0xFF).view = .two .adc .byte (.regImm 3 0xFF) ∧
    (Instr.addRegImm .byte 3 0xFF).view = .two .add .byte (.regImm 3 0xFF) ∧ s.flags.c = true ∧
    destValue .byte (.regImm 3 0xFF) (preDecrement .byte (.regImm 3 0xFF) s) = .ok 0xFF ∧
    sourceValue .byte (.regImm 3 0xFF) (preDecrement .byte (.regImm 3 0xFF) s) = .ok 0xFF := by decide

/-- The smallest and the largest operand of a width, for SUB, SBC and CMP. -/
theorem witness_SubSbcAndCmp :
    let s := State.reset.withFlags { State.reset.flags with c := true }
    (Instr.subRegImm .byte 3 0xFF).view = .two .sub .byte (.regImm 3 0xFF) ∧
    (Instr.sbcRegImm .byte 3 0xFF).view = .two .sbc .byte (.regImm 3 0xFF) ∧
    (Instr.cmpRegImm .byte 3 0xFF).view = .two .cmp .byte (.regImm 3 0xFF) ∧ s.flags.c = true ∧
    destValue .byte (.regImm 3 0xFF) (preDecrement .byte (.regImm 3 0xFF) s) = .ok 0 ∧
    sourceValue .byte (.regImm 3 0xFF) (preDecrement .byte (.regImm 3 0xFF) s) = .ok 0xFF := by decide

/-- For AND, OR, XOR, the four shifts by a whole width, MUL, and DIV by the smallest divisor. -/
theorem witness_LogicShiftsMulAndDiv :
    let s := (State.reset.setReg 3 0x81).setReg 4 8
    let d := (State.reset.setReg 3 0x81).setReg 4 1
    (Instr.andReg2 .byte 3 4).view = .two .and .byte (.reg2 3 4) ∧
    (Instr.orReg2 .byte 3 4).view = .two .or .byte (.reg2 3 4) ∧
    (Instr.xorReg2 .byte 3 4).view = .two .xor .byte (.reg2 3 4) ∧
    (Instr.shlReg2 .byte 3 4).view = .two .shl .byte (.reg2 3 4) ∧
    (Instr.shrReg2 .byte 3 4).view = .two .shr .byte (.reg2 3 4) ∧
    (Instr.rolReg2 .byte 3 4).view = .two .rol .byte (.reg2 3 4) ∧
    (Instr.rorReg2 .byte 3 4).view = .two .ror .byte (.reg2 3 4) ∧
    (Instr.mulReg2 .byte 3 4).view = .two .mul .byte (.reg2 3 4) ∧
    (Instr.divReg2 .byte 3 4).view = .two .div .byte (.reg2 3 4) ∧
    destValue .byte (.reg2 3 4) (preDecrement .byte (.reg2 3 4) s) = .ok 0x81 ∧
    sourceValue .byte (.reg2 3 4) (preDecrement .byte (.reg2 3 4) s) = .ok 8 ∧
    destValue .byte (.reg2 3 4) (preDecrement .byte (.reg2 3 4) d) = .ok 0x81 ∧
    sourceValue .byte (.reg2 3 4) (preDecrement .byte (.reg2 3 4) d) = .ok 1 ∧ (1 : BitVec 8) ≠ 0 := by decide

/-- The clauses in order: a register destination that is not register 13; a side value with another destination, the form
adjusting no base or register 13 itself without a post-increment; an adjusted base that is not the destination, with and
without a post-increment; a memory destination; CMP or a register destination. The operands lie inside the bank by
`witness_operandInBank`. -/
theorem witness_OutcomeLands :
    edge.Inv ∧ AluOp.mul ≠ .cmp ∧
    destReg (.reg2 1 2) = some 1 ∧ (1 : Reg) ≠ sideReg ∧ adjustedBase (.reg2 1 2) = none ∧
    (AluOut.mk (0 : BitVec 32) edge.flags (some 7)).side = some 7 ∧ destReg (.indSrc ⟨false, false⟩ 0 13) ≠ some sideReg ∧
    adjustedBase (.indSrc ⟨false, false⟩ 0 13) = some (⟨false, false⟩, sideReg) ∧
    adjustedBase (.indDst ⟨false, true⟩ 1 3) = some (⟨false, true⟩, 1) ∧ destReg (.indDst ⟨false, true⟩ 1 3) ≠ some 1 ∧
    adjustedBase (.indSrc ⟨false, false⟩ 0 1) = some (⟨false, false⟩, 1) ∧ destReg (.indSrc ⟨false, false⟩ 0 1) ≠ some 1 ∧
    destReg (.idxDst 2 0xFFFFFFFC 1) = none ∧ memAddr (.idxDst 2 0xFFFFFFFC 1) edge = some 0x7FFFC ∧
    destReg (.reg2 13 1) ≠ none := by decide

/-- CMP of equal operands, and of the most negative number with the largest positive one. -/
theorem witness_BranchesAfterCmp :
    let s := State.reset.setReg 3 0x80
    (Instr.cmpRegImm .byte 3 0x7F).view = .two .cmp .byte (.regImm 3 0x7F) ∧
    destValue .byte (.regImm 3 0x7F) (preDecrement .byte (.regImm 3 0x7F) s) = .ok 0x80 ∧
    sourceValue .byte (.regImm 3 0x7F) (preDecrement .byte (.regImm 3 0x7F) s) = .ok 0x7F ∧
    (match exec (.cmpRegImm .byte 3 0x7F) s with | .next t => t.flags | _ => s.flags) =
      { s.flags with v := true } ∧
    (match exec (.cmpRegImm .byte 3 0x80) s with | .next t => t.flags | _ => s.flags) =
      { s.flags with z := true } := by decide

/-- For the two frames: CMP, a register destination, a memory destination; register 0 is none of the excepted ones. -/
theorem witness_TwoOperandFrames :
    edge.Inv ∧ (0 : Reg) ≠ pcReg ∧ destReg (.indDst ⟨false, true⟩ 1 3) ≠ some 0 ∧
    adjustedBase (.indDst ⟨false, true⟩ 1 3) = some (⟨false, true⟩, 1) ∧ (0 : Reg) ≠ sideReg ∧
    destReg (.reg2 1 2) ≠ none ∧
    memAddr (.indDst ⟨false, true⟩ 1 3) (preDecrement .dword (.indDst ⟨false, true⟩ 1 3) edge) = some 0x7FFFC ∧
    look (exec (.addIndDst .dword ⟨false, true⟩ 1 3) edge) [1] [] = some ([0x80000], 1, []) ∧
    look (exec (.cmpReg2 .dword 1 1) edge) [1] [] = some ([0x7FFFC], 1, []) := by decide

/-- The first address whose access leaves the bank. -/
theorem witness_OperandOutsideTheBank :
    (Instr.addIdxDst .dword 1 1 3).view = .two .add .dword (.idxDst 1 1 3) ∧
    memAddr (.idxDst 1 1 3) (preDecrement .dword (.idxDst 1 1 3) edge) = some 0x7FFFD ∧
    ¬ edge.accessible 0x7FFFD 4 := by decide

/-- The operand of `reg2` lies inside the bank by `witness_operandInBank`. -/
theorem witness_DivByZero :
    (Instr.divReg2 .dword 1 3).view = .two .div .dword (.reg2 1 3) ∧
    sourceValue .dword (.reg2 1 3) (preDecrement .dword (.reg2 1 3) edge) = .ok 0 := by decide

/-- The first and the last stack pointer at which a push fits, and the neighbours at which it does not: for PUSH, JSR,
`PushThenPopMovesTheLowPart` and `JsrThenRtsReturns`. -/
theorem witness_push_bounds :
    (State.reset.setSp 4).accessible ((State.reset.setSp 4).sp - BitVec.ofNat 32 4) 4 ∧
    (State.reset.setSp 0x80000).accessible ((State.reset.setSp 0x80000).sp - 4) 4 ∧
    ¬ (State.reset.setSp 3).accessible ((State.reset.setSp 3).sp - BitVec.ofNat 32 4) 4 ∧
    ¬ (State.reset.setSp 0x80001).accessible ((State.reset.setSp 0x80001).sp - 4) 4 := by decide

/-- The first and the last stack pointer at which a pop fits, and a neighbour at which it does not: for POP and RTS. -/
theorem witness_pop_bounds :
    (State.reset.setSp 0).accessible (State.reset.setSp 0).sp 4 ∧
    (State.reset.setSp 0x7FFFC).accessible (State.reset.setSp 0x7FFFC).sp 4 ∧
    ¬ (State.reset.setSp 0x7FFFD).accessible (State.reset.setSp 0x7FFFD).sp 4 := by decide

/-- The smallest stack pointer for PUSHA at each width, and the largest for POPA. -/
theorem witness_PushaAndPopa :
    State.reset.Inv ∧
    (∀ k, k < 14 → (State.reset.setSp 56).accessible ((State.reset.setSp 56).sp - BitVec.ofNat 32 (4 * (k + 1))) 4) ∧
    (∀ k, k < 14 → (State.reset.setSp 14).accessible ((State.reset.setSp 14).sp - BitVec.ofNat 32 (1 * (k + 1))) 1) ∧
    (∀ k, k < 14 → (State.reset.setSp 0x7FFC8).accessible
      ((State.reset.setSp 0x7FFC8).sp + BitVec.ofNat 32 (4 * k)) 4) := by decide

/-- The first of the fourteen accesses outside the bank is number 0, and number 13, the last: one register short. -/
theorem witness_PushaAndPopaOutside :
    ¬ (State.reset.setSp 3).accessible ((State.reset.setSp 3).sp - BitVec.ofNat 32 (4 * (0 + 1))) 4 ∧
    (∀ j, j < 13 → (State.reset.setSp 55).accessible
      ((State.reset.setSp 55).sp - BitVec.ofNat 32 (4 * (j + 1))) 4) ∧
    ¬ (State.reset.setSp 55).accessible ((State.reset.setSp 55).sp - BitVec.ofNat 32 (4 * (13 + 1))) 4 ∧
    ¬ (State.reset.setSp 0x7FFFD).accessible ((State.reset.setSp 0x7FFFD).sp + BitVec.ofNat 32 (4 * 0)) 4 ∧
    (∀ j, j < 13 → (State.reset.setSp 0x7FFC9).accessible
      ((State.reset.setSp 0x7FFC9).sp + BitVec.ofNat 32 (4 * j)) 4) ∧
    ¬ (State.reset.setSp 0x7FFC9).accessible ((State.reset.setSp 0x7FFC9).sp + BitVec.ofNat 32 (4 * 13)) 4 := by decide

/-- The smallest and the largest stack pointer for a frame, and with the whole address space as bank the one whose frame
wraps: for BRK, the interrupts and their returns. -/
theorem witness_frameInBank :
    frameInBank (State.reset.setSp 5) ∧ frameInBank (State.reset.setSp 0x80000) ∧
    frameInBank ((State.powerOn (2 ^ 32)).setSp 1) ∧ State.reset.flags.i = false ∧
    (State.powerOn (2 ^ 32)).Inv := by decide

/-- RTI at the last place that holds five bytes, at the last that holds four, and beyond. -/
theorem witness_RtiRestoresPcAndFlags :
    (State.reset.setSp 0x7FFFB).accessible (State.reset.setSp 0x7FFFB).sp 4 ∧
    (State.reset.setSp 0x7FFFB).accessible ((State.reset.setSp 0x7FFFB).sp + 4) 1 ∧
    (State.reset.setSp 0x7FFFC).accessible (State.reset.setSp 0x7FFFC).sp 4 ∧
    ¬ (State.reset.setSp 0x7FFFC).accessible ((State.reset.setSp 0x7FFFC).sp + 4) 1 ∧
    ¬ (State.reset.setSp 0x7FFFD).accessible (State.reset.setSp 0x7FFFD).sp 4 := by decide

/-- The first push fails at `sp = 0`; the second alone fails at `sp = 1` to `4`. -/
theorem witness_FrameOutsideTheBank :
    State.reset.flags.i = false ∧ ¬ (State.reset.setSp 0).accessible ((State.reset.setSp 0).sp - 1) 1 ∧
    (State.reset.setSp 1).accessible ((State.reset.setSp 1).sp - 1) 1 ∧
    ¬ (State.reset.setSp 1).accessible ((State.reset.setSp 1).sp - 5) 4 ∧
    (State.reset.setSp 4).accessible ((State.reset.setSp 4).sp - 1) 1 ∧
    ¬ (State.reset.setSp 4).accessible ((State.reset.setSp 4).sp - 5) 4 := by decide

/-- No callback; a callback; a SYS at `pc`. -/
theorem witness_SysLeavesAllButMemory :
    State.reset.callback = none ∧ (registerCallback 7 State.reset).Inv ∧
    (start 0x200 [0x0F, 0x1C, 0x34, 0x12, 0x00, 0x80, 0x00, 0x00] [] 0 []).asleep = false ∧
    fetch (start 0x200 [0x0F, 0x1C, 0x34, 0x12, 0x00, 0x80, 0x00, 0x00] [] 0 []) =
      .ok (.sys 0x1234 0x8000, 0x208) := by decide

/-- An exception of each kind; also for the cost clause of `TakingAnExceptionLoadsThePcAlone`. -/
theorem witness_FaultingTick :
    (start 0x200 [0xFF, 0xFF] [] 0 []).Inv ∧
    tickException (start 0x200 [0xFF, 0xFF] [] 0 []) = some .invalidInstruction ∧
    tickException (start 0x7FFFF [0x00] [] 0 []) = some (.invalidAddress 0x7FFFF) ∧
    tickException (start 0x200 [0x04, 0x0A, 0x01] [] 0 []) = some .divisionByZero := by decide

theorem witness_MaskedIrqOnlyWakes :
    (State.reset.withFlags { State.reset.flags with i := true }).flags.i = true := by decide

theorem witness_AsleepTick : (State.reset.withAsleep true).asleep = true := by decide

/-- The default table has no cost below 1, and a tick that completes NOP. -/
theorem witness_TickCosts :
    (∀ m ∈ addrModes, 1 ≤ Config.defaultCycles m) ∧
    (start 0x200 [0x00, 0x1F] [] 0 []).asleep = false ∧
    fetch (start 0x200 [0x00, 0x1F] [] 0 []) = .ok (.nop, 0x202) ∧
    tickException (start 0x200 [0x00, 0x1F] [] 0 []) = none := by decide

end Sys2Proof.Tests
end

section
/-! PROOFS. The statement of spec/20_memory.md about `MemRead` (R53). -/

namespace Sys2Proof.Machine

/-! ## A little-endian read in terms of its bytes (R52) -/

/-- A read of `n + k` bytes has the first `n` as its low part and the next `k` above them. -/
theorem readLe_add (m : Memory) (n k : Nat) :
    ∀ a, m.readLe (n + k) a = m.readLe n a + m.readLe k (a + n) * 2 ^ (8 * n) := by
  induction n with
  | zero => intro a; simp [Memory.readLe]
  | succ n ih =>
    intro a
    have hpow : 2 ^ (8 * (n + 1)) = 256 * 2 ^ (8 * n) := by rw [Nat.mul_succ, Nat.pow_add, Nat.mul_comm]
    have haddr : a + 1 + n = a + (n + 1) := by omega
    rw [Nat.succ_add, Memory.readLe, Memory.readLe, ih, haddr, hpow, Nat.mul_add, Nat.add_assoc,
      Nat.mul_left_comm]

theorem readLe_one (m : Memory) (a : Nat) : m.readLe 1 a = (m.byte a).toNat := by
  simp [Memory.readLe]

theorem readLe_two (m : Memory) (a : Nat) :
    m.readLe 2 a = (m.byte a).toNat + (m.byte (a + 1)).toNat * 2 ^ 8 := by
  rw [readLe_add m 1 1, readLe_one, readLe_one]

theorem readLe_four (m : Memory) (a : Nat) :
    m.readLe 4 a = (m.byte a).toNat + (m.byte (a + 1)).toNat * 2 ^ 8 +
      (m.byte (a + 2)).toNat * 2 ^ 16 + (m.byte (a + 3)).toNat * 2 ^ 24 := by
  have haddr : a + 2 + 1 = a + 3 := rfl
  rw [readLe_add m 2 2, readLe_two, readLe_two, haddr]
  omega

/-! ## The host's port -/

/-- A read through the port leaves the state as it is, failing or not (R53, R352). -/
@[simp] theorem applyEvent_portRead (w : Width) (a : Word) (s : State) :
    applyEvent (.portRead w a) s = .next s := rfl

/-- Settles O14: the port's check decides between fault and value, and the value is split into its bytes. -/
theorem readChecksTheBankAndIsLittleEndian : Obligations.ReadChecksTheBankAndIsLittleEndian := by
  intro m a
  refine ⟨fun n hout => read_error hout, fun hin => ?oneByte, fun hin => ?twoBytes, fun hin => ?fourBytes,
    fun w s => applyEvent_portRead w a s⟩
  case oneByte => rw [read_ok hin, readLe_one]
  case twoBytes => rw [read_ok hin, readLe_two]
  case fourBytes => rw [read_ok hin, readLe_four]

end Sys2Proof.Machine
end

section
/-! PROOFS. The statement of spec/30_encoding.md about the illegal words (R92): the decoder's checks are the table of
R90 (R82, R83, R85), and no part of a tick but those checks raises `InvalidInstruction` (R311). -/

namespace Sys2Proof

/-! ## The legal pairs of the decoder (R90) -/

/-- The addressing modes an operation is legal with: those of its handler class, and for PUSH the constant too (R90,
R120). -/
def Operation.takes : Operation → AddrMode → Bool
  | .alu _, m => (TwoMode.ofMode m).isSome
  | .reg1 op, m => decide (m = .reg1 ∨ op = .push ∧ m = .constImm)
  | .implied _, m => decide (m = .implied)
  | .branch _, m => decide (m = .relative)
  | .direct _, m => decide (m = .direct)
  | .sys, m => decide (m = .direct)

/-- Width and adjustments play no part in legality: a pair has a layout exactly when the operation takes the mode. -/
theorem isSome_layoutOf (o : Operation) (m : AddrMode) (w : Width) (adj : Adjust) :
    (layoutOf o m w adj).isSome = o.takes m := by
  cases o with
  | alu op => exact Option.isSome_map
  | reg1 op => cases op <;> cases m <;> rfl
  | implied op => cases m <;> rfl
  | branch cond => cases m <;> rfl
  | direct op => cases m <;> rfl
  | sys => cases m <;> rfl

/-- The decoder's tables of opcodes and modes list the pairs of R90; an opcode from 0x33 on has none. -/
theorem legalPair_eq_takes : ∀ (op : BitVec 6) (am : BitVec 4),
    Machine.legalPair op.toNat am.toNat =
      (Operation.ofCode op.toNat).any fun o => o.takes (AddrMode.ofCode am.toNat) := by decide

/-- Every width selector but 3 names a width (R83). -/
theorem widthOfCode_eq_none_iff : ∀ sz : BitVec 2, Width.ofCode sz.toNat = none ↔ sz = 3 := by decide

/-! ## The checks on a word (R92, R94) -/

/-- A word is either accepted and legal, or rejected by one of the three legality checks and illegal. -/
theorem decodeWord_cases (iw : BitVec 16) :
    (∃ l, decodeWord iw = .ok l ∧ ¬ Machine.illegalWord iw) ∨
    (∃ e, decodeWord iw = .error e ∧ Machine.illegalWord iw ∧
      ∀ pc, Machine.decodeExn pc e = .invalidInstruction) := by
  unfold decodeWord Machine.illegalWord
  rw [legalPair_eq_takes, ← widthOfCode_eq_none_iff]
  cases hw : Width.ofCode (iw.extractLsb' 14 2).toNat with
  | none => exact .inr ⟨.reservedWidth, rfl, .inl rfl, fun _ => rfl⟩
  | some w =>
    cases ho : Operation.ofCode (iw.extractLsb' 8 6).toNat with
    | none => exact .inr ⟨.undefinedOpcode, by simp only [ho], .inr rfl, fun _ => rfl⟩
    | some o =>
      have hpair := isSome_layoutOf o (AddrMode.ofCode (iw.extractLsb' 0 4).toNat) w
        { pre := iw.getLsbD 5, post := iw.getLsbD 4 }
      rw [Option.any_some, ← hpair]
      cases hl : layoutOf o (AddrMode.ofCode (iw.extractLsb' 0 4).toNat) w
          { pre := iw.getLsbD 5, post := iw.getLsbD 4 } with
      | none => exact .inr ⟨.illegalPair, by simp only [ho, hl], .inr rfl, fun _ => rfl⟩
      | some l => exact .inl ⟨l, by simp only [ho, hl], by simp⟩

/-- The decoder accepts exactly the words that are not illegal (R92). -/
theorem decodeWord_ok_iff (iw : BitVec 16) : (∃ l, decodeWord iw = .ok l) ↔ ¬ Machine.illegalWord iw := by
  rcases decodeWord_cases iw with ⟨l, hl, hlegal⟩ | ⟨e, he, hill, _⟩
  · exact iff_of_true ⟨l, hl⟩ hlegal
  · exact iff_of_false (fun ⟨l, hl⟩ => nomatch he.symm.trans hl) (fun h => h hill)

end Sys2Proof

namespace Sys2Proof.Machine

/-! ## What raises `InvalidInstruction`: no access to the bank, no instruction's work (R311, R312, R314) -/

theorem read_ne_invalidInstruction (m : Memory) (n : Nat) (a : Word) :
    m.read n a ≠ .error .invalidInstruction := by
  rcases read_cases m n a with ⟨_, h⟩ | ⟨_, h⟩ <;> simp [h]

theorem fetchGroups_ne_invalidInstruction (m : Memory) (ns : List Nat) :
    ∀ a, fetchGroups m ns a ≠ .error .invalidInstruction := by
  induction ns with
  | nil => intro a h; cases h
  | cons n ns ih =>
    intro a h
    rw [fetchGroups] at h
    split at h
    · next e he => injection h with h; exact read_ne_invalidInstruction m n a (h ▸ he)
    · split at h
      · next e he => injection h with h; exact ih _ (h ▸ he)
      · cases h

theorem loadAt_ne_invalidInstruction (w : Width) (a : Word) (s : State) :
    loadAt w a s ≠ .error .invalidInstruction := by
  by_cases h : s.accessible a w.bytes
  · simp [loadAt_ok h]
  · simp [loadAt_error h]

theorem sourceValue_ne_invalidInstruction (w : Width) (f : TwoForm) (s : State) :
    sourceValue w f s ≠ .error .invalidInstruction := by
  cases f with
  | absSrc | indSrc | idxSrc => exact loadAt_ne_invalidInstruction w _ s
  | _ => exact nofun

theorem oldValue_ne_invalidInstruction (op : AluOp) (w : Width) (f : TwoForm) (s : State) :
    oldValue op w f s ≠ .error .invalidInstruction := by
  unfold oldValue
  split
  · exact nofun
  · cases hd : destReg f with
    | some ra => simp [destValue_reg hd]
    | none =>
      obtain ⟨ea, hm⟩ := memAddr_of_dest s hd
      rw [destValue_mem hd hm]
      exact loadAt_ne_invalidInstruction w ea s

theorem alu_ne_invalidInstruction (op : AluOp) {W : Nat} (a b : BitVec W) (f : Flags) :
    alu op a b f ≠ .error .invalidInstruction := by
  intro h
  obtain ⟨_, _, he⟩ := alu_error h
  cases he

theorem storeResult_ne_invalidInstruction (op : AluOp) (w : Width) (f : TwoForm) (r : BitVec w.bits) (s : State) :
    storeResult op w f r s ≠ .error .invalidInstruction := by
  rcases storeResult_cases op w f r s with ⟨h, _⟩ | ⟨_, _, _, _, h⟩ <;> simp [h]

/-- This work of an instruction does not raise `InvalidInstruction`. -/
def Micro.NotInvalid (m : Micro) : Prop := ∀ t, m ≠ .raised .invalidInstruction t

theorem notInvalid_done (s : State) : (Micro.done s).NotInvalid := nofun

theorem Micro.NotInvalid.andThen {m : Micro} {k : State → Micro} (h : m.NotInvalid) (hk : ∀ s, (k s).NotInvalid) :
    (m.andThen k).NotInvalid := by
  cases m with
  | done s => exact hk s
  | raised e s => exact h

theorem notInvalid_push (n v : Nat) (s : State) : (push n v s).NotInvalid := by
  rcases push_cases n v s with ⟨_, h⟩ | ⟨_, h⟩ <;> rw [h] <;> exact nofun

theorem notInvalid_popReg (w : Width) (ra : Reg) (s : State) : (popReg w ra s).NotInvalid := by
  rcases popReg_cases w ra s with ⟨_, h⟩ | ⟨_, h⟩ <;> rw [h] <;> exact nofun

theorem notInvalid_pushRegs (w : Width) (l : List Reg) : ∀ s, (pushRegs w l s).NotInvalid := by
  induction l with
  | nil => exact notInvalid_done
  | cons r l ih => exact fun s => (notInvalid_push _ _ s).andThen ih

theorem notInvalid_popRegs (w : Width) (l : List Reg) : ∀ s, (popRegs w l s).NotInvalid := by
  induction l with
  | nil => exact notInvalid_done
  | cons r l ih => exact fun s => (notInvalid_popReg w r s).andThen ih

theorem notInvalid_ret (s : State) : (ret s).NotInvalid := by
  unfold ret
  rcases pop_cases 4 s with ⟨_, h⟩ | ⟨_, h⟩ <;> rw [h] <;> exact nofun

theorem notInvalid_loadVector (a : Word) (s : State) : (loadVector a s).NotInvalid := by
  unfold loadVector State.load
  rcases read_cases s.mem 4 a with ⟨_, h⟩ | ⟨_, h⟩ <;> rw [h] <;> exact nofun

theorem notInvalid_softwareInterrupt (s : State) : (softwareInterrupt s).NotInvalid :=
  ((notInvalid_push _ _ s).andThen fun _ => notInvalid_push _ _ _).andThen fun _ => notInvalid_loadVector _ _

theorem notInvalid_leaveInterrupt (s : State) : (leaveInterrupt s).NotInvalid := by
  rcases leaveInterrupt_cases s with ⟨_, h⟩ | ⟨_, _, h⟩ | ⟨_, _, h⟩ <;> rw [h] <;> exact nofun

/-- Each of the four steps of R122 that can fail fails with another exception. -/
theorem notInvalid_twoOperand (op : AluOp) (w : Width) (f : TwoForm) (s : State) :
    (twoOperand op w f s).NotInvalid := by
  intro t h
  unfold twoOperand at h
  simp only [] at h
  split at h
  · next e he => injection h with h; exact sourceValue_ne_invalidInstruction _ _ _ (h ▸ he)
  split at h
  · next e he => injection h with h; exact oldValue_ne_invalidInstruction _ _ _ _ (h ▸ he)
  split at h
  · next e he => injection h with h; exact alu_ne_invalidInstruction _ _ _ _ (h ▸ he)
  split at h
  · next e he => injection h with h; exact storeResult_ne_invalidInstruction _ _ _ _ _ (h ▸ he)
  · cases h

/-- No instruction raises `InvalidInstruction`, whatever it does (R311). -/
theorem notInvalid_viewMicro (v : View) (s : State) : (viewMicro v s).NotInvalid := by
  cases v with
  | two op w f => exact notInvalid_twoOperand op w f s
  | reg1 op w ra =>
    cases op with
    | push => exact notInvalid_push _ _ s
    | pop => exact notInvalid_popReg w ra s
    | _ => exact notInvalid_done _
  | pushConst w c => exact notInvalid_push _ _ s
  | implied op w =>
    cases op with
    | pusha => exact notInvalid_pushRegs w _ s
    | popa => exact notInvalid_popRegs w _ s
    | rts => exact notInvalid_ret s
    | brk => exact notInvalid_softwareInterrupt s
    | rti => exact notInvalid_leaveInterrupt s
    | _ => exact notInvalid_done _
  | branch cond w disp => exact notInvalid_done _
  | direct op addr =>
    cases op with
    | jmp => exact notInvalid_done _
    | jsr => exact (notInvalid_push _ _ s).andThen fun _ => notInvalid_done _
  | sys id addr =>
    obtain ⟨m, n, h, _⟩ := systemCall_cases id addr s
    show (systemCall id addr s).NotInvalid
    rw [h]
    exact notInvalid_done _

/-! ## The fetch behind a word that lies in the bank (R94) -/

/-- The word's group is fetched, `pc` past it. -/
theorem fetchGroups_word {s : State} (h : s.accessible s.pc 2) :
    fetchGroups s.mem [2] s.pc = .ok ([s.mem.readLe 2 s.pc.toNat], s.pc + BitVec.ofNat 32 2) := by
  simp only [fetchGroups, read_ok h]

/-- A rejected word ends the fetch, before any operand byte is read. -/
theorem fetch_of_decodeWord_error {s : State} {e : DecodeError} (h : s.accessible s.pc 2)
    (he : decodeWord (wordAtPc s) = .error e) : fetch s = .error (decodeExn s.pc e) := by
  rw [wordAtPc] at he
  simp only [fetch, fetchGroups_word h, List.getD_cons_zero, he]

/-- Behind an accepted word the fetch can only leave the bank. -/
theorem fetch_ne_invalidInstruction {s : State} {l : Layout} (h : s.accessible s.pc 2)
    (hl : decodeWord (wordAtPc s) = .ok l) : fetch s ≠ .error .invalidInstruction := by
  rw [wordAtPc] at hl
  simp only [fetch, fetchGroups_word h, List.getD_cons_zero, hl]
  intro hf
  split at hf
  · next e he => injection hf with hf; exact fetchGroups_ne_invalidInstruction _ _ _ (hf ▸ he)
  · cases hf

/-- An awake tick raises `InvalidInstruction` exactly when its fetch does (R311). -/
theorem tickException_eq_invalidInstruction_iff {s : State} (ha : s.asleep = false) :
    tickException s = some .invalidInstruction ↔ fetch s = .error .invalidInstruction := by
  unfold tickException
  rw [if_neg (by simp [ha])]
  cases hf : fetch s with
  | error e => simp
  | ok p =>
    obtain ⟨i, pc⟩ := p
    have hwork := notInvalid_viewMicro i.view (s.setPc pc)
    cases hm : viewMicro i.view (s.setPc pc) with
    | done t => simp [hm]
    | raised e t =>
      have hne : e ≠ .invalidInstruction := fun h => hwork t (h ▸ hm)
      simp [hm, hne]

/-- Settles O3: the decoder's checks are the table's, and they alone raise `InvalidInstruction`. -/
theorem exactlyTheUnlistedWordsAreInvalid : Obligations.ExactlyTheUnlistedWordsAreInvalid := by
  refine ⟨decodeWord_ok_iff, fun s hawake hword => ?_⟩
  rw [tickException_eq_invalidInstruction_iff hawake]
  rcases decodeWord_cases (wordAtPc s) with ⟨l, hl, hlegal⟩ | ⟨e, he, hill, hexn⟩
  · exact iff_of_false (fetch_ne_invalidInstruction hword hl) hlegal
  · exact iff_of_true (by rw [fetch_of_decodeWord_error hword he, hexn]) hill

end Sys2Proof.Machine
end

section
/-! PROOFS. The statement of spec/43_logic_shift_rotate.md about the shifts and rotates (R214 to R218). -/

namespace Sys2Proof.Machine

/-- A two-operand instruction whose ALU outcome is a bare result lands it with Z and N from it, the other flags kept and
no side value (R122, R210). -/
theorem exec_of_alu_eq_logicOut {i : Instr} {op : AluOp} {w : Width} {f : TwoForm} {s : State} {a b r : BitVec w.bits}
    (hview : i.view = .two op w f) (ha : destValue w f (preDecrement w f s) = .ok a)
    (hb : sourceValue w f (preDecrement w f s) = .ok b) (hop : op ≠ .mov)
    (halu : alu op a b s.flags = .ok (logicOut r s.flags)) :
    exec i s =
      .next (afterAlu op w f { r := r, flags := withNZ s.flags r, side := none } (preDecrement w f s)) := by
  rw [exec_two hview, twoOperand_ok ha hb halu hop, complete_done, logicOut, setNZ_eq]

/-- Settles O24: the ALU's exact double-width forms of the shifts and rotates are the bit-vector operations at the amount
modulo the width. -/
theorem shiftsAndRotatesReduceTheAmount : Obligations.ShiftsAndRotatesReduceTheAmount := by
  intro i op w f s a b r hop hview ha hb
  rcases hop with ⟨rfl, rfl⟩ | ⟨rfl, rfl⟩ | ⟨rfl, rfl⟩ | ⟨rfl, rfl⟩
  · exact exec_of_alu_eq_logicOut hview ha hb nofun (by rw [alu, shlValue_eq])
  · exact exec_of_alu_eq_logicOut hview ha hb nofun (by rw [alu, shrValue_eq])
  · exact exec_of_alu_eq_logicOut hview ha hb nofun (by rw [alu, rolValue_eq])
  · exact exec_of_alu_eq_logicOut hview ha hb nofun (by rw [alu, rorValue_eq])

end Sys2Proof.Machine
end

section
/-! PROOFS. Two statements of spec/60_exceptions.md: the fault redirect (R313), and an interrupt entry or a BRK whose
frame leaves the bank (R326). -/

namespace Sys2Proof.Machine

/-! ## The fault redirect and its cost (R313) -/

/-- The raising ends of a tick, a failed fetch and raising work, are those that cost 1 (R370). -/
theorem tickCost_of_tickException (cycles : AddrMode → Nat) {s : State} {e : Exn} (h : tickException s = some e) :
    tickCost cycles s = 1 := by
  unfold tickException at h
  unfold tickCost
  cases ha : s.asleep with
  | true => simp [ha] at h
  | false =>
    rw [ha, if_neg Bool.false_ne_true] at h
    rw [if_neg Bool.false_ne_true]
    cases hf : fetch s with
    | error e' => rfl
    | ok p =>
      obtain ⟨i, pc⟩ := p
      cases hm : viewMicro i.view (s.setPc pc) with
      | done t => simp [hf, hm] at h
      | raised e' t => simp [hm]

/-- Settles O52: a bank in canonical form holds the three fault slots. -/
theorem takingAnExceptionLoadsThePcAlone : Obligations.TakingAnExceptionLoadsThePcAlone := by
  intro s a hinv
  exact ⟨takeException_eq hinv .invalidInstruction, takeException_eq hinv (.invalidAddress a),
    takeException_eq hinv .divisionByZero, fun _ cycles he => tickCost_of_tickException cycles he⟩

/-! ## A frame that leaves the bank (R284, R315) -/

/-- The flags byte does not fit: nothing is stored, `sp` stays decremented by 1 (R230). -/
theorem pushFrame_flags_outside {s : State} (h : ¬ s.accessible (s.sp - 1) 1) :
    pushFrame s = .raised (.invalidAddress (s.sp - 1)) (s.setSp (s.sp - 1)) := by
  have hflags : push 1 s.flags.toByte.toNat s = .raised (.invalidAddress (s.sp - 1)) (s.setSp (s.sp - 1)) :=
    push_error _ h
  rw [pushFrame, hflags, andThen_raised]

/-- The flags byte fits and the return address does not: the byte is stored, `sp` stays decremented by 5 (R230). -/
theorem pushFrame_pc_outside {s : State} (hflags : s.accessible (s.sp - 1) 1) (hpc : ¬ s.accessible (s.sp - 5) 4) :
    pushFrame s = .raised (.invalidAddress (s.sp - 5))
      ((s.setSp (s.sp - 5)).stored 1 (s.sp - 1) s.flags.toByte.toNat) := by
  have hstored : push 1 s.flags.toByte.toNat s =
      .done ((s.setSp (s.sp - 1)).stored 1 (s.sp - 1) s.flags.toByte.toNat) := push_ok _ hflags
  rw [pushFrame, hstored, andThen_done]
  generalize ht : (s.setSp (s.sp - 1)).stored 1 (s.sp - 1) s.flags.toByte.toNat = t
  have hsp : t.sp - BitVec.ofNat 32 4 = s.sp - 5 := by
    subst ht
    rw [State.stored, sp_withMem, sp_setSp, BitVec.sub_sub]
    rfl
  have hcap : t.mem.cap = s.mem.cap := by
    subst ht
    exact cap_writeLe _ _ _ _
  have hset : t.setSp (s.sp - 5) = (s.setSp (s.sp - 5)).stored 1 (s.sp - 1) s.flags.toByte.toNat := by
    subst ht
    simp [State.stored, State.setSp]
  rw [push_error _ (by rw [hsp, State.accessible, hcap]; exact hpc), hsp, hset]

/-! ## Entries whose frame leaves the bank (R280, R326) -/

/-- An interrupt that is not masked takes the exception its frame raises, the latch cleared before. -/
theorem interruptRaised_of_pushFrame_raised {s t : State} {nmi : Bool} {e : Exn}
    (hentry : nmi = true ∨ s.flags.i = false) (h : pushFrame (s.withAsleep false) = .raised e t) :
    interruptRaised nmi s = takeException e t := by
  have hunmasked : (!nmi && s.flags.i) ≠ true := by
    rcases hentry with rfl | hi
    · exact Bool.false_ne_true
    · simp [hi]
  rw [interruptRaised, flags_withAsleep, if_neg hunmasked, h, andThen_raised, complete_raised]

/-- BRK takes the exception its frame raises, before it sets Break. -/
theorem exec_brk_of_pushFrame_raised {s t : State} {e : Exn} (h : pushFrame s = .raised e t) :
    exec .brk s = takeException e t := by
  have hexec : exec .brk s = complete (softwareInterrupt s) := exec_eq .brk s
  rw [hexec, softwareInterrupt, h, andThen_raised, complete_raised]

/-- Settles O57: both entries take what the frame raises at the push that fails. -/
theorem frameOutsideTheBankTakesInvalidAddress : Obligations.FrameOutsideTheBankTakesInvalidAddress := by
  intro s nmi hentry
  refine ⟨fun hflags => ⟨?entry, ?brk⟩, fun hflags hpc => ⟨?entryPc, ?brkPc⟩⟩
  case entry =>
    exact interruptRaised_of_pushFrame_raised hentry (pushFrame_flags_outside (s := s.withAsleep false) hflags)
  case brk => exact exec_brk_of_pushFrame_raised (pushFrame_flags_outside hflags)
  case entryPc =>
    exact interruptRaised_of_pushFrame_raised hentry (pushFrame_pc_outside (s := s.withAsleep false) hflags hpc)
  case brkPc => exact exec_brk_of_pushFrame_raised (pushFrame_pc_outside hflags hpc)

end Sys2Proof.Machine
end

section
/-! PROOFS. The statement of spec/70_reset_and_hazards.md about a tick while asleep (R361). -/

namespace Sys2Proof.Machine

/-- The sleep latch is tested before the fetch, so `pc` is not read (R361). -/
theorem step_of_asleep {s : State} (h : s.asleep = true) : step s = .next s := by
  rw [step, if_pos h]

/-- An asleep tick does not consult the table of costs (R361, R370). -/
theorem tickCost_of_asleep (cycles : AddrMode → Nat) {s : State} (h : s.asleep = true) : tickCost cycles s = 1 := by
  rw [tickCost, if_pos h]

/-- Settles O59: the state and the cost of a tick both branch on the sleep latch first. -/
theorem asleepTickChangesNothing : Obligations.AsleepTickChangesNothing := by
  intro s cycles hasleep
  exact ⟨step_of_asleep hasleep, tickCost_of_asleep cycles hasleep⟩

end Sys2Proof.Machine
end

section
/-! PROOFS. The statements of spec/30_encoding.md about the encoder: the decoder inverts it (R82 to R90), and its
lengths are those of the table of R89. -/

namespace Sys2Proof

/-! ## The code tables are inverted by their decoders (R83, R85, R90) -/

theorem ofCode_code_addrMode (m : AddrMode) : AddrMode.ofCode m.code = m := by cases m <;> rfl

theorem ofCode_code_operation (o : Operation) : Operation.ofCode o.code = some o := by
  cases o with
  | alu op => cases op <;> rfl
  | reg1 op => cases op <;> rfl
  | implied op => cases op <;> rfl
  | branch cond => cases cond <;> rfl
  | direct op => cases op <;> rfl
  | sys => rfl

theorem ofCode_code_width (w : Width) : Width.ofCode w.code = some w := by cases w <;> rfl

theorem ofMode_mode (m : TwoMode) : TwoMode.ofMode m.mode = some m := by cases m <;> rfl

theorem code_addrMode_lt (m : AddrMode) : m.code < 16 := by cases m <;> decide

theorem code_width_lt (w : Width) : w.code < 4 := by cases w <;> decide

theorem code_operation_lt (o : Operation) : o.code < 64 := by
  have hlt : o.code < operations.length := (List.getElem?_eq_some_iff.mp (ofCode_code_operation o)).1
  exact Nat.lt_trans hlt (by decide)

/-! ## The fields of the instruction word (R82) -/

/-- A bit field of a 16-bit word is the quotient by the weight of its low end, modulo its size. -/
theorem toNat_extractLsb'_ofNat (x lo len : Nat) (h : x < 2 ^ 16) :
    ((BitVec.ofNat 16 x).extractLsb' lo len).toNat = x / 2 ^ lo % 2 ^ len := by
  rw [BitVec.extractLsb'_toNat, BitVec.toNat_ofNat, Nat.mod_eq_of_lt h, Nat.shiftRight_eq_div_pow]

theorem getLsbD_ofNat_word (x k : Nat) (hk : k < 16) :
    (BitVec.ofNat 16 x).getLsbD k = decide (x / 2 ^ k % 2 = 1) := by
  rw [BitVec.getLsbD_ofNat, Nat.testBit_eq_decide_div_mod_eq]
  simp [hk]

theorem wordOf_lt (m : AddrMode) (adj : Adjust) (o : Operation) (w : Width) : wordOf m adj o w < 2 ^ 16 := by
  have hm := code_addrMode_lt m
  have ho := code_operation_lt o
  have hw := code_width_lt w
  have hpre := Bool.toNat_le adj.pre
  have hpost := Bool.toNat_le adj.post
  unfold wordOf
  omega

theorem word_lt (i : Instr) : i.word < 2 ^ 16 := wordOf_lt _ _ _ _

/-- The decoder reads from a word the fields it was made from. -/
theorem wordOf_fields (m : AddrMode) (adj : Adjust) (o : Operation) (w : Width) :
    ((BitVec.ofNat 16 (wordOf m adj o w)).extractLsb' 0 4).toNat = m.code ∧
    ((BitVec.ofNat 16 (wordOf m adj o w)).extractLsb' 8 6).toNat = o.code ∧
    ((BitVec.ofNat 16 (wordOf m adj o w)).extractLsb' 14 2).toNat = w.code ∧
    (BitVec.ofNat 16 (wordOf m adj o w)).getLsbD 5 = adj.pre ∧
    (BitVec.ofNat 16 (wordOf m adj o w)).getLsbD 4 = adj.post := by
  have hlt := wordOf_lt m adj o w
  have hm := code_addrMode_lt m
  have ho := code_operation_lt o
  have hw := code_width_lt w
  have hpre := Bool.toNat_le adj.pre
  have hpost := Bool.toNat_le adj.post
  rw [toNat_extractLsb'_ofNat _ _ _ hlt, toNat_extractLsb'_ofNat _ _ _ hlt, toNat_extractLsb'_ofNat _ _ _ hlt,
    getLsbD_ofNat_word _ _ (by decide), getLsbD_ofNat_word _ _ (by decide)]
  unfold wordOf
  refine ⟨by omega, by omega, by omega, ?pre, ?post⟩
  case pre =>
    have hbit : (m.code + 16 * (adj.post.toNat + 2 * adj.pre.toNat) + 256 * o.code + 16384 * w.code) / 2 ^ 5 % 2 =
        adj.pre.toNat := by omega
    rw [hbit]
    cases adj.pre <;> rfl
  case post =>
    have hbit : (m.code + 16 * (adj.post.toNat + 2 * adj.pre.toNat) + 256 * o.code + 16384 * w.code) / 2 ^ 4 % 2 =
        adj.post.toNat := by omega
    rw [hbit]
    cases adj.post <;> rfl

/-! ## What the word of a view decodes to -/

/-- What the instruction word of a view fixes (R82, R87). -/
def View.layout : View → Layout
  | .two op w f => .two op w f.mode f.adjust
  | .reg1 op w _ => .reg1 op w
  | .pushConst w _ => .pushConst w
  | .implied op w => .implied op w
  | .branch cond w _ => .branch cond w
  | .direct op _ => .direct op
  | .sys _ _ => .sys

/-- The legality table has every view (R90). -/
theorem layoutOf_view (v : View) : layoutOf v.operation v.mode v.width v.adjust = some v.layout := by
  cases v with
  | two op w f =>
    show (TwoMode.ofMode f.mode.mode).map _ = _
    rw [ofMode_mode, Option.map_some]
    rfl
  | reg1 op w ra => cases op <;> rfl
  | pushConst w c => rfl
  | implied op w => rfl
  | branch cond w disp => rfl
  | direct op addr => rfl
  | sys id addr => rfl

/-- The encoder's word decodes to the layout of the instruction's view (R82, R92). -/
theorem decodeWord_word (i : Instr) : decodeWord (BitVec.ofNat 16 i.word) = .ok i.view.layout := by
  obtain ⟨hmode, hop, hwidth, hpre, hpost⟩ := wordOf_fields i.view.mode i.view.adjust i.view.operation i.view.width
  have hlayout : layoutOf i.view.operation i.view.mode i.view.width
      { pre := i.view.adjust.pre, post := i.view.adjust.post } = some i.view.layout := layoutOf_view i.view
  unfold decodeWord Instr.word
  simp only [hmode, hop, hwidth, hpre, hpost, ofCode_code_addrMode, ofCode_code_operation, ofCode_code_width, hlayout]

/-! ## The operand groups of a view (R86 to R88) -/

theorem map_fst_groups (v : View) : v.groups.map Prod.fst = v.layout.groups := by
  cases v with
  | two op w f => cases f <;> rfl
  | _ => rfl

/-- The values of the groups give the operands back. -/
theorem layout_instr_groups (v : View) : v.layout.instr (v.groups.map Prod.snd) = v.instr := by
  cases v with
  | two op w f =>
    have hform : f.mode.form f.adjust ((f.groups w).map Prod.snd) = f := by
      cases f <;> simp [TwoForm.mode, TwoMode.form, TwoForm.adjust, TwoForm.groups, selOne, selPair, group,
        selHi_pair, selLo_pair, selLo_val]
    show twoInstr op w (f.mode.form f.adjust ((f.groups w).map Prod.snd)) = twoInstr op w f
    rw [hform]
  | reg1 op w ra => simp [View.layout, View.groups, Layout.instr, View.instr, selOne, selLo_val]
  | pushConst w c => simp [View.layout, View.groups, Layout.instr, View.instr, group]
  | implied op w => rfl
  | branch cond w disp => simp [View.layout, View.groups, Layout.instr, View.instr, group]
  | direct op addr => cases op <;> simp [View.layout, View.groups, Layout.instr, View.instr, group]
  | sys id addr => simp [View.layout, View.groups, Layout.instr, View.instr, group]

theorem fits_iff (w : Width) (v : Word) : w.fits v = true ↔ v.toNat < 256 ^ w.bytes := by
  rw [Machine.pow_bytes, Width.fits, decide_eq_true_eq]

/-- A group whose value has as many bytes as the group has. -/
def groupFits (g : Nat × Nat) : Prop := g.2 < 256 ^ g.1

theorem groupFits_selPair (hi lo : Reg) : groupFits (selPair hi lo) := by
  show 16 * hi.val + lo.val < 256 ^ 1
  omega

theorem groupFits_selOne (lo : Reg) : groupFits (selOne lo) := by
  show lo.val < 256 ^ 1
  omega

theorem groupFits_addr (a : Word) : groupFits (4, a.toNat) := a.isLt

theorem groupFits_form {w : Width} {f : TwoForm} (h : f.wf w = true) : ∀ g ∈ f.groups w, groupFits g := by
  have hconst : ∀ {c : Word}, w.fits c = true → groupFits (w.bytes, c.toNat) := (fits_iff w _).mp
  cases f <;>
    simp only [TwoForm.groups, List.forall_mem_cons, List.not_mem_nil, false_imp_iff, implies_true, and_true,
      groupFits_selPair, groupFits_selOne, groupFits_addr, true_and] <;>
    exact hconst h

/-- The operand groups of a well-formed instruction hold their values (R88). -/
theorem groupFits_view {v : View} (h : v.wf = true) : ∀ g ∈ v.groups, groupFits g := by
  cases v with
  | two op w f => exact groupFits_form h
  | reg1 op w ra => simpa [View.groups] using groupFits_selOne ra
  | pushConst w c => simpa [View.groups, groupFits] using (fits_iff w c).mp h
  | implied op w => simp [View.groups]
  | branch cond w disp => simpa [View.groups, groupFits] using (fits_iff w disp).mp h
  | direct op addr => simpa [View.groups] using groupFits_addr addr
  | sys id addr =>
    have hid : groupFits (2, id.toNat) := id.isLt
    simpa [View.groups] using ⟨hid, groupFits_addr addr⟩

/-- Settles O1: the word decodes to the layout of the view, whose groups are read back, and no two instructions share a
view. -/
theorem decodeOfEncodeGivesTheInstruction : Obligations.DecodeOfEncodeGivesTheInstruction := by
  intro i rest hwf
  have hword : takeGroups [2] 0 (encode i ++ rest) =
      .ok ([i.word], (i.view.groups.flatMap fun g => leBytes g.1 g.2) ++ rest) := by
    have h := takeGroups_flatMap [(2, i.word)] 0 ((i.view.groups.flatMap fun g => leBytes g.1 g.2) ++ rest)
      (by simpa using word_lt i)
    simpa [encode] using h
  have hgroups := takeGroups_flatMap i.view.groups 2 rest (groupFits_view hwf)
  rw [map_fst_groups] at hgroups
  unfold decode
  simp only [hword, List.getD_cons_zero, decodeWord_word, hgroups, layout_instr_groups, view_instr]

/-! ## Lengths (R89) -/

theorem length_flatMap_leBytes (gs : List (Nat × Nat)) :
    (gs.flatMap fun g => leBytes g.1 g.2).length = (gs.map Prod.fst).sum := by
  simp [List.length_flatMap]

/-- An encoding is its word and its operand groups (R81, R87). -/
theorem length_encode (i : Instr) : (encode i).length = 2 + i.view.layout.groups.sum := by
  rw [encode, List.length_append, length_leBytes, length_flatMap_leBytes, map_fst_groups]

/-- Settles O2: the groups of each layout add up to the table's length. -/
theorem encodedLengthIsTheTableLength : Obligations.EncodedLengthIsTheTableLength := by
  intro i
  rw [length_encode]
  cases i.view with
  | two op w f =>
    cases f <;>
      simp [View.layout, Layout.groups, TwoForm.mode, TwoMode.groups, View.mode, TwoMode.mode, View.width] <;> omega
  | _ => rfl

/-- Settles O6: the decoder evaluates to the named instructions on the bytes the spec writes out. -/
theorem writtenOutBytesDecode : Obligations.WrittenOutBytesDecode := by
  unfold Obligations.WrittenOutBytesDecode
  decide

end Sys2Proof
end

section
/-! PROOFS. The statements of spec/30_encoding.md section 4 and spec/70_reset_and_hazards.md about the fetch: what it
decodes is what the decoder reads from the bank (R94, R360), and its exceptions come before any effect (R92, R94). -/

namespace Sys2Proof.Machine

/-! ## A tick is its fetch, then the instruction (R360) -/

theorem step_of_fetch_ok {s : State} {i : Instr} {pc : Word} (ha : s.asleep = false) (h : fetch s = .ok (i, pc)) :
    step s = exec i (s.setPc pc) := by
  rw [step, if_neg (by simp [ha])]
  simp only [h]

theorem step_of_fetch_error {s : State} {e : Exn} (ha : s.asleep = false) (h : fetch s = .error e) :
    step s = takeException e s := by
  rw [step, if_neg (by simp [ha])]
  simp only [h]

/-! ## The decoder on the bytes of the bank (R81, R87) -/

theorem codeBytes_eq (s : State) :
    codeBytes s = bytesAt s.mem s.pc.toNat (min maxLength (s.mem.cap - s.pc.toNat)) := rfl

theorem groups_pos (l : Layout) : ∀ g ∈ l.groups, 0 < g := by
  have hw : ∀ w : Width, 0 < w.bytes := fun w => by cases w <;> decide
  cases l with
  | two op w m adj => cases m <;> simp [Layout.groups, TwoMode.groups, hw]
  | pushConst w => simp [Layout.groups, hw]
  | branch cond w => simp [Layout.groups, hw]
  | _ => simp [Layout.groups]

/-- A decoding is an accepted word, then its operand groups (R94). -/
theorem decode_ok {bs : List Byte} {i : Instr} {rest : List Byte} (h : decode bs = .ok (i, rest)) :
    ∃ ws rest1 l vs, takeGroups [2] 0 bs = .ok (ws, rest1) ∧ decodeWord (BitVec.ofNat 16 (ws.getD 0 0)) = .ok l ∧
      takeGroups l.groups 2 rest1 = .ok (vs, rest) ∧ i = l.instr vs := by
  unfold decode at h
  split at h
  · cases h
  next ws rest1 hws =>
    split at h
    · cases h
    next l hl =>
      split at h
      · cases h
      next vs rest2 hvs =>
        injection h with h
        injection h with hi hrest
        subst hi hrest
        exact ⟨ws, rest1, l, vs, hws, hl, hvs, rfl⟩

/-- What the decoder reads from the bytes at `pc` is what the fetch answers, with `pc` past the bytes it took. -/
theorem fetch_of_decode {s : State} {i : Instr} {rest : List Byte} (hi : s.Inv)
    (h : decode (codeBytes s) = .ok (i, rest)) :
    fetch s = .ok (i, s.pc + BitVec.ofNat 32 ((codeBytes s).length - rest.length)) := by
  have hcap := (Memory.wf_iff.mp hi).2.1
  obtain ⟨ws, rest1, l, vs, hws, hl, hvs, rfl⟩ := decode_ok h
  rw [codeBytes_eq] at hws ⊢
  generalize hn : min maxLength (s.mem.cap - s.pc.toNat) = n at hws ⊢
  obtain ⟨k1, hk1, hfetch1, rfl, hin1⟩ := fetchGroups_of_takeGroups s.mem hcap [2] (by simp) 0 n s.pc ws rest1
    (by omega) hws
  obtain ⟨k2, hk2, hfetch2, rfl, _⟩ := fetchGroups_of_takeGroups s.mem hcap l.groups (groups_pos l) 2 k1 _ vs rest
    hin1 hvs
  have hpc : s.pc + BitVec.ofNat 32 (n - k1) + BitVec.ofNat 32 (k1 - k2) = s.pc + BitVec.ofNat 32 (n - k2) := by
    rw [BitVec.add_assoc, ← BitVec.ofNat_add]
    congr 2
    omega
  rw [hpc] at hfetch2
  unfold fetch
  simp only [hfetch1, hl, hfetch2, length_bytesAt]

/-- Settles O4: an awake tick executes what its fetch answers, and that is what the bytes at `pc` decode to. -/
theorem stepRunsTheDecodedInstruction : Obligations.StepRunsTheDecodedInstruction := by
  intro s i rest hi hawake hdecode
  exact step_of_fetch_ok hawake (fetch_of_decode hi hdecode)

/-! ## The exceptions of the fetch (R92, R94) -/

theorem fetch_of_word_outside {s : State} (h : ¬ s.accessible s.pc 2) : fetch s = .error (.invalidAddress s.pc) := by
  simp only [fetch, fetchGroups, read_error (Nat.not_le.mp h)]

theorem fetch_of_illegalWord {s : State} (h : s.accessible s.pc 2) (hill : illegalWord (wordAtPc s)) :
    fetch s = .error .invalidInstruction := by
  rcases decodeWord_cases (wordAtPc s) with ⟨l, _, hlegal⟩ | ⟨e, he, _, hexn⟩
  · exact absurd hill hlegal
  · rw [fetch_of_decodeWord_error h he, hexn]

/-- Behind an accepted word the fetch raises what its operand groups raise. -/
theorem fetch_of_groups_error {s : State} {l : Layout} {e : Exn} (h : s.accessible s.pc 2)
    (hl : decodeWord (wordAtPc s) = .ok l) (he : fetchGroups s.mem l.groups (s.pc + 2) = .error e) :
    fetch s = .error e := by
  rw [wordAtPc] at hl
  have he' : fetchGroups s.mem l.groups (s.pc + BitVec.ofNat 32 2) = .error e := he
  simp only [fetch, fetchGroups_word h, List.getD_cons_zero, hl, he']

theorem fetch_of_group_outside {s : State} {k : Nat} (h : s.accessible s.pc 2) (hlegal : ¬ illegalWord (wordAtPc s))
    (hk : k < (operandGroups (wordAtPc s)).length) (hbefore : ∀ j, j < k → groupInBank s j)
    (hout : ¬ groupInBank s k) : fetch s = .error (.invalidAddress (groupAddress s k)) := by
  obtain ⟨l, hl⟩ := (decodeWord_ok_iff (wordAtPc s)).mpr hlegal
  refine fetch_of_groups_error h hl ?_
  rw [groups_eq hl]
  exact fetchGroups_error s.mem (operandGroups (wordAtPc s)) (s.pc + 2) k hk hbefore hout

/-- Settles O5: an awake tick takes the exception of its fetch in the state it began with. -/
theorem fetchFaultsAreTakenBeforeAnyEffect : Obligations.FetchFaultsAreTakenBeforeAnyEffect := by
  intro s hawake
  refine ⟨fun hout => ?word, fun hin hill => ?illegal, fun k hin hlegal hk hbefore hout => ?group⟩
  case word => exact step_of_fetch_error hawake (fetch_of_word_outside hout)
  case illegal => exact step_of_fetch_error hawake (fetch_of_illegalWord hin hill)
  case group => exact step_of_fetch_error hawake (fetch_of_group_outside hin hlegal hk hbefore hout)

end Sys2Proof.Machine
end

section
/-! PROOFS. The statements of spec/70_reset_and_hazards.md and spec/93_implementation_defined.md section 3 about every
event: each has a successor, and the successor keeps the invariant (R6, R50, R318); what reset and a masked IRQ leave
(R322, R350). -/

namespace Sys2Proof.Machine

/-! ## Every tick has a successor that keeps the bank -/

theorem exec_keeps (i : Instr) {s : State} (hi : s.Inv) : ∃ t, exec i s = .next t ∧ Keeps s t := by
  rw [exec_eq]
  exact complete_keeps hi (keeps_viewMicro i.view s)

/-- A tick, asleep, redirected or executing, has a successor that keeps the bank's capacity and canonical form. -/
theorem step_keeps {s : State} (hi : s.Inv) : ∃ t, step s = .next t ∧ Keeps s t := by
  cases ha : s.asleep with
  | true => exact ⟨s, step_of_asleep ha, .refl s⟩
  | false =>
    cases hf : fetch s with
    | error e =>
      rw [step_of_fetch_error ha hf]
      exact ⟨_, takeException_eq hi e, .of_mem rfl⟩
    | ok p =>
      obtain ⟨i, pc⟩ := p
      rw [step_of_fetch_ok ha hf]
      obtain ⟨t, ht, hk⟩ := exec_keeps i (s := s.setPc pc) hi
      exact ⟨t, ht, Keeps.trans (.of_mem rfl) hk⟩

/-- Settles O7: the successor that keeps the invariant is the one the step answers. -/
theorem stepKeepsTheInvariant : Obligations.StepKeepsTheInvariant := by
  intro s t hi hstep
  obtain ⟨u, hu, hcap, hinv⟩ := step_keeps hi
  obtain rfl : u = t := by
    rw [hu] at hstep
    injection hstep
  exact ⟨hinv hi, hcap⟩

/-! ## The reset event (R350) -/

@[simp] theorem mem_zeroRegs (l : List Reg) (s : State) : (zeroRegs l s).mem = s.mem := (zeroRegs_frame l s).1

/-- In a bank in canonical form both reset slots exist. -/
theorem resetEvent_eq {s : State} (hi : s.Inv) :
    resetEvent s = .next ((((zeroRegs dataRegs s).setPc (BitVec.ofNat 32 (s.mem.readLe 4 0x00))).setSp
      (BitVec.ofNat 32 (s.mem.readLe 4 0x04))).withAsleep false) := by
  have hslot : ∀ a : Word, a.toNat ≤ 28 → (zeroRegs dataRegs s).load 4 a = .ok (s.mem.readLe 4 a.toNat) := by
    intro a ha
    have hload := load_ok (s := zeroRegs dataRegs s) (n := 4) (a := a)
      (by rw [mem_zeroRegs]; exact vector_accessible hi ha)
    rwa [mem_zeroRegs] at hload
  unfold resetEvent
  simp only [hslot vecReset (by decide), hslot vecSpInit (by decide)]
  rfl

theorem mem_dataRegs : ∀ r : Reg, r.val ≤ 13 → r ∈ dataRegs := by decide

/-- Settles O58: the cleared registers are those of `dataRegs`, and neither `pc` nor `sp` is among them. -/
theorem resetEventLoadsPcAndSp : Obligations.ResetEventLoadsPcAndSp := by
  intro s hi
  obtain ⟨_, hflags, hcallback, hsyscalls⟩ := zeroRegs_frame dataRegs s
  refine ⟨_, resetEvent_eq hi, fun r hr => ?zero, ?pc, ?sp, asleep_withAsleep _ _, by simpa using hflags,
    by simp, by simpa using hcallback, by simpa using hsyscalls⟩
  case zero =>
    have hsp : spReg ≠ r := fun h => absurd (h ▸ hr) (by decide)
    have hpc : pcReg ≠ r := fun h => absurd (h ▸ hr) (by decide)
    rw [reg_withAsleep, State.setSp, reg_setReg_ne _ _ _ _ hsp, State.setPc, reg_setReg_ne _ _ _ _ hpc,
      reg_zeroRegs, if_pos (mem_dataRegs r hr)]
  case pc => simp
  case sp => simp

/-- Settles O10: both sides evaluate. -/
theorem resetStateIsTheResetPowerOnState : Obligations.ResetStateIsTheResetPowerOnState :=
  ⟨Memory.wf_powerOn, rfl⟩

/-! ## Interrupts and port writes (R321, R352) -/

/-- A masked IRQ ends after it has cleared the latch (R322). -/
theorem interruptRaised_masked {s : State} (h : s.flags.i = true) :
    interruptRaised false s = .next (s.withAsleep false) := by
  simp [interruptRaised, h]

/-- Settles O54: with InterruptDisable set an IRQ goes no further than the latch. -/
theorem maskedIrqOnlyWakes : Obligations.MaskedIrqOnlyWakes := fun _ => interruptRaised_masked

/-- An NMI, and an IRQ that is not masked, pushes the frame and loads the vector (R323). -/
theorem interruptRaised_taken {s : State} {nmi : Bool} (h : nmi = true ∨ s.flags.i = false) :
    interruptRaised nmi s =
      complete ((pushFrame (s.withAsleep false)).andThen (loadVector (interruptVector nmi))) := by
  rcases h with rfl | hi
  · rfl
  · simp [interruptRaised, hi]

theorem interruptRaised_keeps (nmi : Bool) {s : State} (hi : s.Inv) :
    ∃ t, interruptRaised nmi s = .next t ∧ Keeps s t := by
  by_cases h : nmi = true ∨ s.flags.i = false
  · rw [interruptRaised_taken h]
    have hwork := (keeps_pushFrame (s.withAsleep false)).andThen (keeps_loadVector (interruptVector nmi))
    obtain ⟨t, ht, hk⟩ := complete_keeps (s := s.withAsleep false) hi hwork
    exact ⟨t, ht, Keeps.trans (.of_mem rfl) hk⟩
  · obtain ⟨hnmi, hmask⟩ : nmi = false ∧ s.flags.i = true := by simpa using h
    rw [hnmi, interruptRaised_masked hmask]
    exact ⟨_, rfl, .of_mem rfl⟩

theorem applyEvent_portWrite_keeps (w : Width) (a : Word) (v : Nat) (s : State) :
    ∃ t, applyEvent (.portWrite w a v) s = .next t ∧ Keeps s t := by
  rcases store_cases s w.bytes a v with ⟨hin, hstore⟩ | ⟨_, hstore⟩
  · exact ⟨s.withMem (s.mem.writeLe w.bytes a.toNat v), by simp only [applyEvent, hostWrite, hstore],
      keeps_write hin⟩
  · exact ⟨s, by simp only [applyEvent, hostWrite, hstore], .refl s⟩

/-! ## Every event, and every run of events (R353, R354) -/

theorem applyEvent_keeps (e : Event) {s : State} (hi : s.Inv) : ∃ t, applyEvent e s = .next t ∧ Keeps s t := by
  cases e with
  | tick => exact step_keeps hi
  | reset => exact ⟨_, resetEvent_eq hi, .of_mem (by simp)⟩
  | interrupt nmi => exact interruptRaised_keeps nmi hi
  | portRead w a => exact ⟨s, rfl, .refl s⟩
  | portWrite w a v => exact applyEvent_portWrite_keeps w a v s
  | register token => exact ⟨_, rfl, .of_mem rfl⟩

/-- Settles O8, event by event. -/
theorem everyEventHasASuccessorKeepingTheInvariant : Obligations.EveryEventHasASuccessorKeepingTheInvariant := by
  intro e s hi
  obtain ⟨t, ht, hcap, hinv⟩ := applyEvent_keeps e hi
  exact ⟨t, ht, hinv hi, hcap⟩

theorem inv_powerOn {cap : Nat} (lo : Config.minCapacity ≤ cap) (hi : cap ≤ Config.maxCapacity) :
    (State.powerOn cap).Inv :=
  Memory.wf_iff.mpr ⟨lo, hi, rfl⟩

/-- The invariant holds at power-on and every event keeps it. -/
theorem inv_of_reachable {s : State} (h : Reachable s) : s.Inv := by
  induction h with
  | powerOn cap lo hi => exact inv_powerOn lo hi
  | event e _ run ih =>
    obtain ⟨u, hu, _, hinv⟩ := applyEvent_keeps e ih
    rw [run] at hu
    injection hu with hu
    exact hu ▸ hinv ih

/-- Settles O9, by induction on the run. -/
theorem reachableStatesAreGoodAndNeverStop : Obligations.ReachableStatesAreGoodAndNeverStop := by
  intro s hreach
  have hi := inv_of_reachable hreach
  obtain ⟨t, ht, _⟩ := step_keeps hi
  exact ⟨hi, t, ht⟩

end Sys2Proof.Machine
end

section
/-! PROOFS. What an instruction leaves alone, also when it raises an exception: the sleep latch (R333), the flags (R29,
R31), memory and the callback registration (R57, R283); and what a tick costs (R370). -/

namespace Sys2Proof.Machine

/-! ## From the work of an instruction to its next state -/

/-- `t` is `s` but for `pc`. -/
structure SameButPc (s t : State) : Prop where
  flags : t.flags = s.flags
  asleep : t.asleep = s.asleep
  mem : t.mem = s.mem
  callback : t.callback = s.callback
  syscalls : t.syscalls = s.syscalls
  reg : ∀ r, r ≠ pcReg → t.reg r = s.reg r

theorem SameButPc.refl (s : State) : SameButPc s s := ⟨rfl, rfl, rfl, rfl, rfl, fun _ _ => rfl⟩

theorem sameButPc_setPc (s : State) (v : Word) : SameButPc s (s.setPc v) :=
  ⟨rfl, rfl, rfl, rfl, rfl, fun _ hr => reg_setReg_ne _ _ _ _ (Ne.symm hr)⟩

/-- The next state is the one the work ended in, or differs from it in a `pc` loaded from a vector slot (R313). -/
theorem sameButPc_of_complete {m : Micro} {t : State} (h : complete m = .next t) : SameButPc m.state t := by
  rcases complete_next h with rfl | ⟨e, s, v, rfl, rfl⟩
  · exact .refl t
  · exact sameButPc_setPc s v

theorem sameButPc_of_exec {i : Instr} {s t : State} (h : exec i s = .next t) :
    SameButPc (viewMicro i.view s).state t := by
  rw [exec_eq] at h
  exact sameButPc_of_complete h

/-- What one part of an instruction keeps and the next part keeps, both keep. -/
theorem andThen_state_eq {α : Type} (p : State → α) {s : State} {m : Micro} {k : State → Micro}
    (h : p m.state = p s) (hk : ∀ s1, p (k s1).state = p s1) : p (m.andThen k).state = p s := by
  cases m with
  | done s1 => exact (hk s1).trans h
  | raised e s1 => exact h

theorem SameButStack.flags_eq {s t : State} (h : SameButStack s t) : t.flags = s.flags := h.1

theorem SameButStack.callback_eq {s t : State} (h : SameButStack s t) : t.callback = s.callback := h.2.2.1

theorem ret_frame (s : State) : SameButStack s (ret s).state ∧ (ret s).state.mem = s.mem := by
  unfold ret
  rcases pop_cases 4 s with ⟨_, h⟩ | ⟨_, h⟩ <;> rw [h] <;> exact ⟨.refl s, rfl⟩

theorem branch_frame (cond : Cond) (w : Width) (disp : Word) (s : State) :
    SameButStack s (branch cond w disp s).state ∧ (branch cond w disp s).state.mem = s.mem := by
  unfold branch
  split <;> exact ⟨.refl s, rfl⟩

theorem call_frame (addr : Word) (s : State) : SameButStack s (call addr s).state :=
  (push_frame 4 s.pc.toNat s).andThen fun s1 => .refl s1

/-! ## The sleep latch (R333) -/

/-- The instruction of a view (R90). -/
theorem eq_of_view {i : Instr} {v : View} (h : i.view = v) : i = v.instr := by rw [← h, view_instr]

/-- Settles O11: a redirect does not touch the latch, and no work but SLP's does. -/
theorem onlySlpPutsTheMachineToSleep : Obligations.OnlySlpPutsTheMachineToSleep := by
  intro s t hawake hstep hasleep
  cases hf : fetch s with
  | error e =>
    rw [step_of_fetch_error hawake hf] at hstep
    obtain ⟨v, rfl⟩ := takeException_next hstep
    rw [asleep_setPc, hawake] at hasleep
    cases hasleep
  | ok p =>
    obtain ⟨i, pc⟩ := p
    rw [step_of_fetch_ok hawake hf] at hstep
    rw [(sameButPc_of_exec hstep).asleep] at hasleep
    rcases asleep_viewMicro i.view (s.setPc pc) with hsame | ⟨w, hslp⟩
    · rw [hsame, asleep_setPc, hawake] at hasleep
      cases hasleep
    · obtain rfl : i = .slp := eq_of_view hslp
      exact ⟨pc, rfl⟩

/-! ## The flags (R29, R31) -/

/-- The flags `g` after an instruction differ from the flags `f` before it only where R31 lists it as a writer. -/
structure OnlyListedFlags (i : Instr) (f g : Flags) : Prop where
  zn : writesZN i = false → g.z = f.z ∧ g.n = f.n
  c : writesC i = false → g.c = f.c
  v : writesV i = false → g.v = f.v
  b : i ≠ .brk → i ≠ .rti → g.b = f.b
  i : i ≠ .sei → i ≠ .cli → i ≠ .rti → g.i = f.i

theorem OnlyListedFlags.of_eq {i : Instr} {f g : Flags} (h : g = f) : OnlyListedFlags i f g := by
  subst h
  exact ⟨fun _ => ⟨rfl, rfl⟩, fun _ => rfl, fun _ => rfl, fun _ _ => rfl, fun _ _ _ => rfl⟩

/-- The two-operand handler writes no flag when it raises; otherwise the flags are the ALU's. -/
theorem flags_twoOperand (op : AluOp) (w : Width) (f : TwoForm) (s : State) :
    (twoOperand op w f s).state.flags.b = s.flags.b ∧ (twoOperand op w f s).state.flags.i = s.flags.i ∧
      (additive op = false → (twoOperand op w f s).state.flags.c = s.flags.c ∧
        (twoOperand op w f s).state.flags.v = s.flags.v) := by
  rcases twoOperand_cases op w f s with ⟨e, h⟩ | ⟨a, b, out, _, _, halu, _, h⟩
  · simp [h]
  · obtain ⟨_, hb, hi, hcv⟩ := alu_frame halu
    simpa [h] using ⟨hb, hi, hcv⟩

theorem flags_loadVector (a : Word) (s : State) : (loadVector a s).state.flags = s.flags := by
  unfold loadVector
  split <;> rfl

theorem flags_systemCall (id : BitVec 16) (addr : Word) (s : State) : (systemCall id addr s).state.flags = s.flags := by
  obtain ⟨m, n, h, _⟩ := systemCall_cases id addr s
  rw [h]
  rfl

/-- BRK writes Break alone (R280). -/
theorem flags_softwareInterrupt (s : State) :
    ∃ b, (softwareInterrupt s).state.flags = { s.flags with b := b } := by
  have hframe : (pushFrame s).state.flags = s.flags := (pushFrame_frame s).flags_eq
  unfold softwareInterrupt
  cases hp : pushFrame s with
  | done s1 =>
    rw [hp, state_done] at hframe
    exact ⟨true, by rw [andThen_done, flags_loadVector, flags_withFlags, hframe]⟩
  | raised e s1 =>
    rw [hp, state_raised] at hframe
    exact ⟨s.flags.b, by rw [andThen_raised, state_raised, hframe]⟩

/-- The work of every instruction writes only the flags it is listed under (R31). -/
theorem onlyListedFlags_viewMicro (i : Instr) (s : State) :
    OnlyListedFlags i s.flags (viewMicro i.view s).state.flags := by
  cases hv : i.view with
  | two op w f =>
    obtain ⟨hb, hi, hcv⟩ := flags_twoOperand op w f s
    refine ⟨fun h => ?_, fun h => (hcv ?_).1, fun h => (hcv ?_).2, fun _ _ => hb, fun _ _ _ => hi⟩
    · simp [writesZN, hv] at h
    · simpa [writesC, hv] using h
    · simpa [writesV, hv] using h
  | reg1 op w ra =>
    cases op with
    | push => exact .of_eq (push_frame _ _ s).flags_eq
    | pop => exact .of_eq (popReg_frame w ra s).1.flags_eq
    | clr | inc | dec | sxb | sxw =>
      constructor <;>
        simp [writesZN, writesC, writesV, hv, viewMicro, reg1Micro, clearReg, incReg, decReg, signExtendReg, aluAdd,
          aluSub, Flags.setNZ]
  | pushConst w c => exact .of_eq (push_frame _ _ s).flags_eq
  | implied op w =>
    have hinstr := eq_of_view hv
    cases op with
    | pusha => exact .of_eq (pushRegs_frame w dataRegs s).flags_eq
    | popa => exact .of_eq (popRegs_frame w dataRegs.reverse s).1.flags_eq
    | rts => exact .of_eq (ret_frame s).1.flags_eq
    | brk =>
      obtain ⟨b, hflags⟩ := flags_softwareInterrupt s
      show OnlyListedFlags i s.flags (softwareInterrupt s).state.flags
      rw [hflags]
      exact ⟨fun _ => ⟨rfl, rfl⟩, fun _ => rfl, fun _ => rfl, fun h => absurd hinstr h, fun _ _ _ => rfl⟩
    | rti =>
      constructor
      · intro h; simp [writesZN, hv] at h
      · intro h; simp [writesC, hv] at h
      · intro h; simp [writesV, hv] at h
      · exact fun _ h => absurd hinstr h
      · exact fun _ _ h => absurd hinstr h
    | slp | nop => exact .of_eq rfl
    | sec | clc =>
      refine ⟨fun _ => ⟨rfl, rfl⟩, fun h => ?_, fun _ => rfl, fun _ _ => rfl, fun _ _ _ => rfl⟩
      simp [writesC, hv] at h
    | sev | clv =>
      refine ⟨fun _ => ⟨rfl, rfl⟩, fun _ => rfl, fun h => ?_, fun _ _ => rfl, fun _ _ _ => rfl⟩
      simp [writesV, hv] at h
    | sei =>
      exact ⟨fun _ => ⟨rfl, rfl⟩, fun _ => rfl, fun _ => rfl, fun _ _ => rfl, fun h _ _ => absurd hinstr h⟩
    | cli =>
      exact ⟨fun _ => ⟨rfl, rfl⟩, fun _ => rfl, fun _ => rfl, fun _ _ => rfl, fun _ h _ => absurd hinstr h⟩
  | branch cond w disp => exact .of_eq (branch_frame cond w disp s).1.flags_eq
  | direct op addr =>
    cases op with
    | jmp => exact .of_eq rfl
    | jsr => exact .of_eq (call_frame addr s).flags_eq
  | sys id addr => exact .of_eq (flags_systemCall id addr s)

/-- Settles O12: the next state has the flags the work left. -/
theorem onlyTheListedInstructionsWriteAFlag : Obligations.OnlyTheListedInstructionsWriteAFlag := by
  intro i s t h
  obtain ⟨hzn, hc, hv, hb, hi⟩ := onlyListedFlags_viewMicro i s
  rw [(sameButPc_of_exec h).flags]
  exact ⟨hzn, hc, hv, hb, hi⟩

/-! ## Memory and the callback registration (R57, R283) -/

/-- CMP and a register destination store nothing (R122 step 7). -/
theorem storedMem_eq_mem {op : AluOp} {f : TwoForm} (h : op = .cmp ∨ destReg f ≠ none) (w : Width)
    (r : BitVec w.bits) (s : State) : storedMem op w f r s = s.mem := by
  unfold storedMem
  split
  · next hd _ =>
    rcases h with rfl | h
    · exact if_pos rfl
    · exact absurd hd h
  · rfl

theorem mem_twoOperand {op : AluOp} {f : TwoForm} (h : op = .cmp ∨ destReg f ≠ none) (w : Width) (s : State) :
    (twoOperand op w f s).state.mem = s.mem := by
  rcases twoOperand_cases op w f s with ⟨e, hm⟩ | ⟨a, b, out, _, _, _, _, hm⟩
  · simp [hm]
  · simp [hm, storedMem_eq_mem h]

theorem callback_twoOperand (op : AluOp) (w : Width) (f : TwoForm) (s : State) :
    (twoOperand op w f s).state.callback = s.callback := by
  rcases twoOperand_cases op w f s with ⟨e, hm⟩ | ⟨a, b, out, _, _, _, _, hm⟩ <;> simp [hm]

theorem leaveInterrupt_frame (s : State) :
    (leaveInterrupt s).state.mem = s.mem ∧ (leaveInterrupt s).state.callback = s.callback := by
  rcases leaveInterrupt_cases s with ⟨_, h⟩ | ⟨_, _, h⟩ | ⟨_, _, h⟩ <;> rw [h] <;> exact ⟨rfl, rfl⟩

theorem callback_softwareInterrupt (s : State) : (softwareInterrupt s).state.callback = s.callback := by
  refine andThen_state_eq State.callback (pushFrame_frame s).callback_eq fun s1 => ?_
  unfold loadVector
  split <;> rfl

/-- The work of an instruction keeps the callback registration, and memory too unless R57 lists it. -/
theorem memory_viewMicro (i : Instr) (s : State) :
    (storesToMemory i = false → (viewMicro i.view s).state.mem = s.mem) ∧
      (viewMicro i.view s).state.callback = s.callback := by
  have hlisted : ∀ {P : Prop}, storesToMemory i = true → storesToMemory i = false → P :=
    fun h h' => absurd (h.symm.trans h') (by decide)
  cases hv : i.view with
  | two op w f =>
    refine ⟨fun h => mem_twoOperand ?_ w s, callback_twoOperand op w f s⟩
    simp only [storesToMemory, hv] at h
    by_cases hop : op = .cmp
    · exact .inl hop
    · right
      intro hd
      simp [hop, hd] at h
  | reg1 op w ra =>
    cases op with
    | push => exact ⟨hlisted (by simp [storesToMemory, hv]), (push_frame _ _ s).callback_eq⟩
    | pop => exact ⟨fun _ => (popReg_frame w ra s).2, (popReg_frame w ra s).1.callback_eq⟩
    | _ => exact ⟨fun _ => rfl, rfl⟩
  | pushConst w c => exact ⟨hlisted (by simp [storesToMemory, hv]), (push_frame _ _ s).callback_eq⟩
  | implied op w =>
    cases op with
    | pusha => exact ⟨hlisted (by simp [storesToMemory, hv]), (pushRegs_frame w dataRegs s).callback_eq⟩
    | popa =>
      exact ⟨fun _ => (popRegs_frame w dataRegs.reverse s).2, (popRegs_frame w dataRegs.reverse s).1.callback_eq⟩
    | rts => exact ⟨fun _ => (ret_frame s).2, (ret_frame s).1.callback_eq⟩
    | brk => exact ⟨hlisted (by simp [storesToMemory, hv]), callback_softwareInterrupt s⟩
    | rti => exact ⟨fun _ => (leaveInterrupt_frame s).1, (leaveInterrupt_frame s).2⟩
    | _ => exact ⟨fun _ => rfl, rfl⟩
  | branch cond w disp =>
    exact ⟨fun _ => (branch_frame cond w disp s).2, (branch_frame cond w disp s).1.callback_eq⟩
  | direct op addr =>
    cases op with
    | jmp => exact ⟨fun _ => rfl, rfl⟩
    | jsr => exact ⟨hlisted (by simp [storesToMemory, hv]), (call_frame addr s).callback_eq⟩
  | sys id addr =>
    obtain ⟨m, n, h, _⟩ := systemCall_cases id addr s
    exact ⟨hlisted (by simp [storesToMemory, hv]), by simp only [viewMicro, h]; rfl⟩

/-- Settles O13: the next state has the memory and the registration the work left. -/
theorem onlyStoringInstructionsChangeMemory : Obligations.OnlyStoringInstructionsChangeMemory := by
  intro i s t h
  obtain ⟨hmem, hcallback⟩ := memory_viewMicro i s
  rw [(sameButPc_of_exec h).mem, (sameButPc_of_exec h).callback]
  exact ⟨hmem, hcallback⟩

/-! ## Ticks that raise an exception, and costs (R313, R370) -/

/-- An exception of a tick comes from its fetch or from the work of the instruction it fetched. -/
theorem tickException_cases {s : State} {e : Exn} (h : tickException s = some e) :
    s.asleep = false ∧ (fetch s = .error e ∨
      ∃ i pc u, fetch s = .ok (i, pc) ∧ viewMicro i.view (s.setPc pc) = .raised e u) := by
  unfold tickException at h
  split at h
  · cases h
  next ha =>
    refine ⟨by simpa using ha, ?_⟩
    split at h
    · next e' hf =>
      injection h with h
      exact .inl (h ▸ hf)
    · next i pc hf =>
      split at h
      · next e' u hm =>
        injection h with h
        exact .inr ⟨i, pc, u, hf, h ▸ hm⟩
      · cases h

/-- Raising work has not put the machine to sleep, since SLP raises nothing. -/
theorem asleep_of_raised {v : View} {s u : State} {e : Exn} (h : viewMicro v s = .raised e u) :
    u.asleep = s.asleep := by
  rcases asleep_viewMicro v s with hsame | ⟨w, rfl⟩
  · rwa [h, state_raised] at hsame
  · cases h

/-- A tick that raises takes the exception in a state with the flags and the latch of the tick's beginning. -/
theorem step_of_tickException {s : State} {e : Exn} (hi : s.Inv) (h : tickException s = some e) :
    ∃ u, step s = takeException e u ∧ u.Inv ∧ u.flags = s.flags ∧ u.asleep = s.asleep := by
  obtain ⟨ha, hf | ⟨i, pc, u, hf, hm⟩⟩ := tickException_cases h
  · exact ⟨s, step_of_fetch_error ha hf, hi, rfl, rfl⟩
  · have hinv := (keeps_viewMicro i.view (s.setPc pc)).2 hi
    rw [hm, state_raised] at hinv
    refine ⟨u, ?_, hinv, flags_of_raised i.view (s.setPc pc) hi hm, (asleep_of_raised hm).trans (asleep_setPc s pc)⟩
    rw [step_of_fetch_ok ha hf, exec_eq, hm, complete_raised]

/-- Settles O53: taking the exception then changes `pc` alone. -/
theorem faultingTickTouchesNoFlagAndVectors : Obligations.FaultingTickTouchesNoFlagAndVectors := by
  intro s e cycles hi he
  obtain ⟨u, hstep, hinv, hflags, hasleep⟩ := step_of_tickException hi he
  rw [takeException_eq hinv] at hstep
  exact ⟨tickCost_of_tickException cycles he, _, hstep, hflags, hasleep, pc_setPc _ _⟩

/-- A tick costs 1, or it has completed an instruction and costs the entry of its mode (R361, R370). -/
theorem tickCost_cases (cycles : AddrMode → Nat) (s : State) :
    tickCost cycles s = 1 ∨ ∃ m, tickCost cycles s = cycles m := by
  unfold tickCost
  split
  · exact .inl rfl
  · split
    · exact .inl rfl
    · split
      · exact .inl rfl
      · exact .inr ⟨_, rfl⟩

theorem tickCost_of_completed (cycles : AddrMode → Nat) {s : State} {i : Instr} {pc : Word} (ha : s.asleep = false)
    (hf : fetch s = .ok (i, pc)) (hnone : tickException s = none) : tickCost cycles s = cycles i.mode := by
  cases hm : viewMicro i.view (s.setPc pc) with
  | done t => simp [tickCost, ha, hf, hm]
  | raised e t => simp [tickException, ha, hf, hm] at hnone

/-- Settles O60: a cost is 1 or an entry of the table, the fetched instruction's when nothing is raised. -/
theorem tickCostsAreTheTablesAndAtLeastOne : Obligations.TickCostsAreTheTablesAndAtLeastOne := by
  intro cycles s
  refine ⟨fun hpos => ?_, fun i pc ha hf hnone => tickCost_of_completed cycles ha hf hnone⟩
  rcases tickCost_cases cycles s with h | ⟨m, h⟩
  · exact h.ge
  · exact h ▸ hpos m

end Sys2Proof.Machine
end

section
/-! PROOFS. The statements of spec/20_memory.md about `MemWrite` (R54) and of spec/10_state.md about narrow register
writes (R24) and the flags byte (R28). -/

namespace Sys2Proof.Machine

theorem pow_256 (n : Nat) : (256 : Nat) ^ n = 2 ^ (8 * n) := by rw [Nat.pow_mul]

/-- Settles O15: the store is `writeLe`, whose bytes, frame and read-back are known. -/
theorem writeStoresExactlyItsBytes : Obligations.WriteStoresExactlyItsBytes := by
  intro m n a v
  refine ⟨write_error v, fun hwf hin => ⟨m.writeLe n a.toNat v, write_ok v hin, wf_writeLe n hwf _ _ hin,
    cap_writeLe n m _ _, fun k hk => ?stored, fun x hx => ?frame, ?readBack⟩⟩
  case stored =>
    rw [byte_writeLe n hwf _ _ hin, if_pos (by omega), Nat.add_sub_cancel_left, pow_256]
  case frame => rw [byte_writeLe n hwf _ _ hin, if_neg (by omega)]
  case readBack =>
    rw [read_ok (by rw [cap_writeLe]; exact hin), readLe_writeLe_same n hwf _ _ hin, pow_256]

@[simp] theorem regRead_regWrite_same (s : State) (r : Reg) (w : Width) (v : BitVec w.bits) :
    (s.regWrite r w v).regRead r w = v := by
  rw [State.regRead, regWrite_eq, reg_setReg_same, setWidth_replaceLow]

/-- Settles O16: a narrow write is a full write of the register with its low part replaced. -/
theorem narrowWritesKeepTheUpperBits : Obligations.NarrowWritesKeepTheUpperBits := by
  intro s r w v
  refine ⟨fun k hk => ?_, fun q hq => ?_, regRead_regWrite_same s r w v⟩
  · rw [regWrite_eq, reg_setReg_same, getLsbD_replaceLow _ _ _ hk]
  · rw [regWrite_eq, reg_setReg_ne _ _ _ _ (Ne.symm hq)]

theorem getLsbD_toByte (f : Flags) :
    f.toByte.getLsbD 0 = f.z ∧ f.toByte.getLsbD 1 = f.n ∧ f.toByte.getLsbD 2 = f.c ∧ f.toByte.getLsbD 3 = f.v ∧
    f.toByte.getLsbD 4 = f.b ∧ f.toByte.getLsbD 5 = f.i ∧ f.toByte.getLsbD 6 = false ∧
    f.toByte.getLsbD 7 = false := by
  obtain ⟨z, n, c, v, b, i⟩ := f
  revert z n c v b i
  decide

/-- Unpacking discards bits 6 and 7 (R28). -/
theorem toByte_ofByte (b : Byte) : (Flags.ofByte b).toByte = b &&& 0x3F := by
  obtain ⟨h0, h1, h2, h3, h4, h5, h6, h7⟩ := getLsbD_toByte (Flags.ofByte b)
  apply BitVec.eq_of_getLsbD_eq
  intro k hk
  rw [BitVec.getLsbD_and]
  interval_cases k
  · exact h0.trans (Bool.and_true _).symm
  · exact h1.trans (Bool.and_true _).symm
  · exact h2.trans (Bool.and_true _).symm
  · exact h3.trans (Bool.and_true _).symm
  · exact h4.trans (Bool.and_true _).symm
  · exact h5.trans (Bool.and_true _).symm
  · exact h6.trans (Bool.and_false _).symm
  · exact h7.trans (Bool.and_false _).symm

/-- Settles O17: packing and unpacking place each flag at its own bit. -/
theorem flagsBytePacksTheSixFlags : Obligations.FlagsBytePacksTheSixFlags :=
  ⟨getLsbD_toByte, ofByte_toByte, toByte_ofByte⟩

end Sys2Proof.Machine
end

section
/-! PROOFS. The statements of spec/40_operand_dispatch.md about the operands and the completion of the two-operand
instructions (R122, R145, R314), and those of spec/42_arithmetic.md and spec/43_logic_shift_rotate.md about their
results (R181 to R189, R210 to R213). -/

namespace Sys2Proof.Machine

/-! ## Operands (R122 steps 3 to 5) -/

/-- Settles O19, form by form: a memory operand is read at the form's effective address. -/
theorem operandsInsideTheBankAreReadable : Obligations.OperandsInsideTheBankAreReadable := by
  intro w f s hin
  have hload : ∀ {ea}, memAddr f s = some ea →
      loadAt w ea s = .ok (BitVec.ofNat w.bits (s.mem.readLe w.bytes ea.toNat)) := fun h => loadAt_ok (hin _ h)
  cases f with
  | regImm | reg2 => exact ⟨_, _, rfl, rfl, rfl, rfl⟩
  | absSrc | indSrc | idxSrc => exact ⟨_, _, rfl, hload rfl, rfl, rfl⟩
  | absDst | absConst | indDst | indConst | idxDst | idxConst => exact ⟨_, _, hload rfl, rfl, rfl, rfl⟩

theorem operands_ok {w : Width} {f : TwoForm} {s : State} (h : operandInBank w f s) :
    ∃ a b, destValue w f s = .ok a ∧ sourceValue w f s = .ok b := by
  obtain ⟨a, b, ha, hb, _⟩ := operandsInsideTheBankAreReadable w f s h
  exact ⟨a, b, ha, hb⟩

/-! ## Completion (R122, R145, R314) -/

theorem alu_ok {op : AluOp} {W : Nat} (a : BitVec W) {b : BitVec W} (f : Flags) (h : op = .div → b ≠ 0) :
    ∃ out, alu op a b f = .ok out := by
  cases ho : alu op a b f with
  | ok out => exact ⟨out, rfl⟩
  | error e =>
    obtain ⟨hop, hb, _⟩ := alu_error ho
    exact absurd (BitVec.eq_of_toNat_eq hb) (h hop)

/-- With the source read, the old value (for MOV the unread one) and an ALU outcome, and the memory operand inside the
bank, the handler completes. -/
theorem twoOperand_done {op : AluOp} {w : Width} {f : TwoForm} {s : State} {a b : BitVec w.bits} {out : AluOut w.bits}
    (hin : operandInBank w f (preDecrement w f s)) (hb : sourceValue w f (preDecrement w f s) = .ok b)
    (ha : oldValue op w f (preDecrement w f s) = .ok a) (ho : alu op a b s.flags = .ok out) :
    twoOperand op w f s = .done (afterAlu op w f out (preDecrement w f s)) := by
  rw [← flags_preDecrement w f s] at ho
  rcases storeResult_cases op w f out.r (preDecrement w f s) with ⟨hs, _⟩ | ⟨ea, _, hm, hout, _⟩
  · unfold twoOperand
    simp only [hb, ha, ho, hs]
    rfl
  · exact absurd (hin ea hm) hout

/-- Settles O20: inside the bank nothing but the divisor can stop the handler. -/
theorem twoOperandInstructionsCompleteInsideTheBank : Obligations.TwoOperandInstructionsCompleteInsideTheBank := by
  intro i op w f s hview hin hdiv
  obtain ⟨a, b, ha, hb⟩ := operands_ok hin
  have hold : ∃ a', oldValue op w f (preDecrement w f s) = .ok a' := by
    unfold oldValue
    split
    · exact ⟨0, rfl⟩
    · exact ⟨a, ha⟩
  obtain ⟨a', hold⟩ := hold
  obtain ⟨out, ho⟩ := alu_ok (op := op) a' s.flags (b := b) fun hop hz => hdiv hop (hz ▸ hb)
  exact ⟨out, by rw [exec_two hview, twoOperand_done hin hb hold ho, complete_done]⟩

/-! ## Results (R181 to R189, R210 to R213) -/

/-- With both operands readable, an instruction other than MOV lands its ALU outcome. -/
theorem exec_of_alu_ok {i : Instr} {op : AluOp} {w : Width} {f : TwoForm} {s : State} {a b : BitVec w.bits}
    {out : AluOut w.bits} (hview : i.view = .two op w f) (ha : destValue w f (preDecrement w f s) = .ok a)
    (hb : sourceValue w f (preDecrement w f s) = .ok b) (hop : op ≠ .mov) (ho : alu op a b s.flags = .ok out) :
    exec i s = .next (afterAlu op w f out (preDecrement w f s)) := by
  rw [exec_two hview, twoOperand_ok ha hb ho hop, complete_done]

/-- Settles O21: both are the ALU's addition, without or with the Carry flag. -/
theorem addAndAdcAddAtTheOperandWidth : Obligations.AddAndAdcAddAtTheOperandWidth := by
  intro i op w f s a b cin hop hview ha hb
  rcases hop with ⟨rfl, rfl⟩ | ⟨rfl, rfl⟩
  · exact exec_of_alu_ok hview ha hb nofun (by rw [alu, aluAdd_eq])
  · exact exec_of_alu_ok hview ha hb nofun (by rw [alu, aluAdd_eq])

/-- Settles O22: the three are the ALU's subtraction, SBC with the Carry flag as the borrow. -/
theorem subSbcAndCmpSubtractAtTheOperandWidth : Obligations.SubSbcAndCmpSubtractAtTheOperandWidth := by
  intro i op w f s a b bin hop hview ha hb
  rcases hop with ⟨rfl | rfl, rfl⟩ | ⟨rfl, rfl⟩
  · exact exec_of_alu_ok hview ha hb nofun (by rw [alu, aluSub_eq])
  · exact exec_of_alu_ok hview ha hb nofun (by rw [alu, aluSub_eq])
  · exact exec_of_alu_ok hview ha hb nofun (by rw [alu, aluSub_eq])

/-- Settles O23: the three outcomes are bare results. -/
theorem logicInstructionsAreBitwise : Obligations.LogicInstructionsAreBitwise := by
  intro i op w f s a b r hop hview ha hb
  rcases hop with ⟨rfl, rfl⟩ | ⟨rfl, rfl⟩ | ⟨rfl, rfl⟩ <;>
    exact exec_of_alu_eq_logicOut hview ha hb nofun rfl

theorem aluMul_eq (w : Width) (a b : BitVec w.bits) (f : Flags) :
    aluMul a b f =
      { r := BitVec.ofNat w.bits (a.toNat * b.toNat)
        flags := withNZ f (BitVec.ofNat w.bits (a.toNat * b.toNat))
        side := some (BitVec.ofNat w.bits (a.toNat * b.toNat / 2 ^ w.bits)) } := by
  rw [aluMul, setNZ_eq]

/-- The two halves of a product of `W`-bit numbers fit in `W` bits each. -/
theorem halves_mul {W : Nat} (a b : BitVec W) :
    (BitVec.ofNat W (a.toNat * b.toNat)).toNat + (BitVec.ofNat W (a.toNat * b.toNat / 2 ^ W)).toNat * 2 ^ W =
      a.toNat * b.toNat := by
  have hhigh : a.toNat * b.toNat / 2 ^ W < 2 ^ W :=
    Nat.div_lt_of_lt_mul (Nat.mul_lt_mul'' a.isLt b.isLt)
  rw [BitVec.toNat_ofNat, BitVec.toNat_ofNat, Nat.mod_eq_of_lt hhigh]
  exact Nat.mod_add_div' _ _

/-- Settles O25: the exact product is its low half and its high half. -/
theorem mulSplitsTheExactProduct : Obligations.MulSplitsTheExactProduct := by
  intro i w f s a b hview ha hb
  exact ⟨_, _, halves_mul a b, exec_of_alu_ok hview ha hb nofun (by rw [alu, aluMul_eq])⟩

theorem aluDiv_eq (w : Width) (a b : BitVec w.bits) (f : Flags) (h : b ≠ 0) :
    aluDiv a b f = .ok { r := a / b, flags := withNZ f (a / b), side := some (a % b) } := by
  have hb : b.toNat ≠ 0 := fun hz => h (BitVec.eq_of_toNat_eq hz)
  have hq : BitVec.ofNat w.bits (a.toNat / b.toNat) = a / b := by
    rw [← BitVec.toNat_udiv, BitVec.ofNat_toNat, BitVec.setWidth_eq]
  have hr : BitVec.ofNat w.bits (a.toNat % b.toNat) = a % b := by
    rw [← BitVec.toNat_umod, BitVec.ofNat_toNat, BitVec.setWidth_eq]
  rw [aluDiv, if_neg hb]
  simp only [hq, hr, setNZ_eq]

/-- Settles O26: quotient and remainder of the bit vectors are those of the numbers. -/
theorem divGivesQuotientAndRemainder : Obligations.DivGivesQuotientAndRemainder := by
  intro i w f s a b hview ha hb hne
  have hpos : 0 < b.toNat := Nat.pos_of_ne_zero fun hz => hne (BitVec.eq_of_toNat_eq hz)
  refine ⟨a / b, a % b, ?_, ?_, exec_of_alu_ok hview ha hb nofun (aluDiv_eq w a b s.flags hne)⟩
  · rw [BitVec.toNat_udiv, BitVec.toNat_umod, Nat.div_add_mod']
  · rw [BitVec.toNat_umod]
    exact Nat.mod_lt _ hpos

/-! ## Double words (R181) -/

theorem append_eq_ofInt {W : Nat} (x y : BitVec W) :
    x ++ y = BitVec.ofInt (W + W) ((x.toNat : Int) * (2 ^ W : Nat) + y.toNat) := by
  have hval : (x ++ y).toNat = x.toNat * 2 ^ W + y.toNat := by
    rw [BitVec.toNat_append, ← Nat.shiftLeft_add_eq_or_of_lt y.isLt, Nat.shiftLeft_eq]
  rw [← BitVec.setWidth_eq (x ++ y), ← BitVec.ofNat_toNat, hval, ← BitVec.ofInt_natCast]
  push_cast
  rfl

theorem ofInt_add_mul_pow (W : Nat) (x k : Int) : BitVec.ofInt W (x + k * (2 ^ W : Nat)) = BitVec.ofInt W x := by
  apply BitVec.eq_of_toNat_eq
  rw [BitVec.toNat_ofInt, BitVec.toNat_ofInt, Int.add_mul_emod_self_right]

/-- The value of a high part followed by a low part that lies between 0 and `2 ^ W`. -/
theorem ofInt_append_ofInt (W : Nat) (hi lo : Int) (h0 : 0 ≤ lo) (h1 : lo < (2 ^ W : Nat)) :
    BitVec.ofInt W hi ++ BitVec.ofInt W lo = BitVec.ofInt (W + W) (hi * (2 ^ W : Nat) + lo) := by
  have hpow : ((2 ^ (W + W) : Nat) : Int) = (2 ^ W : Nat) * (2 ^ W : Nat) := by rw [Nat.pow_add, Nat.cast_mul]
  have hne : ((2 ^ W : Nat) : Int) ≠ 0 := by positivity
  have hlo : ((BitVec.ofInt W lo).toNat : Int) = lo := by
    rw [BitVec.toNat_ofInt, Int.emod_eq_of_lt h0 h1, Int.toNat_of_nonneg h0]
  have hhi : ((BitVec.ofInt W hi).toNat : Int) = hi % (2 ^ W : Nat) := by
    rw [BitVec.toNat_ofInt, Int.toNat_of_nonneg (Int.emod_nonneg _ hne)]
  have hsplit : hi * (2 ^ W : Nat) + lo =
      (hi % (2 ^ W : Nat) * (2 ^ W : Nat) + lo) + hi / (2 ^ W : Nat) * (2 ^ (W + W) : Nat) := by
    rw [hpow]
    linear_combination ((2 ^ W : Nat) : Int) * (Int.emod_add_mul_ediv hi (2 ^ W : Nat)).symm
  rw [append_eq_ofInt, hlo, hhi, hsplit, ofInt_add_mul_pow]

/-- What an exact low part `lo` has above `2 ^ W`, `k` times over (below 0: what it lacks), passes to the high part. -/
theorem ofInt_append_of_carry (W : Nat) (hi lo k : Int) (h0 : k * (2 ^ W : Nat) ≤ lo)
    (h1 : lo < k * (2 ^ W : Nat) + (2 ^ W : Nat)) :
    BitVec.ofInt W (hi + k) ++ BitVec.ofInt W lo = BitVec.ofInt (W + W) (hi * (2 ^ W : Nat) + lo) := by
  have hlo : BitVec.ofInt W lo = BitVec.ofInt W (lo - k * (2 ^ W : Nat)) := by
    rw [← ofInt_add_mul_pow W (lo - _) k, sub_add_cancel]
  rw [hlo, ofInt_append_ofInt W _ _ (by linarith) (by linarith)]
  congr 1
  ring

theorem ofInt_sub (W : Nat) (x y : Int) : BitVec.ofInt W (x - y) = BitVec.ofInt W x - BitVec.ofInt W y := by
  apply BitVec.eq_of_toInt_eq
  simp

theorem carryOut_bounds {W x y : Nat} (hx : x < 2 ^ W) (hy : y < 2 ^ W) :
    (carryOut W (x + y)).toNat * 2 ^ W ≤ x + y ∧ x + y < (carryOut W (x + y)).toNat * 2 ^ W + 2 ^ W := by
  by_cases h : 2 ^ W - 1 < x + y
  · simp only [carryOut, h, decide_true, Bool.toNat_true]
    omega
  · simp only [carryOut, h, decide_false, Bool.toNat_false]
    omega

theorem borrowOut_bounds {W x y : Nat} (hx : x < 2 ^ W) (hy : y < 2 ^ W) :
    -((borrowOut ((x : Int) - y)).toNat : Int) * (2 ^ W : Nat) ≤ (x : Int) - y ∧
      (x : Int) - y < -((borrowOut ((x : Int) - y)).toNat : Int) * (2 ^ W : Nat) + (2 ^ W : Nat) := by
  by_cases h : (x : Int) - y < 0
  · simp only [borrowOut, h, decide_true, Bool.toNat_true]
    omega
  · simp only [borrowOut, h, decide_false, Bool.toNat_false]
    omega

/-- Settles O29: the carry of the low words is what their exact sum has above `2 ^ W`, the borrow what their exact
difference lacks. -/
theorem carryAndBorrowChainDoubleWords : Obligations.CarryAndBorrowChainDoubleWords := by
  intro W alo ahi blo bhi f
  refine ⟨?add, ?sub⟩
  case add =>
    obtain ⟨h0, h1⟩ := carryOut_bounds alo.isLt blo.isLt
    have hcarry := ofInt_append_of_carry W ((ahi.toNat : Int) + bhi.toNat) ((alo.toNat : Int) + blo.toNat)
      (carryOut W (alo.toNat + blo.toNat)).toNat (by exact_mod_cast h0) (by exact_mod_cast h1)
    simp only [aluAdd, Bool.toNat_false, Nat.add_zero]
    rw [append_eq_ofInt ahi, append_eq_ofInt bhi, ← BitVec.ofInt_add, ← BitVec.ofInt_natCast,
      ← BitVec.ofInt_natCast]
    push_cast at hcarry ⊢
    rw [hcarry]
    congr 1
    ring
  case sub =>
    obtain ⟨h0, h1⟩ := borrowOut_bounds alo.isLt blo.isLt
    have hborrow := ofInt_append_of_carry W ((ahi.toNat : Int) - bhi.toNat) ((alo.toNat : Int) - blo.toNat)
      (-(borrowOut ((alo.toNat : Int) - blo.toNat)).toNat) h0 h1
    simp only [aluSub, Bool.toNat_false, Nat.cast_zero, sub_zero]
    rw [append_eq_ofInt ahi, append_eq_ofInt bhi, ← ofInt_sub]
    rw [← sub_eq_add_neg] at hborrow
    rw [hborrow]
    congr 1
    ring

end Sys2Proof.Machine
end

section
/-! PROOFS. The statements of spec/40_operand_dispatch.md, spec/10_state.md and spec/60_exceptions.md about where an
outcome lands, what the two-operand instructions leave alone and where they raise (R122, R134, R145, R186, R188, R189,
R314, R315), of spec/41_data_movement.md about MOV (R161), and of spec/45_control_transfer.md about the branches after CMP
(R253). -/

namespace Sys2Proof.Machine

/-! ## Every register after an outcome has landed (R122 steps 8 and 9, R134) -/

/-- Register `q`, read as `old` before, once a side value is written to register 13. -/
def sidedReg {W : Nat} (side : Option (BitVec W)) (q : Reg) (old : Word) : Word :=
  if q = sideReg then (match side with | some v => v.setWidth 32 | none => old) else old

/-- Register `q`, read as `old` before, once the result is written to the destination. -/
def writtenReg {W : Nat} (op : AluOp) (f : TwoForm) (r : BitVec W) (q : Reg) (old : Word) : Word :=
  if op ≠ .cmp ∧ destReg f = some q then replaceLow old r else old

/-- Register `q`, read as `old` before, once the base is post-incremented. -/
def incrementedReg (w : Width) (f : TwoForm) (q : Reg) (old : Word) : Word :=
  match adjustedBase f with
  | some (adj, r) => if adj.post = true ∧ r = q then old + BitVec.ofNat 32 w.bytes else old
  | none => old

theorem sidedReg_none {W : Nat} (q : Reg) (old : Word) : sidedReg (none : Option (BitVec W)) q old = old := by
  simp [sidedReg]

theorem sidedReg_ne {W : Nat} (side : Option (BitVec W)) {q : Reg} (h : q ≠ sideReg) (old : Word) :
    sidedReg side q old = old := if_neg h

theorem sidedReg_sideReg {W : Nat} (v : BitVec W) (old : Word) : sidedReg (some v) sideReg old = v.setWidth 32 := rfl

theorem writtenReg_ne {W : Nat} (op : AluOp) {f : TwoForm} (r : BitVec W) {q : Reg} (h : destReg f ≠ some q)
    (old : Word) : writtenReg op f r q old = old := if_neg fun hq => h hq.2

theorem writtenReg_dest {W : Nat} {op : AluOp} {f : TwoForm} (r : BitVec W) {q : Reg} (h : destReg f = some q)
    (hop : op ≠ .cmp) (old : Word) : writtenReg op f r q old = replaceLow old r := if_pos ⟨hop, h⟩

theorem incrementedReg_base (w : Width) {f : TwoForm} {adj : Adjust} {r : Reg} (h : adjustedBase f = some (adj, r))
    (old : Word) :
    incrementedReg w f r old = if adj.post = true then old + BitVec.ofNat 32 w.bytes else old := by
  simp [incrementedReg, h]

/-- A register that is no post-incremented base stays. -/
theorem incrementedReg_eq_old (w : Width) {f : TwoForm} {q : Reg}
    (h : ∀ adj, adjustedBase f = some (adj, q) → adj.post = false) (old : Word) :
    incrementedReg w f q old = old := by
  unfold incrementedReg
  split
  next adj r hbase =>
    refine if_neg fun hq => ?_
    obtain ⟨hpost, rfl⟩ := hq
    rw [h adj hbase] at hpost
    cases hpost
  next => rfl

theorem reg_writeSide {W : Nat} (side : Option (BitVec W)) (s : State) (q : Reg) :
    (writeSide side s).reg q = sidedReg side q (s.reg q) := by
  cases side with
  | none => rw [sidedReg_none, writeSide]
  | some v =>
    rw [writeSide, reg_setReg]
    by_cases h : q = sideReg
    · rw [h, if_pos rfl, sidedReg_sideReg]
    · rw [if_neg (Ne.symm h), sidedReg_ne _ h]

theorem reg_writeDest (op : AluOp) (w : Width) (f : TwoForm) (r : BitVec w.bits) (s : State) (q : Reg) :
    (writeDest op w f r s).reg q = writtenReg op f r q (s.reg q) := by
  unfold writeDest
  split
  next hop => exact (if_neg fun hq => hq.1 hop).symm
  next hop =>
    split
    next ra hd =>
      rw [regWrite_eq, reg_setReg]
      by_cases h : ra = q
      · rw [if_pos h, h, writtenReg_dest r (h ▸ hd) hop]
      · rw [if_neg h, writtenReg_ne op r (by simpa [hd] using h)]
    next hd => rw [writtenReg_ne op r (by simp [hd])]

theorem reg_postIncrement_eq (w : Width) (f : TwoForm) (s : State) (q : Reg) :
    (postIncrement w f s).reg q = incrementedReg w f q (s.reg q) := by
  unfold postIncrement
  split
  next adj r hbase =>
    by_cases hr : r = q
    · subst hr
      rw [incrementedReg_base w hbase]
      split <;> simp
    · rw [incrementedReg_eq_old w fun adj' h => ?_]
      · split
        · exact reg_setReg_ne _ _ _ _ hr
        · rfl
      · rw [hbase] at h
        injection h with h
        injection h with _ h
        exact absurd h hr
  next hbase => rw [incrementedReg_eq_old w fun adj h => by rw [hbase] at h; cases h]

/-- Every register: side value, then destination, then post-increment. -/
theorem reg_afterAlu (op : AluOp) (w : Width) (f : TwoForm) (out : AluOut w.bits) (s : State) (q : Reg) :
    (afterAlu op w f out s).reg q =
      incrementedReg w f q (writtenReg op f out.r q (sidedReg out.side q (s.reg q))) := by
  rw [afterAlu, reg_postIncrement_eq, commit, reg_withFlags, reg_writeDest, reg_writeSide, reg_withMem]

/-- The result of a storing form stands at its effective address. -/
theorem storedMem_dest {op : AluOp} {f : TwoForm} {s : State} {ea : Word} (hop : op ≠ .cmp) (hd : destReg f = none)
    (hm : memAddr f s = some ea) (w : Width) (r : BitVec w.bits) :
    storedMem op w f r s = s.mem.writeLe w.bytes ea.toNat r.toNat := by
  simp [storedMem, hd, hm, hop]

/-- Settles O27: the three register writes in their order, and the stored bytes. -/
theorem outcomeLandsInDestinationSideAndFlags : Obligations.OutcomeLandsInDestinationSideAndFlags := by
  intro op w f out s hi hin
  refine ⟨flags_afterAlu op w f out s, fun q => ?regs, fun ra hd hop hra hbase => ?dest,
    fun v hv hd hbase => ?side, fun adj r hbase hd hr => ?base, fun ea hop hd hm => ?stored, fun h => ?kept⟩
  case regs =>
    rw [reg_afterAlu, incrementedReg]
    cases adjustedBase f <;> cases out.side <;> rfl
  case dest =>
    rw [reg_afterAlu, sidedReg_ne _ hra, writtenReg_dest _ hd hop,
      incrementedReg_eq_old w fun adj h => absurd h (hbase adj)]
  case side =>
    rw [reg_afterAlu, hv, sidedReg_sideReg, writtenReg_ne _ _ hd, incrementedReg_eq_old w hbase]
  case base =>
    rw [reg_afterAlu, sidedReg_ne _ hr, writtenReg_ne _ _ hd, incrementedReg_base w hbase]
  case stored =>
    rw [mem_afterAlu, storedMem_dest hop hd hm, readLe_writeLe_bits w hi _ (hin ea hm)]
  case kept => rw [mem_afterAlu, storedMem_eq_mem h]

/-! ## What a two-operand instruction leaves alone (R122) -/

/-- The frame of the handler's registers and latches, raising or not. -/
theorem twoOperand_registerFrame (op : AluOp) (w : Width) (f : TwoForm) (s : State) :
    (∀ r, (destReg f ≠ some r ∨ op = .cmp) → (∀ adj, adjustedBase f ≠ some (adj, r)) →
      ((op ≠ .mul ∧ op ≠ .div) ∨ r ≠ sideReg) → (twoOperand op w f s).state.reg r = s.reg r) ∧
    (twoOperand op w f s).state.asleep = s.asleep ∧ (twoOperand op w f s).state.syscalls = s.syscalls := by
  rcases twoOperand_cases op w f s with ⟨e, h⟩ | ⟨a, b, out, _, _, halu, _, h⟩
  · rw [h]
    exact ⟨fun r _ hbase _ => reg_preDecrement w f s hbase, asleep_preDecrement w f s, syscalls_preDecrement w f s⟩
  · rw [h]
    refine ⟨fun r hdest hbase hside => ?_, by simp, by simp⟩
    have hside' : out.side = none ∨ r ≠ sideReg :=
      hside.imp_left fun hop => (alu_frame halu).1 hop.1 hop.2
    rw [state_done, afterAlu, reg_postIncrement w f _ hbase, reg_commit op w f out _ hdest hside', reg_withMem,
      reg_preDecrement w f s hbase]

/-- Settles O30: a redirect changes `pc` alone. -/
theorem twoOperandRegisterFrame : Obligations.TwoOperandRegisterFrame := by
  intro i op w f s t hview h
  have hpc := sameButPc_of_exec h
  rw [hview] at hpc
  obtain ⟨hreg, hasleep, hsyscalls⟩ := twoOperand_registerFrame op w f s
  refine ⟨fun r hr hdest hbase hside => ?_, hpc.asleep.trans hasleep,
    hpc.callback.trans (callback_twoOperand op w f s), hpc.syscalls.trans hsyscalls⟩
  exact (hpc.reg r hr).trans (hreg r hdest hbase hside)

/-- Outside the bytes at its effective address the handler changes no byte (R54). -/
theorem byte_twoOperand {op : AluOp} {w : Width} {f : TwoForm} {s : State} (hi : s.Inv) {ea : Word}
    (hm : memAddr f (preDecrement w f s) = some ea) {x : Nat} (hx : x < ea.toNat ∨ ea.toNat + w.bytes ≤ x) :
    (twoOperand op w f s).state.mem.byte x = s.mem.byte x := by
  by_cases hkept : op = .cmp ∨ destReg f ≠ none
  · rw [mem_twoOperand hkept]
  · obtain ⟨hop, hd⟩ : op ≠ .cmp ∧ destReg f = none := by simpa using hkept
    rcases twoOperand_cases op w f s with ⟨e, h⟩ | ⟨a, b, out, _, _, _, hacc, h⟩
    · rw [h, state_raised, mem_preDecrement]
    · have hin := hacc hop ea hd hm
      rw [State.accessible, mem_preDecrement] at hin
      rw [h, state_done, mem_afterAlu, storedMem_dest hop hd hm, mem_preDecrement, byte_writeLe _ hi _ _ hin,
        if_neg (by omega)]

/-- Settles O31: the handler stores at most at its effective address, and a redirect stores nothing. -/
theorem twoOperandMemoryFrame : Obligations.TwoOperandMemoryFrame := by
  intro i op w f s t hi hview h
  have hpc := sameButPc_of_exec h
  rw [hview] at hpc
  rw [hpc.mem]
  exact ⟨(keeps_twoOperand op w f s).1, fun hkept x => by rw [viewMicro, mem_twoOperand hkept],
    fun ea hm x hx => byte_twoOperand hi hm hx⟩

/-! ## Where the handler raises (R145, R314) -/

theorem twoOperand_of_source_error {op : AluOp} {w : Width} {f : TwoForm} {s : State} {e : Exn}
    (hb : sourceValue w f (preDecrement w f s) = .error e) :
    twoOperand op w f s = .raised e (preDecrement w f s) := by
  simp only [twoOperand, hb]

theorem twoOperand_of_old_error {op : AluOp} {w : Width} {f : TwoForm} {s : State} {b : BitVec w.bits} {e : Exn}
    (hb : sourceValue w f (preDecrement w f s) = .ok b) (ha : oldValue op w f (preDecrement w f s) = .error e) :
    twoOperand op w f s = .raised e (preDecrement w f s) := by
  simp only [twoOperand, hb, ha]

theorem twoOperand_of_alu_error {op : AluOp} {w : Width} {f : TwoForm} {s : State} {a b : BitVec w.bits} {e : Exn}
    (hb : sourceValue w f (preDecrement w f s) = .ok b) (ha : oldValue op w f (preDecrement w f s) = .ok a)
    (ho : alu op a b s.flags = .error e) : twoOperand op w f s = .raised e (preDecrement w f s) := by
  rw [← flags_preDecrement w f s] at ho
  simp only [twoOperand, hb, ha, ho]

/-- MOV does not read its destination, so that a memory destination outside the bank is found by the store. -/
theorem twoOperand_of_mov_store_error {w : Width} {f : TwoForm} {s : State} {b : BitVec w.bits} {e : Exn}
    (hb : sourceValue w f (preDecrement w f s) = .ok b)
    (hs : storeResult .mov w f b (preDecrement w f s) = .error e) :
    twoOperand .mov w f s = .raised e (preDecrement w f s) := by
  have ha : oldValue .mov w f (preDecrement w f s) = .ok 0 := rfl
  have ho : alu .mov 0 b (preDecrement w f s).flags = .ok (logicOut b (preDecrement w f s).flags) := rfl
  have hs' : storeResult .mov w f (logicOut b (preDecrement w f s).flags).r (preDecrement w f s) = .error e := hs
  simp only [twoOperand, hb, ha, ho, hs']

/-- The source, the old value or, for MOV, the store meets the address outside the bank. -/
theorem twoOperand_outside {op : AluOp} {w : Width} {f : TwoForm} {s : State} {ea : Word}
    (hm : memAddr f (preDecrement w f s) = some ea) (hout : ¬ s.accessible ea w.bytes) :
    twoOperand op w f s = .raised (.invalidAddress ea) (preDecrement w f s) := by
  rw [← accessible_preDecrement w f] at hout
  cases hd : destReg f with
  | some ra =>
    exact twoOperand_of_source_error (by rw [sourceValue_mem hd hm, loadAt_error hout])
  | none =>
    obtain ⟨b, hb⟩ := sourceValue_plain w (s := preDecrement w f s) (.inl hd)
    by_cases hop : op = .mov
    · subst hop
      refine twoOperand_of_mov_store_error hb ?_
      rcases storeResult_cases .mov w f b (preDecrement w f s) with ⟨_, hacc⟩ | ⟨ea', _, hm', _, hs⟩
      · exact absurd (hacc nofun ea hd hm) hout
      · rw [hm] at hm'
        injection hm' with hm'
        rw [hs, hm']
    · refine twoOperand_of_old_error hb ?_
      rw [oldValue, if_neg hop, destValue_mem hd hm, loadAt_error hout]

/-- Settles O32: nothing is written before the access that fails, but for a pre-decrement. -/
theorem operandOutsideTheBankTakesInvalidAddress : Obligations.OperandOutsideTheBankTakesInvalidAddress := by
  intro i op w f s ea hview hm hout
  rw [exec_two hview, twoOperand_outside hm hout, complete_raised]

/-- Settles O33: both operands are read before the divisor is looked at. -/
theorem divByZeroTakesDivisionByZero : Obligations.DivByZeroTakesDivisionByZero := by
  intro i w f s hview hin hb
  obtain ⟨a, _, ha, _⟩ := operands_ok hin
  have ho : aluDiv a 0 s.flags = .error .divisionByZero := if_pos BitVec.toNat_zero
  rw [exec_two hview, twoOperand_of_alu_error (op := .div) hb ha ho, complete_raised]

/-! ## MOV in its eleven forms (R161) -/

/-- MOV lands its source with Z and N from it. -/
theorem exec_mov {i : Instr} {w : Width} (f : TwoForm) {s : State} {b : BitVec w.bits} (hview : i.view = .two .mov w f)
    (hin : operandInBank w f (preDecrement w f s)) (hb : sourceValue w f (preDecrement w f s) = .ok b) :
    exec i s =
      .next (afterAlu .mov w f { r := b, flags := withNZ s.flags b, side := none } (preDecrement w f s)) := by
  have ho : alu .mov 0 b s.flags = .ok { r := b, flags := withNZ s.flags b, side := none } := by
    rw [alu, logicOut, setNZ_eq]
  rw [exec_two hview, twoOperand_done hin hb rfl ho, complete_done]

theorem exec_mov_plain {i : Instr} {w : Width} (f : TwoForm) {s : State} {b : BitVec w.bits}
    (hview : i.view = .two .mov w f) (hm : memAddr f (preDecrement w f s) = none)
    (hb : sourceValue w f (preDecrement w f s) = .ok b) :
    exec i s =
      .next (afterAlu .mov w f { r := b, flags := withNZ s.flags b, side := none } (preDecrement w f s)) :=
  exec_mov f hview (fun _ h => nomatch hm.symm.trans h) hb

theorem exec_mov_memory {i : Instr} {w : Width} (f : TwoForm) {s : State} {b : BitVec w.bits} {ea : Word}
    (hview : i.view = .two .mov w f) (hm : memAddr f (preDecrement w f s) = some ea) (hin : s.accessible ea w.bytes)
    (hb : sourceValue w f (preDecrement w f s) = .ok b) :
    exec i s =
      .next (afterAlu .mov w f { r := b, flags := withNZ s.flags b, side := none } (preDecrement w f s)) := by
  refine exec_mov f hview (fun ea' h => ?_) hb
  rw [hm] at h
  injection h with h
  exact (accessible_preDecrement w f s ea' w.bytes).mpr (h ▸ hin)

/-- A constant stored at the operand width is stored as its low part. -/
theorem stored_setWidth (w : Width) (s : State) (a : Word) (c : Word) :
    s.stored w.bytes a (c.setWidth w.bits).toNat = s.stored w.bytes a c.toNat := by
  rw [State.stored, writeLe_setWidth, State.stored]

@[simp] theorem mem_decremented (w : Width) (adj : Adjust) (r : Reg) (s : State) :
    (decremented w adj r s).mem = s.mem := by
  unfold decremented
  split <;> rfl

/-- Settles O18: `exec_mov` in each form, its `afterAlu` evaluated. -/
theorem movMovesTheSourceInEveryForm : Obligations.MovMovesTheSourceInEveryForm := by
  intro w s adj ra rb c addr off
  refine ⟨?regImm, ?reg2, fun h => ⟨?absSrc, ?absDst, ?absConst⟩, fun h => ?indSrc,
    fun h => ⟨?indDst, ?indConst⟩, fun h => ?idxSrc, fun h => ⟨?idxDst, ?idxConst⟩⟩
  case regImm => exact exec_mov_plain (.regImm ra c) rfl rfl rfl
  case reg2 => exact exec_mov_plain (.reg2 ra rb) rfl rfl rfl
  case absSrc => exact exec_mov_memory (.absSrc ra addr) rfl rfl h (loadAt_ok h)
  case absDst => exact exec_mov_memory (.absDst addr rb) rfl rfl h rfl
  case absConst =>
    rw [← stored_setWidth]
    exact exec_mov_memory (.absConst addr c) rfl rfl h rfl
  case indSrc =>
    have hload : loadAt w ((decremented w adj rb s).reg rb) (decremented w adj rb s) =
        .ok (BitVec.ofNat w.bits (s.mem.readLe w.bytes ((decremented w adj rb s).reg rb).toNat)) := by
      rw [loadAt_ok (by rwa [State.accessible, mem_decremented]), mem_decremented]
    exact exec_mov_memory (.indSrc adj ra rb) rfl rfl h hload
  case indDst => exact exec_mov_memory (.indDst adj ra rb) rfl rfl h rfl
  case indConst =>
    simp only [← stored_setWidth]
    exact exec_mov_memory (.indConst adj ra c) rfl rfl h rfl
  case idxSrc => exact exec_mov_memory (.idxSrc ra rb off) rfl rfl h (loadAt_ok h)
  case idxDst => exact exec_mov_memory (.idxDst ra off rb) rfl rfl h rfl
  case idxConst =>
    rw [← stored_setWidth]
    exact exec_mov_memory (.idxConst ra off c) rfl rfl h rfl

/-! ## The branches after CMP (R186, R253) -/

/-- The exact difference leaves the signed range exactly when wrapping it turns its sign around. -/
theorem outsideSigned_sub {W : Nat} (hW : 0 < W) (a b : BitVec W) :
    outsideSigned W (a.toInt - b.toInt) = (decide ((a - b).toInt < 0) != decide (a.toInt < b.toInt)) := by
  obtain ⟨k, rfl⟩ : ∃ k, W = k + 1 := ⟨W - 1, by omega⟩
  have ha := BitVec.le_toInt a
  have ha' := BitVec.toInt_lt (x := a)
  have hb := BitVec.le_toInt b
  have hb' := BitVec.toInt_lt (x := b)
  have hpow : ((2 ^ (k + 1) : Nat) : Int) = 2 * 2 ^ k := by push_cast; ring
  have hwrap : ∀ c : Int, -2 ^ k ≤ c → c < 2 ^ k → (∃ n : Int, c - (a.toInt - b.toInt) = 2 * 2 ^ k * n) →
      (a - b).toInt = c := by
    intro c h0 h1 hdvd
    rw [BitVec.toInt_sub, Int.bmod_eq_iff (by positivity), hpow]
    exact ⟨by omega, by omega, hdvd⟩
  rw [Nat.add_sub_cancel] at ha ha' hb hb'
  rw [outsideSigned, Nat.add_sub_cancel, Bool.eq_iff_iff]
  simp only [bne_iff_ne, ne_eq, decide_eq_true_eq, decide_eq_decide]
  rcases lt_or_ge (a.toInt - b.toInt) (-2 ^ k) with hlow | hlow
  · rw [hwrap (a.toInt - b.toInt + 2 * 2 ^ k) (by omega) (by omega) ⟨1, by ring⟩]
    omega
  · rcases lt_or_ge (a.toInt - b.toInt) (2 ^ k) with hhigh | hhigh
    · rw [hwrap (a.toInt - b.toInt) hlow hhigh ⟨0, by ring⟩]
      omega
    · rw [hwrap (a.toInt - b.toInt - 2 * 2 ^ k) (by omega) (by omega) ⟨-1, by ring⟩]
      omega

/-- The flags of CMP (R186). -/
def cmpFlags (f : Flags) {W : Nat} (a b : BitVec W) : Flags :=
  { withNZ f (a - b) with
    c := decide (a.toNat < b.toNat)
    v := outsideSigned W (a.toInt - b.toInt) }

theorem flags_of_cmp {i : Instr} {w : Width} {f : TwoForm} {s t : State} {a b : BitVec w.bits}
    (hview : i.view = .two .cmp w f) (ha : destValue w f (preDecrement w f s) = .ok a)
    (hb : sourceValue w f (preDecrement w f s) = .ok b) (h : exec i s = .next t) :
    t.flags = cmpFlags s.flags a b := by
  rw [subSbcAndCmpSubtractAtTheOperandWidth i .cmp w f s a b false (.inl ⟨.inr rfl, rfl⟩) hview ha hb] at h
  injection h with h
  rw [← h, flags_afterAlu]
  simp [cmpFlags]

theorem cmpFlags_n (f : Flags) {W : Nat} (a b : BitVec W) :
    (cmpFlags f a b).n = decide ((a - b).toInt < 0) := by
  rw [← BitVec.msb_eq_toInt, BitVec.msb_eq_getLsbD_last]
  rfl

theorem cmpFlags_z_iff (f : Flags) {W : Nat} (a b : BitVec W) : (cmpFlags f a b).z = true ↔ a = b := by
  rw [← sub_eq_zero (a := a)]
  exact decide_eq_true_iff

/-- Negative and Overflow differ exactly when the first operand is the less. -/
theorem cmpFlags_less_iff (f : Flags) {W : Nat} (hW : 0 < W) (a b : BitVec W) :
    (cmpFlags f a b).n ≠ (cmpFlags f a b).v ↔ a.toInt < b.toInt := by
  have hv : (cmpFlags f a b).v = _ := outsideSigned_sub hW a b
  rw [cmpFlags_n, hv]
  by_cases hlt : a.toInt < b.toInt <;> simp [hlt]

/-- Settles O28: each condition reads the flags of CMP. -/
theorem branchesAfterCmpTestTheRelation : Obligations.BranchesAfterCmpTestTheRelation := by
  intro i w f s t a b hview ha hb h
  rw [flags_of_cmp hview ha hb h]
  have hless := cmpFlags_less_iff s.flags (bits_pos w) a b
  have hz := cmpFlags_z_iff s.flags a b
  have hn := cmpFlags_n s.flags a b
  have heq : a = b ↔ a.toInt = b.toInt := BitVec.toInt_inj.symm
  refine ⟨rfl, hz, ?bne, ?bcc, ?bcs, ?bpl, ?bmi, ?bvc, Iff.rfl, ?blt, ?bgt, ?ble, ?bge⟩
  case bne => rw [ne_eq, ← hz]; simp [condHolds]
  case bcc => simp [condHolds, cmpFlags]
  case bcs => simp [condHolds, cmpFlags]
  case bpl => simp [condHolds, hn]
  case bmi => simp [condHolds, hn]
  case bvc => simp [condHolds, cmpFlags]
  case blt => rw [← hless]; simp [condHolds]
  case bgt =>
    rw [← not_le, le_iff_lt_or_eq, ← hless, ← heq, ← hz]
    simp [condHolds, and_comm]
  case ble =>
    rw [le_iff_lt_or_eq, ← hless, ← heq, ← hz]
    simp [condHolds, or_comm]
  case bge =>
    rw [← not_lt, ← hless]
    simp [condHolds]

end Sys2Proof.Machine
end

section
/-! PROOFS. The statements of spec/41_data_movement.md and spec/42_arithmetic.md about the one-register instructions
(R162 to R164, R190, R191), and of spec/45_control_transfer.md about the branches (R252, R253). -/

namespace Sys2Proof.Machine

/-! ## CLR, SXB, SXW, INC, DEC -/

theorem exec_signExtend {i : Instr} {N : Nat} {ra : Reg} {s : State}
    (h : exec i s = complete (signExtendReg N ra s)) :
    exec i s = .next ((s.setReg ra (BitVec.ofInt 32 ((s.reg ra).setWidth N).toInt)).withFlags
      (withNZ s.flags (BitVec.ofInt 32 ((s.reg ra).setWidth N).toInt))) := by
  rw [h, signExtendReg, complete_done, setNZ_eq s.flags .dword]
  rfl

/-- Settles O34: CLR is its update, and the sign extensions share one meaning at 8 and 16 bits. -/
theorem clrClearsAndSxbAndSxwSignExtend : Obligations.ClrClearsAndSxbAndSxwSignExtend := fun _ _ _ =>
  ⟨rfl, exec_signExtend rfl, exec_signExtend rfl⟩

theorem toNat_one (w : Width) : (1 : BitVec w.bits).toNat = 1 := by cases w <;> rfl

theorem toInt_one (w : Width) : (1 : BitVec w.bits).toInt = 1 := by cases w <;> rfl

/-- Adding 1 carries exactly from the largest value (R190). -/
theorem aluAdd_one (w : Width) (a : BitVec w.bits) (f : Flags) :
    aluAdd a 1 false f =
      { r := a + 1
        flags := { withNZ f (a + 1) with
          c := decide (a.toNat + 1 = 2 ^ w.bits), v := outsideSigned w.bits (a.toInt + 1) }
        side := none } := by
  have hcarry : 2 ^ w.bits - 1 < a.toNat + 1 ↔ a.toNat + 1 = 2 ^ w.bits := by
    have hlt := a.isLt
    omega
  rw [aluAdd_eq, toNat_one, toInt_one]
  simp [hcarry]

/-- Subtracting 1 borrows exactly from 0 (R191). -/
theorem aluSub_one (w : Width) (a : BitVec w.bits) (f : Flags) :
    aluSub a 1 false f =
      { r := a - 1
        flags := { withNZ f (a - 1) with c := decide (a.toNat = 0), v := outsideSigned w.bits (a.toInt - 1) }
        side := none } := by
  rw [aluSub_eq, toNat_one, toInt_one]
  simp

/-- Settles O35: INC and DEC are the ALU's addition and subtraction of 1. -/
theorem incAndDecStepByOne : Obligations.IncAndDecStepByOne := by
  intro w ra s
  have hinc : exec (.inc w ra) s =
      let out := aluAdd (s.regRead ra w) 1 false s.flags
      .next ((s.regWrite ra w out.r).withFlags out.flags) := rfl
  have hdec : exec (.dec w ra) s =
      let out := aluSub (s.regRead ra w) 1 false s.flags
      .next ((s.regWrite ra w out.r).withFlags out.flags) := rfl
  rw [hinc, hdec, aluAdd_one, aluSub_one]
  exact ⟨rfl, rfl⟩

/-! ## The branches (R252) -/

/-- A branch whose condition says `p` adds its sign-extended displacement exactly when `p` holds. -/
theorem exec_branch_iff {cond : Cond} {s : State} {p : Prop} [Decidable p] (hp : condHolds cond s.flags = true ↔ p)
    (w : Width) (disp : Word) :
    exec (branchInstr cond w disp) s =
      .next (if p then s.setPc (s.pc + BitVec.ofInt 32 (disp.setWidth w.bits).toInt) else s) := by
  have hexec : exec (branchInstr cond w disp) s = complete (branch cond w disp s) := by cases cond <;> rfl
  rw [hexec, branch, complete_done]
  simp only [hp]
  rfl

/-- Settles O46: the table of R253, condition by condition. -/
theorem branchesAddTheDisplacementWhenTaken : Obligations.BranchesAddTheDisplacementWhenTaken := by
  intro w disp s
  refine ⟨rfl, exec_branch_iff (cond := .beq) Iff.rfl w disp, exec_branch_iff (cond := .bne) ?bne w disp,
    exec_branch_iff (cond := .bcc) ?bcc w disp, exec_branch_iff (cond := .bcs) Iff.rfl w disp,
    exec_branch_iff (cond := .bpl) ?bpl w disp, exec_branch_iff (cond := .bmi) Iff.rfl w disp,
    exec_branch_iff (cond := .bvc) ?bvc w disp, exec_branch_iff (cond := .bvs) Iff.rfl w disp,
    exec_branch_iff (cond := .blt) ?blt w disp, exec_branch_iff (cond := .bgt) ?bgt w disp,
    exec_branch_iff (cond := .ble) ?ble w disp, exec_branch_iff (cond := .bge) ?bge w disp⟩
  all_goals simp [condHolds]

end Sys2Proof.Machine
end

section
/-! PROOFS. The statements of spec/44_stack.md about PUSH, POP, PUSHA and POPA (R230 to R236), and of
spec/45_control_transfer.md about JMP, JSR and RTS (R254 to R256). -/

namespace Sys2Proof.Machine

/-! ## States -/

theorem state_ext {s t : State} (hreg : ∀ r, s.reg r = t.reg r) (hflags : s.flags = t.flags)
    (hasleep : s.asleep = t.asleep) (hmem : s.mem = t.mem) (hcallback : s.callback = t.callback)
    (hsyscalls : s.syscalls = t.syscalls) : s = t := by
  have hregs := regs_ext hreg
  cases s
  cases t
  simp only at hregs hflags hasleep hmem hcallback hsyscalls
  subst hregs hflags hasleep hmem hcallback hsyscalls
  rfl

theorem stored_eq (s : State) (n : Nat) (a : Word) (v : Nat) :
    s.stored n a v = s.withMem (s.mem.writeLe n a.toNat v) := rfl

/-- Moving `sp` and back leaves the memory that was written meanwhile. -/
theorem setSp_back (s : State) (a : Word) (m : Memory) : ((s.setSp a).withMem m).setSp s.sp = s.withMem m := by
  rw [State.setSp, State.setSp, withMem_setReg, setReg_setReg_same]
  exact setSp_sp (s.withMem m)

/-- The writes of `sp` and of `pc` commute. -/
theorem setSp_setPc_comm (s : State) (a b : Word) : (s.setPc a).setSp b = (s.setSp b).setPc a :=
  setReg_comm s pcReg spReg a b (by decide)

theorem reg_setSp_ne (s : State) (v : Word) {r : Reg} (h : r ≠ spReg) : (s.setSp v).reg r = s.reg r :=
  reg_setReg_ne _ _ _ _ (Ne.symm h)

theorem reg_setPc_ne (s : State) (v : Word) {r : Reg} (h : r ≠ pcReg) : (s.setPc v).reg r = s.reg r :=
  reg_setReg_ne _ _ _ _ (Ne.symm h)

/-! ## PUSH and POP -/

theorem exec_pushConst (w : Width) (c : Word) (s : State) :
    exec (.pushConst w c) s = complete (push w.bytes (c.setWidth w.bits).toNat s) := rfl

theorem exec_pop (w : Width) (ra : Reg) (s : State) : exec (.pop w ra) s = complete (popReg w ra s) := rfl

theorem complete_push_ok {n : Nat} {s : State} (v : Nat) (h : s.accessible (s.sp - BitVec.ofNat 32 n) n) :
    complete (push n v s) =
      .next ((s.setSp (s.sp - BitVec.ofNat 32 n)).stored n (s.sp - BitVec.ofNat 32 n) v) := by
  rw [push_ok v h, complete_done, stored_eq, mem_setSp]

theorem complete_push_error {n : Nat} {s : State} (v : Nat) (h : ¬ s.accessible (s.sp - BitVec.ofNat 32 n) n) :
    complete (push n v s) =
      takeException (.invalidAddress (s.sp - BitVec.ofNat 32 n)) (s.setSp (s.sp - BitVec.ofNat 32 n)) := by
  rw [push_error v h, complete_raised]

/-- Settles O36: both are the push of a value, a constant's low part being stored for it. -/
theorem pushStoresBelowTheStackPointer : Obligations.PushStoresBelowTheStackPointer := by
  intro w ra c s
  refine ⟨fun hin => ⟨complete_push_ok _ hin, ?_⟩,
    fun hout => ⟨complete_push_error _ hout, complete_push_error _ hout⟩⟩
  rw [exec_pushConst, complete_push_ok _ hin, stored_setWidth]

theorem complete_popReg_ok {w : Width} {ra : Reg} {s : State} (h : s.accessible s.sp w.bytes) :
    complete (popReg w ra s) = .next ((s.setSp (s.sp + BitVec.ofNat 32 w.bytes)).regWrite ra w
      (BitVec.ofNat w.bits (s.mem.readLe w.bytes s.sp.toNat))) := by
  rcases popReg_cases w ra s with ⟨_, hpop⟩ | ⟨hout, _⟩
  · rw [hpop, complete_done]
  · exact absurd h hout

/-- Settles O37: the two answers of a pop. -/
theorem popLoadsFromTheStackPointer : Obligations.PopLoadsFromTheStackPointer := by
  intro w ra s
  refine ⟨complete_popReg_ok, fun hout => ?_⟩
  rcases popReg_cases w ra s with ⟨hin, _⟩ | ⟨_, hpop⟩
  · exact absurd hin hout
  · rw [exec_pop, hpop, complete_raised]

/-- Settles O38: the pop reads back what the push stored, and `sp` moves back. -/
theorem pushThenPopMovesTheLowPart : Obligations.PushThenPopMovesTheLowPart := by
  intro w r r' s hi hin
  refine ⟨_, complete_push_ok _ hin, ?_⟩
  have hcap : (s.mem.writeLe w.bytes (s.sp - BitVec.ofNat 32 w.bytes).toNat (s.regRead r w).toNat).cap = s.mem.cap :=
    cap_writeLe _ _ _ _
  have hread := readLe_writeLe_bits w hi _ hin (s.regRead r w)
  rw [exec_pop, stored_eq, mem_setSp, complete_popReg_ok (by simpa [State.accessible, hcap] using hin), sp_withMem,
    sp_setSp, mem_withMem, hread, BitVec.sub_add_cancel, setSp_back, BitVec.ofNat_toNat, BitVec.setWidth_eq]

/-! ## PUSHA and POPA, up to the access that leaves the bank -/

theorem dataRegs_getElem : ∀ (k : Nat) (h : k < dataRegs.length), (dataRegs[k]).val = k := by decide

theorem length_take_dataRegs {k : Nat} (hk : k ≤ 14) : (dataRegs.take k).length = k := by
  rw [List.length_take]
  exact Nat.min_eq_left hk

/-- The first `k` pushes of PUSHA inside the bank: registers 0 to `k - 1` in their slots, every other byte as before. -/
theorem pushRegs_take_ok (w : Width) {s : State} {k : Nat} (hi : s.Inv) (hk : k ≤ 14)
    (h : ∀ j, j < k → s.accessible (slot w.bytes s.sp j) w.bytes) :
    ∃ m, pushRegs w (dataRegs.take k) s = .done ((s.setSp (s.sp - BitVec.ofNat 32 (w.bytes * k))).withMem m) ∧
      m.wf = true ∧ m.cap = s.mem.cap ∧
      (∀ j : Reg, j.val < k → m.readLe w.bytes (slot w.bytes s.sp j.val).toNat = (s.regRead j w).toNat) ∧
      ∀ x, (∀ j, j < k → x < (slot w.bytes s.sp j).toNat ∨ (slot w.bytes s.sp j).toNat + w.bytes ≤ x) →
        m.byte x = s.mem.byte x := by
  have hlen := length_take_dataRegs hk
  have hsp : spReg ∉ dataRegs.take k := fun hmem => absurd (List.mem_of_mem_take hmem) (by decide)
  obtain ⟨m, hpush, hwf, hcap, hread, hframe⟩ := pushRegs_ok w (dataRegs.take k) s hi (by omega) hsp
    (fun j hj => h j (by omega))
  rw [hlen] at hpush hframe
  refine ⟨m, hpush, hwf, hcap, fun j hj => ?_, hframe⟩
  have hj' : (dataRegs.take k)[j.val]'(by omega) = j := by
    rw [List.getElem_take]
    exact Fin.ext (dataRegs_getElem j.val _)
  rw [hread j.val (by omega), hj']

theorem dataRegs_reverse_getElem :
    ∀ (k : Nat) (h : k < dataRegs.reverse.length), (dataRegs.reverse[k]).val = 13 - k := by decide

theorem mem_take_reverse_iff : ∀ (k : Fin 15) (r : Reg),
    r ∈ dataRegs.reverse.take k.val ↔ r.val < 14 ∧ 13 - r.val < k.val := by decide

/-- The first `k` pops of POPA inside the bank: the last `k` of registers 0 to 13 have their items in their low parts,
everything else but `sp` is as before. -/
theorem popRegs_take_ok (w : Width) {s : State} {k : Nat} (hk : k ≤ 14)
    (h : ∀ j, j < k → s.accessible (s.sp + BitVec.ofNat 32 (w.bytes * j)) w.bytes) :
    ∃ t, popRegs w (dataRegs.reverse.take k) s = .done t ∧ t.sp = s.sp + BitVec.ofNat 32 (w.bytes * k) ∧
      t.pc = s.pc ∧
      (∀ r : Reg, r.val < 14 → t.reg r =
        if 13 - r.val < k then
          replaceLow (s.reg r) (BitVec.ofNat w.bits
            (s.mem.readLe w.bytes (s.sp + BitVec.ofNat 32 (w.bytes * (13 - r.val))).toNat))
        else s.reg r) ∧
      t.mem = s.mem ∧ SameButStack s t := by
  have hlen : (dataRegs.reverse.take k).length = k := by
    rw [List.length_take]
    exact Nat.min_eq_left hk
  have hmem : ∀ r : Reg, r ∈ dataRegs.reverse.take k ↔ r.val < 14 ∧ 13 - r.val < k :=
    mem_take_reverse_iff ⟨k, by omega⟩
  have hsp : spReg ∉ dataRegs.reverse.take k := fun hm => absurd ((hmem _).mp hm).1 (by decide)
  have hnodup : (dataRegs.reverse.take k).Nodup := List.Nodup.sublist (List.take_sublist _ _) (by decide)
  obtain ⟨t, hpop, htsp, hitem, hkept⟩ := popRegs_ok w (dataRegs.reverse.take k) s hsp hnodup
    (fun j hj => h j (by omega))
  obtain ⟨hsame, htmem⟩ := popRegs_frame w (dataRegs.reverse.take k) s
  rw [hpop, state_done] at hsame htmem
  rw [hlen] at htsp
  refine ⟨t, hpop, htsp, hkept pcReg (fun hm => absurd ((hmem _).mp hm).1 (by decide)) (by decide),
    fun r hr => ?_, htmem, hsame⟩
  split
  next hlt =>
    have hr' : (dataRegs.reverse.take k)[13 - r.val]'(by omega) = r := by
      rw [List.getElem_take]
      apply Fin.ext
      rw [dataRegs_reverse_getElem]
      omega
    have hval := hitem (13 - r.val) (by omega)
    rwa [hr'] at hval
  next hge =>
    refine hkept r (fun hm => hge ((hmem r).mp hm).2) fun he => ?_
    rw [he] at hr
    exact absurd hr (by decide)

/-- Settles O39: all fourteen pushes. -/
theorem pushaStoresRegistersZeroToThirteen : Obligations.PushaStoresRegistersZeroToThirteen := by
  intro w s hi hin
  obtain ⟨m, hpush, _, hcap, hread, hframe⟩ := pushRegs_take_ok w (k := 14) hi (Nat.le_refl _) hin
  refine ⟨_, congrArg complete hpush, ?_, fun r hr => reg_setSp_ne s _ hr, hread, hframe, hcap, rfl, rfl, rfl, rfl⟩
  rw [sp_withMem, sp_setSp, Nat.mul_comm]

/-- Settles O40: all fourteen pops. -/
theorem popaLoadsRegistersThirteenToZero : Obligations.PopaLoadsRegistersThirteenToZero := by
  intro w s hin
  obtain ⟨t, hpop, hsp, hpc, hreg, hmem, hflags, hasleep, hcallback, hsyscalls⟩ :=
    popRegs_take_ok w (k := 14) (Nat.le_refl _) hin
  refine ⟨t, congrArg complete hpop, ?_, hpc, fun r hr => ?_, hmem, hflags, hasleep, hcallback, hsyscalls⟩
  · rw [hsp, Nat.mul_comm]
  · rw [hreg r hr, if_pos (by omega)]

/-- A list is its first `k` elements, the next one, and the rest. -/
theorem eq_take_append_cons {α : Type} (l : List α) {k : Nat} (hk : k < l.length) :
    l = l.take k ++ l[k] :: l.drop (k + 1) := by
  rw [← List.drop_eq_getElem_cons hk, List.take_append_drop]

theorem slot_eq_sub (n k : Nat) (a : Word) : a - BitVec.ofNat 32 (n * k) - BitVec.ofNat 32 n = slot n a k := by
  rw [slot, BitVec.sub_sub, ← BitVec.ofNat_add, Nat.mul_succ]

/-- PUSHA stops at the push whose slot leaves the bank, with `sp` at that slot. -/
theorem exec_pusha_outside {w : Width} {s : State} {k : Nat} {m : Memory} (hk : k < 14)
    (hpush : pushRegs w (dataRegs.take k) s = .done ((s.setSp (s.sp - BitVec.ofNat 32 (w.bytes * k))).withMem m))
    (hcap : m.cap = s.mem.cap) (hout : ¬ s.accessible (slot w.bytes s.sp k) w.bytes) :
    exec (.pusha w) s =
      takeException (.invalidAddress (slot w.bytes s.sp k)) ((s.setSp (slot w.bytes s.sp k)).withMem m) := by
  have hslot : ((s.setSp (s.sp - BitVec.ofNat 32 (w.bytes * k))).withMem m).sp - BitVec.ofNat 32 w.bytes =
      slot w.bytes s.sp k := by rw [sp_withMem, sp_setSp, slot_eq_sub]
  have hraise := pushRegs_outside w _ (dataRegs[k]'hk) (dataRegs.drop (k + 1)) hpush
    (by rw [hslot, State.accessible, mem_withMem, hcap]; exact hout)
  rw [← eq_take_append_cons dataRegs hk, hslot] at hraise
  have hstate : ((s.setSp (s.sp - BitVec.ofNat 32 (w.bytes * k))).withMem m).setSp (slot w.bytes s.sp k) =
      (s.setSp (slot w.bytes s.sp k)).withMem m := by simp [State.setSp]
  rw [hstate] at hraise
  exact congrArg complete hraise

/-- POPA stops at the pop whose item leaves the bank, with `sp` at that item. -/
theorem exec_popa_outside {w : Width} {s t : State} {k : Nat} (hk : k < 14)
    (hpop : popRegs w (dataRegs.reverse.take k) s = .done t) (hout : ¬ t.accessible t.sp w.bytes) :
    exec (.popa w) s = takeException (.invalidAddress t.sp) t := by
  have hraise := popRegs_outside w _ (dataRegs.reverse[k]'hk) (dataRegs.reverse.drop (k + 1)) hpop hout
  rw [← eq_take_append_cons dataRegs.reverse hk] at hraise
  exact congrArg complete hraise

/-- Settles O41: the accesses before the failing one have happened, and nothing undoes them. -/
theorem pushaAndPopaOutsideTheBankKeepWhatTheyDid : Obligations.PushaAndPopaOutsideTheBankKeepWhatTheyDid := by
  intro w s k hi hk
  refine ⟨fun hin hout => ?pusha, fun hin hout => ?popa⟩
  case pusha =>
    obtain ⟨m, hpush, _, hcap, hread, hframe⟩ := pushRegs_take_ok w hi (Nat.le_of_lt hk) hin
    exact ⟨_, exec_pusha_outside hk hpush hcap hout, sp_setSp _ _, fun r hr => reg_setSp_ne s _ hr, hread, hframe,
      hcap, rfl, rfl, rfl, rfl⟩
  case popa =>
    obtain ⟨t, hpop, hsp, hpc, hreg, hmem, hflags, hasleep, hcallback, hsyscalls⟩ :=
      popRegs_take_ok w (Nat.le_of_lt hk) hin
    have hexec := exec_popa_outside hk hpop (by rw [hsp, State.accessible, hmem]; exact hout)
    rw [hsp] at hexec
    exact ⟨t, hexec, hsp, hpc, hreg, hmem, hflags, hasleep, hcallback, hsyscalls⟩

/-- The items POPA reads from where PUSHA left `sp` are PUSHA's slots, in the opposite order. -/
theorem item_eq_slot {n k : Nat} (hk : k < 14) (a : Word) :
    a - BitVec.ofNat 32 (14 * n) + BitVec.ofNat 32 (n * (13 - k)) = slot n a k := by
  have hsum : 14 * n = n * (k + 1) + n * (13 - k) := by
    rw [← Nat.mul_add, Nat.mul_comm]
    congr 1
    omega
  rw [slot, hsum, BitVec.ofNat_add, ← BitVec.sub_sub, BitVec.sub_add_cancel]

theorem reg_cases (r : Reg) : r.val < 14 ∨ r = spReg ∨ r = pcReg := by
  revert r
  decide

/-- Settles O42: each register takes its own low part back. -/
theorem pushaThenPopaRestoresEverything : Obligations.PushaThenPopaRestoresEverything := by
  intro w s hi hin
  obtain ⟨t, hpusha, htsp, htreg, htread, _, htcap, htflags, htasleep, htcallback, htsyscalls⟩ :=
    pushaStoresRegistersZeroToThirteen w s hi hin
  have hitem : ∀ {k}, k < 14 → t.sp + BitVec.ofNat 32 (w.bytes * (13 - k)) = slot w.bytes s.sp k :=
    fun hk => by rw [htsp, item_eq_slot hk]
  obtain ⟨u, hpopa, husp, hupc, hureg, humem, huflags, huasleep, hucallback, husyscalls⟩ :=
    popaLoadsRegistersThirteenToZero w t (by
      intro k hk
      have hk' : 13 - (13 - k) = k := by omega
      rw [← hk', hitem (by omega), State.accessible, htcap]
      exact hin (13 - k) (by omega))
  refine ⟨t, hpusha, ?_⟩
  rw [hpopa]
  congr 1
  refine state_ext (fun r => ?_) (huflags.trans htflags) (huasleep.trans htasleep) humem
    (hucallback.trans htcallback) (husyscalls.trans htsyscalls)
  rw [reg_withMem]
  rcases reg_cases r with hr | rfl | rfl
  · have hne : r ≠ spReg := fun he => absurd (he ▸ hr) (by decide)
    have hlow : BitVec.ofNat w.bits (t.mem.readLe w.bytes (slot w.bytes s.sp r.val).toNat) =
        (s.reg r).setWidth w.bits := by
      rw [slot, htread r hr, BitVec.ofNat_toNat, BitVec.setWidth_eq, State.regRead]
    rw [hureg r hr, hitem hr, hlow, htreg r hne, replaceLow_setWidth]
  · exact husp.trans (by rw [htsp, BitVec.sub_add_cancel]; rfl)
  · exact hupc.trans (htreg pcReg (by decide))

/-! ## JMP, JSR and RTS (R254 to R256) -/

theorem exec_jsr_ok (addr : Word) {s : State} (h : s.accessible (s.sp - 4) 4) :
    exec (.jsr addr) s = .next (((s.setSp (s.sp - 4)).stored 4 (s.sp - 4) s.pc.toNat).setPc addr) := by
  have hexec : exec (.jsr addr) s = complete (call addr s) := rfl
  rw [hexec, call, push_ok (n := 4) _ h, andThen_done, complete_done]
  rfl

/-- Settles O43: JSR jumps only after its push has completed. -/
theorem jmpJumpsAndJsrPushesTheReturnAddress : Obligations.JmpJumpsAndJsrPushesTheReturnAddress := by
  intro addr s
  refine ⟨rfl, exec_jsr_ok addr, fun hout => ?_⟩
  have hexec : exec (.jsr addr) s = complete (call addr s) := rfl
  rw [hexec, call, push_error (n := 4) _ hout, andThen_raised, complete_raised]
  rfl

theorem exec_rts_ok {s : State} (h : s.accessible s.sp 4) :
    exec .rts s = .next ((s.setSp (s.sp + 4)).setPc (BitVec.ofNat 32 (s.mem.readLe 4 s.sp.toNat))) := by
  have hexec : exec .rts s = complete (ret s) := rfl
  rw [hexec, ret, pop_ok h]
  rfl

/-- Settles O44: the two answers of the pop. -/
theorem rtsPopsThePc : Obligations.RtsPopsThePc := by
  intro s
  refine ⟨exec_rts_ok, fun hout => ?_⟩
  have hexec : exec .rts s = complete (ret s) := rfl
  rw [hexec, ret, pop_error hout]
  rfl

/-- Settles O45: RTS pops the address JSR pushed. -/
theorem jsrThenRtsReturns : Obligations.JsrThenRtsReturns := by
  intro addr s hi hin
  refine ⟨_, exec_jsr_ok addr hin, pc_setPc _ _, ?_⟩
  have hcap : (s.mem.writeLe 4 (s.sp - 4).toNat s.pc.toNat).cap = s.mem.cap := cap_writeLe _ _ _ _
  have hread : (s.mem.writeLe 4 (s.sp - 4).toNat s.pc.toNat).readLe 4 (s.sp - 4).toNat = s.pc.toNat :=
    readLe_writeLe_bits .dword hi _ hin s.pc
  rw [stored_eq, mem_setSp, exec_rts_ok (by simpa [State.accessible, hcap] using hin), sp_setPc, sp_withMem, sp_setSp,
    mem_setPc, mem_withMem, hread, BitVec.sub_add_cancel, BitVec.ofNat_toNat, BitVec.setWidth_eq, setSp_setPc_comm,
    setSp_back, setPc_setPc]
  exact congrArg Host.Outcome.next (setPc_pc (s.withMem _))

end Sys2Proof.Machine
end

section
/-! PROOFS. The statements of spec/46_system.md about BRK, RTI, SYS, SLP, NOP and the flag instructions (R280 to R292),
and of spec/60_exceptions.md about interrupt entries and their return (R321 to R325). -/

namespace Sys2Proof.Machine

/-! ## The frame pushed and popped (R281, R284) -/

/-- Inside the bank the frame is pushed; it stands in every state with its memory and its `sp`. -/
theorem pushFrame_framed {s : State} (hi : s.Inv) (hin : frameInBank s) :
    ∃ m : Memory, m.wf = true ∧ pushFrame s = .done ((s.setSp (s.sp - 5)).withMem m) ∧
      ∀ t : State, t.sp = s.sp - 5 → t.mem = m → framePushed s t s.flags s.pc := by
  obtain ⟨m, hpush, hwf, hcap, hflags, hpc, hframe⟩ := pushFrame_ok s hi hin
  refine ⟨m, hwf, hpush, fun t hsp hmem => ⟨hsp, ?_⟩⟩
  rw [hmem]
  exact ⟨hflags, hpc, hcap, hframe⟩

/-- From a state in which the frame stands, RTI loads what was pushed and moves `sp` back. -/
theorem exec_rti_of_framePushed {s t : State} {f : Flags} {pc : Word} (hin : frameInBank s)
    (h : framePushed s t f pc) : exec .rti t = .next (((t.setSp s.sp).setPc pc).withFlags f) := by
  obtain ⟨hsp, hflags, hpc, hcap, _⟩ := h
  have hsp1 : t.sp + 4 = s.sp - 1 := by
    rw [hsp]
    bv_omega
  have hsp5 : t.sp + 5 = s.sp := by rw [hsp, BitVec.sub_add_cancel]
  have hin4 : t.accessible t.sp 4 := by
    rw [State.accessible, hsp, hcap]
    exact hin.2
  have hin1 : t.accessible (t.sp + 4) 1 := by
    rw [State.accessible, hsp1, hcap]
    exact hin.1
  have hexec : exec .rti t = complete (leaveInterrupt t) := rfl
  rcases leaveInterrupt_cases t with ⟨hout, _⟩ | ⟨_, hout, _⟩ | ⟨_, _, hrti⟩
  · exact absurd hin4 hout
  · exact absurd hin1 hout
  · rw [hexec, hrti, complete_done, hsp5, hsp1, hflags, ofByte_toByte, hsp, hpc, BitVec.ofNat_toNat,
      BitVec.setWidth_eq]

/-- With `sp`, `pc` and the flags put back, an entry has changed memory and the latch alone. -/
theorem return_restores {s t : State} (hreg : ∀ r, r ≠ spReg → r ≠ pcReg → t.reg r = s.reg r)
    (hcallback : t.callback = s.callback) (hsyscalls : t.syscalls = s.syscalls) :
    ((t.setSp s.sp).setPc s.pc).withFlags s.flags = (s.withMem t.mem).withAsleep t.asleep := by
  refine state_ext (fun r => ?_) rfl rfl rfl hcallback hsyscalls
  rw [reg_withFlags, reg_withAsleep, reg_withMem]
  by_cases hpc : r = pcReg
  · rw [hpc]
    exact pc_setPc _ _
  · rw [reg_setPc_ne _ _ hpc]
    by_cases hsp : r = spReg
    · rw [hsp]
      exact sp_setSp _ _
    · rw [reg_setSp_ne _ _ hsp, hreg r hsp hpc]

/-! ## BRK and RTI (R280, R281) -/

theorem complete_loadVector_ok {s : State} (h : s.Inv) {a : Word} (ha : a.toNat ≤ 28) :
    complete (loadVector a s) = .next (s.setPc (BitVec.ofNat 32 (s.mem.readLe 4 a.toNat))) := by
  rw [loadVector_ok h ha, complete_done]

/-- Settles O47: Break is set after the frame is pushed, so the pushed flags are the old ones. -/
theorem brkPushesTheFrameAndSetsBreak : Obligations.BrkPushesTheFrameAndSetsBreak := by
  intro s hi hin
  obtain ⟨m, hwf, hpush, hframed⟩ := pushFrame_framed hi hin
  have hexec : exec .brk s = complete (softwareInterrupt s) := rfl
  have hbrk : exec .brk s =
      .next ((((s.setSp (s.sp - 5)).withMem m).withFlags { s.flags with b := true }).setPc
        (BitVec.ofNat 32 (m.readLe 4 0x0C))) := by
    rw [hexec, softwareInterrupt, hpush, andThen_done]
    exact complete_loadVector_ok (s := ((s.setSp (s.sp - 5)).withMem m).withFlags { s.flags with b := true })
      (a := vecSwIrq) hwf (by decide)
  refine ⟨_, hbrk, hframed _ ?_ rfl, pc_setPc _ _, rfl, fun r hsp hpc => ?_, rfl, rfl, rfl⟩
  · rw [sp_setPc, sp_withFlags, sp_withMem, sp_setSp]
  · rw [reg_setPc_ne _ _ hpc, reg_withFlags, reg_withMem, reg_setSp_ne _ _ hsp]

/-- Settles O48: the frame's flags byte is unpacked by `Flags.ofByte`. -/
theorem rtiRestoresPcAndFlags : Obligations.RtiRestoresPcAndFlags := by
  intro s
  have hexec : exec .rti s = complete (leaveInterrupt s) := rfl
  rw [hexec]
  rcases leaveInterrupt_cases s with ⟨hout, h⟩ | ⟨hin, hout, h⟩ | ⟨hin4, hin1, h⟩
  · rw [h]
    exact ⟨fun hin => absurd hin hout, fun _ => rfl, fun hin => absurd hin hout⟩
  · rw [h]
    exact ⟨fun _ hin1 => absurd hin1 hout, fun hout4 => absurd hin hout4, fun _ _ => rfl⟩
  · rw [h]
    exact ⟨fun _ _ => rfl, fun hout => absurd hin4 hout, fun _ hout => absurd hin1 hout⟩

/-- Settles O49: RTI finds BRK's frame. -/
theorem brkThenRtiRestoresEverything : Obligations.BrkThenRtiRestoresEverything := by
  intro s hi hin
  obtain ⟨t, hbrk, hframe, _, _, hreg, hasleep, hcallback, hsyscalls⟩ := brkPushesTheFrameAndSetsBreak s hi hin
  refine ⟨t, hbrk, ?_⟩
  rw [exec_rti_of_framePushed hin hframe, return_restores hreg hcallback hsyscalls, hasleep]
  rfl

/-! ## Interrupt entries and their return (R321 to R325) -/

/-- Settles O55: the latch is cleared before the frame is pushed, and no flag is written. -/
theorem interruptPushesTheFrameAndVectors : Obligations.InterruptPushesTheFrameAndVectors := by
  intro s nmi hi hentry hin
  obtain ⟨m, hwf, hpush, hframed⟩ := pushFrame_framed (s := s.withAsleep false) hi hin
  have hvector : (interruptVector nmi).toNat = if nmi then 0x10 else 0x08 := by cases nmi <;> rfl
  have hle : (interruptVector nmi).toNat ≤ 28 := by cases nmi <;> decide
  have hentered : interruptRaised nmi s =
      .next ((((s.withAsleep false).setSp (s.sp - 5)).withMem m).setPc
        (BitVec.ofNat 32 (m.readLe 4 (if nmi then 0x10 else 0x08)))) := by
    rw [interruptRaised_taken hentry, hpush, andThen_done, ← hvector]
    exact complete_loadVector_ok (s := ((s.withAsleep false).setSp (s.sp - 5)).withMem m) hwf hle
  refine ⟨_, hentered, hframed _ ?_ rfl, pc_setPc _ _, rfl, rfl, rfl, rfl, fun r hsp hpc => ?_⟩
  · rw [sp_setPc, sp_withMem, sp_setSp, sp_withAsleep]
  · rw [reg_setPc_ne _ _ hpc, reg_withMem, reg_setSp_ne _ _ hsp, reg_withAsleep]

/-- Settles O56: RTI finds the entry's frame, and the latch stays clear. -/
theorem interruptThenRtiResumes : Obligations.InterruptThenRtiResumes := by
  intro s nmi hi hentry hin
  obtain ⟨t, ht, hframe, _, _, hasleep, hcallback, hsyscalls, hreg⟩ :=
    interruptPushesTheFrameAndVectors s nmi hi hentry hin
  refine ⟨t, ht, ?_⟩
  rw [exec_rti_of_framePushed hin hframe, return_restores hreg hcallback hsyscalls, hasleep]

/-! ## SYS, SLP, NOP and the flag instructions (R282 to R292) -/

/-- An awake tick that fetches SYS invokes the registered callback, if there is one, with SYS's operands. -/
theorem tickSyscall_of_fetch {s : State} {id : BitVec 16} {addr pc : Word} (ha : s.asleep = false)
    (hf : fetch s = .ok (.sys id addr, pc)) : tickSyscall s = s.callback.map fun _ => (id, addr) := by
  unfold tickSyscall
  cases hc : s.callback with
  | none => simp
  | some k => simp [ha, hf]

/-- Settles O50: whatever the callback writes, a system call answers a state that differs in memory and the counter. -/
theorem sysLeavesAllButMemory : Obligations.SysLeavesAllButMemory := by
  intro id addr s
  obtain ⟨m, n, hsys, hcap, hwf, hnone⟩ := systemCall_cases id addr s
  have hexec : exec (.sys id addr) s = .next { s with mem := m, syscalls := n } := congrArg complete hsys
  refine ⟨fun h => ?_, ⟨_, hexec, rfl, rfl, rfl, rfl, hcap, hwf⟩, fun pc ha hf => tickSyscall_of_fetch ha hf⟩
  obtain ⟨rfl, rfl⟩ := hnone h
  exact hexec

/-- Settles O51: each meaning is the update itself. -/
theorem slpNopAndFlagInstructionsWriteAtMostOneBit : Obligations.SlpNopAndFlagInstructionsWriteAtMostOneBit :=
  fun _ => ⟨rfl, rfl, rfl, rfl, rfl, rfl, rfl, rfl⟩

end Sys2Proof.Machine
end
